-- ==== Sys2Proof/Word.lean ====
section
/-! DEFINITION. The word type of the core and the types of single values: the word and the byte of `00_scope.md` R9, the
5-bit register index of `10_state.md` R17, the flag set of R27. -/

namespace Sys2Proof

/-- A 32-bit word (R9). Registers, addresses, instruction words and ALU results are words. -/
abbrev Word := BitVec 32

/-- One byte of data memory (R39) or of the program image (R46). -/
abbrev Byte := BitVec 8

/-- A 5-bit register index: the value of an `rd`, `rs1` or `rs2` field (R17, R61). -/
abbrev Reg := BitVec 5

/-- The flag set {Z, N, C, V, P} that the ALU produces with every result (R27, R115). -/
structure Flags where
  z : Bool
  n : Bool
  c : Bool
  v : Bool
  p : Bool
deriving DecidableEq, Repr, Inhabited

end Sys2Proof
end

