-- ==== Sys2Proof/Config.lean ====
section
/-! DEFINITION. What an implementation fixes (`00_scope.md` R8) and the free values: the parameters a launch fixes are plain
data, the values the spec leaves open are opaque constants, of which no proof can know anything. -/

namespace Sys2Proof

/-- The two memory sizes that a launch fixes (R8, R195): `IMEM_WORDS` and `DMEM_BYTES`. They are OPEN parameters, so
every statement speaks of every value of them. -/
structure Params where
  imemWords : Nat
  dmemBytes : Nat
deriving DecidableEq, Repr

/-- The ranges that R8 gives the parameters: 1 ≤ `IMEM_WORDS` ≤ 2^30 and 0 ≤ `DMEM_BYTES` ≤ 2^32. -/
def Params.wf (p : Params) : Bool :=
  decide (1 ≤ p.imemWords) && decide (p.imemWords ≤ 2 ^ 30) && decide (p.dmemBytes ≤ 2 ^ 32)

namespace Config

/-- The sizes `State.reset` is given. DESIGN CHOICE (unsafe, log 2): the spec fixes no size; the largest ones let every
address a program can form exist. -/
def resetParams : Params := { imemWords := 2 ^ 30, dmemBytes := 2 ^ 32 }

/-- `ALU_PARITY` (R8, R115, D24): OPEN, a total function from a 32-bit result to a bit. Free value (log 5, safe). -/
opaque aluParity : Word → Bool

/-- The `result` field of the EM latch for a micro-op whose rule computes none (a load, a store, a branch, FENCE).
Free value, applied to the tick counter (log 6, safe). -/
opaque openResult : Nat → Word

/-- The `flags` field of the EM latch for a micro-op whose rule uses no flag (everything but the computational micro-ops
and the Unimplemented ones). Free value, applied to the tick counter (log 6, safe). -/
opaque openFlags : Nat → Flags

/-- The `addr` field of the EM latch for a micro-op that is neither a load nor a store. Free value, applied to the tick
counter (log 6, safe). -/
opaque openAddr : Nat → Word

/-- The `store_data` field of the EM latch for a micro-op that is no store. Free value, applied to the tick counter
(log 6, safe). -/
opaque openStoreData : Nat → Word

/-- Whether the diagnostic of an Unimplemented micro-op is recorded when its tick ends in a fatal error of another stage:
"Whether its diagnostic is recorded is not architectural" (R180). Free value, applied to the tick's number (log 7, safe). -/
opaque diagKeptInFatalTick : Nat → Bool

end Config

end Sys2Proof
end

