-- ==== Sys2Proof/Syntax.lean ====
section
/-! DEFINITION. The instruction set: the six formats, the 59 micro-ops of `30_encoding.md` R71 and the DecodedInstruction of
R70, one constructor for each row of `spec/opcode_table.json`. -/

namespace Sys2Proof

/-- The six instruction formats (R62, R66). -/
inductive Format where
  | r | i | s | b | u | j
deriving DecidableEq, Repr

/-- The micro-ops: a closed enumeration, one for each mnemonic (R71). -/
inductive Uop where
  | lui | auipc | jal | jalr | beq | bne | blt | bge | bltu | bgeu | lb | lh | lw | lbu | lhu | sb | sh | sw
  | addi | slti | sltiu | xori | ori | andi | slli | srli | srai | add | sub | sll | slt | sltu | xor | srl
  | sra | or | and | fence | ecall | ebreak | mul | mulh | mulhsu | mulhu | div | divu | rem | remu | lrW
  | scW | amoswapW | amoaddW | amoxorW | amoandW | amoorW | amominW | amomaxW | amominuW | amomaxuW
deriving DecidableEq, Repr

/-- The ten operations of the ALU (`41_integer_computational.md` R114). -/
inductive AluOp where
  | add | sub | and | or | xor | sll | srl | sra | slt | sltu
deriving DecidableEq, Repr

/-- The widths of a data access (`20_memory.md` R50). -/
inductive Width where
  | byte | half | word
deriving DecidableEq, Repr

/-- What MemAccess does for a micro-op (`40_pipeline.md` R104): load with sign or zero extension (`43_load_store.md` R154),
store (R155), or no access. -/
inductive Access where
  | load (w : Width) (signed : Bool)
  | store (w : Width)
  | none
deriving DecidableEq, Repr

/-- A decoded instruction, with the populated fields that `30_encoding.md` R70 gives its format. Every immediate is the
32-bit sign-extended one (R64). The bits of FENCE, ECALL, EBREAK and LR_W that the decoder does not test but that are
fields of their format are carried; `aq` and `rl` are not (DEDUCED, safe, log 11). -/
inductive Instr where
  /-- LUI (R137) -/
  | lui (rd : Reg) (imm : Word)
  /-- AUIPC (R138) -/
  | auipc (rd : Reg) (imm : Word)
  /-- JAL (R145) -/
  | jal (rd : Reg) (imm : Word)
  /-- JALR (R146) -/
  | jalr (rd rs1 : Reg) (imm : Word)
  /-- BEQ (R147) -/
  | beq (rs1 rs2 : Reg) (imm : Word)
  /-- BNE (R148) -/
  | bne (rs1 rs2 : Reg) (imm : Word)
  /-- BLT (R149) -/
  | blt (rs1 rs2 : Reg) (imm : Word)
  /-- BGE (R150) -/
  | bge (rs1 rs2 : Reg) (imm : Word)
  /-- BLTU (R151) -/
  | bltu (rs1 rs2 : Reg) (imm : Word)
  /-- BGEU (R152) -/
  | bgeu (rs1 rs2 : Reg) (imm : Word)
  /-- LB (R157) -/
  | lb (rd rs1 : Reg) (imm : Word)
  /-- LH (R158) -/
  | lh (rd rs1 : Reg) (imm : Word)
  /-- LW (R159) -/
  | lw (rd rs1 : Reg) (imm : Word)
  /-- LBU (R160) -/
  | lbu (rd rs1 : Reg) (imm : Word)
  /-- LHU (R161) -/
  | lhu (rd rs1 : Reg) (imm : Word)
  /-- SB (R162) -/
  | sb (rs1 rs2 : Reg) (imm : Word)
  /-- SH (R163) -/
  | sh (rs1 rs2 : Reg) (imm : Word)
  /-- SW (R164) -/
  | sw (rs1 rs2 : Reg) (imm : Word)
  /-- ADDI (R128) -/
  | addi (rd rs1 : Reg) (imm : Word)
  /-- SLTI (R129) -/
  | slti (rd rs1 : Reg) (imm : Word)
  /-- SLTIU (R130) -/
  | sltiu (rd rs1 : Reg) (imm : Word)
  /-- XORI (R131) -/
  | xori (rd rs1 : Reg) (imm : Word)
  /-- ORI (R132) -/
  | ori (rd rs1 : Reg) (imm : Word)
  /-- ANDI (R133) -/
  | andi (rd rs1 : Reg) (imm : Word)
  /-- SLLI (R134) -/
  | slli (rd rs1 : Reg) (imm : Word)
  /-- SRLI (R135) -/
  | srli (rd rs1 : Reg) (imm : Word)
  /-- SRAI (R136) -/
  | srai (rd rs1 : Reg) (imm : Word)
  /-- ADD (R118) -/
  | add (rd rs1 rs2 : Reg)
  /-- SUB (R119) -/
  | sub (rd rs1 rs2 : Reg)
  /-- SLL (R120) -/
  | sll (rd rs1 rs2 : Reg)
  /-- SLT (R121) -/
  | slt (rd rs1 rs2 : Reg)
  /-- SLTU (R122) -/
  | sltu (rd rs1 rs2 : Reg)
  /-- XOR (R123) -/
  | xor (rd rs1 rs2 : Reg)
  /-- SRL (R124) -/
  | srl (rd rs1 rs2 : Reg)
  /-- SRA (R125) -/
  | sra (rd rs1 rs2 : Reg)
  /-- OR (R126) -/
  | or (rd rs1 rs2 : Reg)
  /-- AND (R127) -/
  | and (rd rs1 rs2 : Reg)
  /-- FENCE (R165) -/
  | fence (rd rs1 : Reg) (imm : Word)
  /-- ECALL (R166); its immediate is 0 (R81), the value it has where none is written -/
  | ecall (rd rs1 : Reg) (imm : Word := 0#32)
  /-- EBREAK (R167); its immediate is 1 (R81), the value it has where none is written -/
  | ebreak (rd rs1 : Reg) (imm : Word := 1#32)
  /-- MUL (R171) -/
  | mul (rd rs1 rs2 : Reg)
  /-- MULH (R171) -/
  | mulh (rd rs1 rs2 : Reg)
  /-- MULHSU (R171) -/
  | mulhsu (rd rs1 rs2 : Reg)
  /-- MULHU (R171) -/
  | mulhu (rd rs1 rs2 : Reg)
  /-- DIV (R171) -/
  | div (rd rs1 rs2 : Reg)
  /-- DIVU (R171) -/
  | divu (rd rs1 rs2 : Reg)
  /-- REM (R171) -/
  | rem (rd rs1 rs2 : Reg)
  /-- REMU (R171) -/
  | remu (rd rs1 rs2 : Reg)
  /-- LR.W (R172) -/
  | lrW (rd rs1 rs2 : Reg)
  /-- SC.W (R172) -/
  | scW (rd rs1 rs2 : Reg)
  /-- AMOSWAP.W (R172) -/
  | amoswapW (rd rs1 rs2 : Reg)
  /-- AMOADD.W (R172) -/
  | amoaddW (rd rs1 rs2 : Reg)
  /-- AMOXOR.W (R172) -/
  | amoxorW (rd rs1 rs2 : Reg)
  /-- AMOAND.W (R172) -/
  | amoandW (rd rs1 rs2 : Reg)
  /-- AMOOR.W (R172) -/
  | amoorW (rd rs1 rs2 : Reg)
  /-- AMOMIN.W (R172) -/
  | amominW (rd rs1 rs2 : Reg)
  /-- AMOMAX.W (R172) -/
  | amomaxW (rd rs1 rs2 : Reg)
  /-- AMOMINU.W (R172) -/
  | amominuW (rd rs1 rs2 : Reg)
  /-- AMOMAXU.W (R172) -/
  | amomaxuW (rd rs1 rs2 : Reg)
deriving DecidableEq, Repr

end Sys2Proof
end

