-- ==== Sys2Proof/WellFormed.lean ====
section
/-! DEFINITION. Which decoded instructions an encoding can hold: the range of each format's immediate (`30_encoding.md` R63,
R65), and the one immediate of ECALL and EBREAK (R81). Register indices are 5 bits by their type. -/

namespace Sys2Proof

/-- An immediate that is the sign extension of its low 12 bits (R63, `imm_I` and `imm_S`). -/
def fits12 (imm : Word) : Bool := (imm.extractLsb' 0 12).signExtend 32 == imm

/-- An even immediate that is the sign extension of its low 13 bits (R63, `imm_B`). -/
def fits13 (imm : Word) : Bool := (imm.extractLsb' 0 13).signExtend 32 == imm && imm.extractLsb' 0 1 == 0#1

/-- An even immediate that is the sign extension of its low 21 bits (R63, `imm_J`). -/
def fits21 (imm : Word) : Bool := (imm.extractLsb' 0 21).signExtend 32 == imm && imm.extractLsb' 0 1 == 0#1

/-- An immediate whose low 12 bits are zero (R63, `imm_U`). -/
def fitsUpper (imm : Word) : Bool := imm.extractLsb' 0 12 == 0#12

/-- A shift's immediate: it fits 12 bits, and the bits above the shift amount are the kind's funct7 (R65, R73). -/
def fitsShift (kind : BitVec 7) (imm : Word) : Bool := fits12 imm && imm.extractLsb' 5 7 == kind

/-- The well-formed instructions: those whose immediate their encoding can hold. -/
def Instr.wf : Instr → Bool
  | .lui _ imm | .auipc _ imm => fitsUpper imm
  | .jal _ imm => fits21 imm
  | .beq _ _ imm | .bne _ _ imm | .blt _ _ imm | .bge _ _ imm | .bltu _ _ imm | .bgeu _ _ imm => fits13 imm
  | .jalr _ _ imm | .lb _ _ imm | .lh _ _ imm | .lw _ _ imm | .lbu _ _ imm | .lhu _ _ imm => fits12 imm
  | .sb _ _ imm | .sh _ _ imm | .sw _ _ imm => fits12 imm
  | .addi _ _ imm | .slti _ _ imm | .sltiu _ _ imm | .xori _ _ imm | .ori _ _ imm | .andi _ _ imm => fits12 imm
  | .slli _ _ imm | .srli _ _ imm => fitsShift 0x00#7 imm
  | .srai _ _ imm => fitsShift 0x20#7 imm
  | .fence _ _ imm => fits12 imm
  | .add .. | .sub .. | .sll .. | .slt .. | .sltu .. | .xor .. | .srl .. | .sra .. | .or .. | .and .. => true
  | .ecall _ _ imm => imm == 0#32
  | .ebreak _ _ imm => imm == 1#32
  | .mul .. | .mulh .. | .mulhsu .. | .mulhu .. | .div .. | .divu .. | .rem .. | .remu .. => true
  | .lrW .. | .scW .. | .amoswapW .. | .amoaddW .. | .amoxorW .. | .amoandW .. | .amoorW .. => true
  | .amominW .. | .amomaxW .. | .amominuW .. | .amomaxuW .. => true

end Sys2Proof
end

