-- ==== Sys2Proof/Decode.lean ====
section
/-! DEFINITION. The decoder of `30_encoding.md`: field positions and immediates (R61 to R65), the opcode map (R66) and the
per-opcode resolution (R72 to R82), total on every word and rejecting by name (R67 to R69, R83); after it the encoder,
written from the same tables. -/

namespace Sys2Proof

/-- The micro-op of a decoded instruction (R70, R71). -/
def Instr.uop : Instr → Uop
  | .lui .. => .lui
  | .auipc .. => .auipc
  | .jal .. => .jal
  | .jalr .. => .jalr
  | .beq .. => .beq
  | .bne .. => .bne
  | .blt .. => .blt
  | .bge .. => .bge
  | .bltu .. => .bltu
  | .bgeu .. => .bgeu
  | .lb .. => .lb
  | .lh .. => .lh
  | .lw .. => .lw
  | .lbu .. => .lbu
  | .lhu .. => .lhu
  | .sb .. => .sb
  | .sh .. => .sh
  | .sw .. => .sw
  | .addi .. => .addi
  | .slti .. => .slti
  | .sltiu .. => .sltiu
  | .xori .. => .xori
  | .ori .. => .ori
  | .andi .. => .andi
  | .slli .. => .slli
  | .srli .. => .srli
  | .srai .. => .srai
  | .add .. => .add
  | .sub .. => .sub
  | .sll .. => .sll
  | .slt .. => .slt
  | .sltu .. => .sltu
  | .xor .. => .xor
  | .srl .. => .srl
  | .sra .. => .sra
  | .or .. => .or
  | .and .. => .and
  | .fence .. => .fence
  | .ecall .. => .ecall
  | .ebreak .. => .ebreak
  | .mul .. => .mul
  | .mulh .. => .mulh
  | .mulhsu .. => .mulhsu
  | .mulhu .. => .mulhu
  | .div .. => .div
  | .divu .. => .divu
  | .rem .. => .rem
  | .remu .. => .remu
  | .lrW .. => .lrW
  | .scW .. => .scW
  | .amoswapW .. => .amoswapW
  | .amoaddW .. => .amoaddW
  | .amoxorW .. => .amoxorW
  | .amoandW .. => .amoandW
  | .amoorW .. => .amoorW
  | .amominW .. => .amominW
  | .amomaxW .. => .amomaxW
  | .amominuW .. => .amominuW
  | .amomaxuW .. => .amomaxuW

/-- The format tag of each micro-op: the format of its opcode (R66, R70). -/
def Uop.format : Uop → Format
  | .add | .sub | .sll | .slt | .sltu | .xor | .srl | .sra | .or | .and | .mul | .mulh | .mulhsu
  | .mulhu | .div | .divu | .rem | .remu | .lrW | .scW | .amoswapW | .amoaddW | .amoxorW | .amoandW
  | .amoorW | .amominW | .amomaxW | .amominuW | .amomaxuW => .r
  | .jalr | .lb | .lh | .lw | .lbu | .lhu | .addi | .slti | .sltiu | .xori | .ori | .andi | .slli
  | .srli | .srai | .fence | .ecall | .ebreak => .i
  | .sb | .sh | .sw => .s
  | .beq | .bne | .blt | .bge | .bltu | .bgeu => .b
  | .lui | .auipc => .u
  | .jal => .j

/-- The opcode, bits [6:0], of each micro-op (R66). -/
def Uop.opcode : Uop → BitVec 7
  | .lui => 0x37#7
  | .auipc => 0x17#7
  | .jal => 0x6F#7
  | .jalr => 0x67#7
  | .beq | .bne | .blt | .bge | .bltu | .bgeu => 0x63#7
  | .lb | .lh | .lw | .lbu | .lhu => 0x03#7
  | .sb | .sh | .sw => 0x23#7
  | .addi | .slti | .sltiu | .xori | .ori | .andi | .slli | .srli | .srai => 0x13#7
  | .add | .sub | .sll | .slt | .sltu | .xor | .srl | .sra | .or | .and | .mul | .mulh | .mulhsu
  | .mulhu | .div | .divu | .rem | .remu => 0x33#7
  | .fence => 0x0F#7
  | .ecall | .ebreak => 0x73#7
  | .lrW | .scW | .amoswapW | .amoaddW | .amoxorW | .amoandW | .amoorW | .amominW | .amomaxW | .amominuW
  | .amomaxuW => 0x2F#7

/-- The format tag of a decoded instruction (R70). -/
def Instr.format (i : Instr) : Format := i.uop.format

/-- The opcode of a decoded instruction (R70). -/
def Instr.opcode (i : Instr) : BitVec 7 := i.uop.opcode

/-- The errors of the decoder (R69, R83; `60_exceptions.md` R173, E1 and E2). -/
inductive DecodeError where
  /-- Unknown opcode, with the 7-bit opcode (R69). The Decode stage raises it; it halts the engine (R175), a safe stop
  that the spec itself describes. -/
  | invalidOpcode (opcode : BitVec 7)
  /-- Unresolvable combination, with opcode, funct3 and funct7 (R83). The Decode stage raises it; it halts the engine
  (R175), a safe stop that the spec itself describes. -/
  | invalidFunct (opcode : BitVec 7) (funct3 : BitVec 3) (funct7 : BitVec 7)
deriving DecidableEq, Repr

/-! Field positions (R61). -/

/-- `opcode` = w[6:0]. -/
def opcodeOf (w : Word) : BitVec 7 := w.extractLsb' 0 7
/-- `rd` = w[11:7]. -/
def rdOf (w : Word) : Reg := w.extractLsb' 7 5
/-- `funct3` = w[14:12]. -/
def funct3Of (w : Word) : BitVec 3 := w.extractLsb' 12 3
/-- `rs1` = w[19:15]. -/
def rs1Of (w : Word) : Reg := w.extractLsb' 15 5
/-- `rs2` = w[24:20]. -/
def rs2Of (w : Word) : Reg := w.extractLsb' 20 5
/-- `funct7` = w[31:25]. -/
def funct7Of (w : Word) : BitVec 7 := w.extractLsb' 25 7
/-- `funct5` = w[31:27], of an AMO word (R82). -/
def funct5Of (w : Word) : BitVec 5 := w.extractLsb' 27 5
/-- w[31:20], of a SYSTEM word (R81). -/
def funct12Of (w : Word) : BitVec 12 := w.extractLsb' 20 12

/-! Immediate assembly (R63). -/

/-- `imm_I = sext_12( w[31:20] )`. -/
def immI (w : Word) : Word := (w.extractLsb' 20 12).signExtend 32
/-- `imm_S = sext_12( {w[31:25], w[11:7]} )`. -/
def immS (w : Word) : Word := (w.extractLsb' 25 7 ++ w.extractLsb' 7 5).signExtend 32
/-- `imm_B = sext_13( {w[31], w[7], w[30:25], w[11:8], 0b0} )`. -/
def immB (w : Word) : Word :=
  (w.extractLsb' 31 1 ++ w.extractLsb' 7 1 ++ w.extractLsb' 25 6 ++ w.extractLsb' 8 4 ++ 0#1).signExtend 32
/-- `imm_U = {w[31:12], 0x000}`. -/
def immU (w : Word) : Word := w.extractLsb' 12 20 ++ 0#12
/-- `imm_J = sext_21( {w[31], w[19:12], w[20], w[30:21], 0b0} )`. -/
def immJ (w : Word) : Word :=
  (w.extractLsb' 31 1 ++ w.extractLsb' 12 8 ++ w.extractLsb' 20 1 ++ w.extractLsb' 21 10 ++ 0#1).signExtend 32

/-- "Unresolvable (funct3,funct7) combination → DecodeError::InvalidFunct", with its payload (R83). -/
def invalidFunct (w : Word) : Except DecodeError Instr :=
  .error (.invalidFunct (opcodeOf w) (funct3Of w) (funct7Of w))

/-! Per-opcode resolution. -/

/-- OP (R72), on (funct7, funct3). -/
def decodeOp (w : Word) : Except DecodeError Instr :=
  match funct7Of w, funct3Of w with
  | 0x00#7, 0#3 => .ok (.add (rdOf w) (rs1Of w) (rs2Of w))
  | 0x20#7, 0#3 => .ok (.sub (rdOf w) (rs1Of w) (rs2Of w))
  | 0x00#7, 1#3 => .ok (.sll (rdOf w) (rs1Of w) (rs2Of w))
  | 0x00#7, 2#3 => .ok (.slt (rdOf w) (rs1Of w) (rs2Of w))
  | 0x00#7, 3#3 => .ok (.sltu (rdOf w) (rs1Of w) (rs2Of w))
  | 0x00#7, 4#3 => .ok (.xor (rdOf w) (rs1Of w) (rs2Of w))
  | 0x00#7, 5#3 => .ok (.srl (rdOf w) (rs1Of w) (rs2Of w))
  | 0x20#7, 5#3 => .ok (.sra (rdOf w) (rs1Of w) (rs2Of w))
  | 0x00#7, 6#3 => .ok (.or (rdOf w) (rs1Of w) (rs2Of w))
  | 0x00#7, 7#3 => .ok (.and (rdOf w) (rs1Of w) (rs2Of w))
  | 0x01#7, 0#3 => .ok (.mul (rdOf w) (rs1Of w) (rs2Of w))
  | 0x01#7, 1#3 => .ok (.mulh (rdOf w) (rs1Of w) (rs2Of w))
  | 0x01#7, 2#3 => .ok (.mulhsu (rdOf w) (rs1Of w) (rs2Of w))
  | 0x01#7, 3#3 => .ok (.mulhu (rdOf w) (rs1Of w) (rs2Of w))
  | 0x01#7, 4#3 => .ok (.div (rdOf w) (rs1Of w) (rs2Of w))
  | 0x01#7, 5#3 => .ok (.divu (rdOf w) (rs1Of w) (rs2Of w))
  | 0x01#7, 6#3 => .ok (.rem (rdOf w) (rs1Of w) (rs2Of w))
  | 0x01#7, 7#3 => .ok (.remu (rdOf w) (rs1Of w) (rs2Of w))
  | _, _ => invalidFunct w

/-- OP-IMM (R73), on funct3, and for the shifts also on funct7. -/
def decodeOpImm (w : Word) : Except DecodeError Instr :=
  match funct3Of w with
  | 0#3 => .ok (.addi (rdOf w) (rs1Of w) (immI w))
  | 2#3 => .ok (.slti (rdOf w) (rs1Of w) (immI w))
  | 3#3 => .ok (.sltiu (rdOf w) (rs1Of w) (immI w))
  | 4#3 => .ok (.xori (rdOf w) (rs1Of w) (immI w))
  | 6#3 => .ok (.ori (rdOf w) (rs1Of w) (immI w))
  | 7#3 => .ok (.andi (rdOf w) (rs1Of w) (immI w))
  | 1#3 =>
    match funct7Of w with
    | 0x00#7 => .ok (.slli (rdOf w) (rs1Of w) (immI w))
    | _ => invalidFunct w
  | 5#3 =>
    match funct7Of w with
    | 0x00#7 => .ok (.srli (rdOf w) (rs1Of w) (immI w))
    | 0x20#7 => .ok (.srai (rdOf w) (rs1Of w) (immI w))
    | _ => invalidFunct w
  | _ => invalidFunct w

/-- LOAD (R74), on funct3. -/
def decodeLoad (w : Word) : Except DecodeError Instr :=
  match funct3Of w with
  | 0#3 => .ok (.lb (rdOf w) (rs1Of w) (immI w))
  | 1#3 => .ok (.lh (rdOf w) (rs1Of w) (immI w))
  | 2#3 => .ok (.lw (rdOf w) (rs1Of w) (immI w))
  | 4#3 => .ok (.lbu (rdOf w) (rs1Of w) (immI w))
  | 5#3 => .ok (.lhu (rdOf w) (rs1Of w) (immI w))
  | _ => invalidFunct w

/-- STORE (R75), on funct3. -/
def decodeStore (w : Word) : Except DecodeError Instr :=
  match funct3Of w with
  | 0#3 => .ok (.sb (rs1Of w) (rs2Of w) (immS w))
  | 1#3 => .ok (.sh (rs1Of w) (rs2Of w) (immS w))
  | 2#3 => .ok (.sw (rs1Of w) (rs2Of w) (immS w))
  | _ => invalidFunct w

/-- BRANCH (R76), on funct3. -/
def decodeBranch (w : Word) : Except DecodeError Instr :=
  match funct3Of w with
  | 0#3 => .ok (.beq (rs1Of w) (rs2Of w) (immB w))
  | 1#3 => .ok (.bne (rs1Of w) (rs2Of w) (immB w))
  | 4#3 => .ok (.blt (rs1Of w) (rs2Of w) (immB w))
  | 5#3 => .ok (.bge (rs1Of w) (rs2Of w) (immB w))
  | 6#3 => .ok (.bltu (rs1Of w) (rs2Of w) (immB w))
  | 7#3 => .ok (.bgeu (rs1Of w) (rs2Of w) (immB w))
  | _ => invalidFunct w

/-- JALR (R77), on funct3. -/
def decodeJalr (w : Word) : Except DecodeError Instr :=
  match funct3Of w with
  | 0#3 => .ok (.jalr (rdOf w) (rs1Of w) (immI w))
  | _ => invalidFunct w

/-- MISC-MEM (R80): FENCE whatever the other fields hold. -/
def decodeMiscMem (w : Word) : Except DecodeError Instr :=
  match funct3Of w with
  | 0#3 => .ok (.fence (rdOf w) (rs1Of w) (immI w))
  | _ => invalidFunct w

/-- SYSTEM (R81), on funct3 and w[31:20]; rd and rs1 are not tested. -/
def decodeSystem (w : Word) : Except DecodeError Instr :=
  match funct3Of w, funct12Of w with
  | 0#3, 0x000#12 => .ok (.ecall (rdOf w) (rs1Of w) (immI w))
  | 0#3, 0x001#12 => .ok (.ebreak (rdOf w) (rs1Of w) (immI w))
  | _, _ => invalidFunct w

/-- AMO (R82), on funct3 and funct5; `aq`, `rl` and the rs2 of LR_W are not tested. -/
def decodeAmo (w : Word) : Except DecodeError Instr :=
  match funct3Of w, funct5Of w with
  | 2#3, 0x02#5 => .ok (.lrW (rdOf w) (rs1Of w) (rs2Of w))
  | 2#3, 0x03#5 => .ok (.scW (rdOf w) (rs1Of w) (rs2Of w))
  | 2#3, 0x01#5 => .ok (.amoswapW (rdOf w) (rs1Of w) (rs2Of w))
  | 2#3, 0x00#5 => .ok (.amoaddW (rdOf w) (rs1Of w) (rs2Of w))
  | 2#3, 0x04#5 => .ok (.amoxorW (rdOf w) (rs1Of w) (rs2Of w))
  | 2#3, 0x0C#5 => .ok (.amoandW (rdOf w) (rs1Of w) (rs2Of w))
  | 2#3, 0x08#5 => .ok (.amoorW (rdOf w) (rs1Of w) (rs2Of w))
  | 2#3, 0x10#5 => .ok (.amominW (rdOf w) (rs1Of w) (rs2Of w))
  | 2#3, 0x14#5 => .ok (.amomaxW (rdOf w) (rs1Of w) (rs2Of w))
  | 2#3, 0x18#5 => .ok (.amominuW (rdOf w) (rs1Of w) (rs2Of w))
  | 2#3, 0x1C#5 => .ok (.amomaxuW (rdOf w) (rs1Of w) (rs2Of w))
  | _, _ => invalidFunct w

/-- The decoder (R67, R68): the opcode selects one of the twelve rows of the opcode map (R66); any other opcode is unknown
(R69). Word bit 7 is not tested (`90_conflicts.md` C1). -/
def decode (w : Word) : Except DecodeError Instr :=
  match opcodeOf w with
  | 0x03#7 => decodeLoad w
  | 0x0F#7 => decodeMiscMem w
  | 0x13#7 => decodeOpImm w
  | 0x17#7 => .ok (.auipc (rdOf w) (immU w))
  | 0x23#7 => decodeStore w
  | 0x2F#7 => decodeAmo w
  | 0x33#7 => decodeOp w
  | 0x37#7 => .ok (.lui (rdOf w) (immU w))
  | 0x63#7 => decodeBranch w
  | 0x67#7 => decodeJalr w
  | 0x6F#7 => .ok (.jal (rdOf w) (immJ w))
  | 0x73#7 => decodeSystem w
  | opcode => .error (.invalidOpcode opcode)

/-- An instruction word from its four bytes, lowest address first: little-endian (`20_memory.md` R46). -/
def wordOfBytes (b0 b1 b2 b3 : Byte) : Word := b3 ++ b2 ++ b1 ++ b0

/-- The bytes of a word, lowest address first (`20_memory.md` R46). -/
def bytesOfWord (w : Word) : List Byte :=
  [w.extractLsb' 0 8, w.extractLsb' 8 8, w.extractLsb' 16 8, w.extractLsb' 24 8]

/-- Decoding from stored bytes: every instruction is four bytes (R60); the rest of the list is handed back. Fewer than four
bytes hold no instruction. -/
def decodeBytes : List Byte → Option (Except DecodeError Instr × List Byte)
  | b0 :: b1 :: b2 :: b3 :: rest => some (decode (wordOfBytes b0 b1 b2 b3), rest)
  | _ => none

/-- The low `nbits` bits of `w` as a 32-bit instruction word, the bits above them 0 (R60: every instruction is one word). -/
def tableWord (nbits w : Nat) : Word := BitVec.ofNat 32 (w % 2 ^ nbits)

/-- The instruction this decoder reads from an opcode-table word: the word's bytes as they are stored, decoded. No
instruction is longer than 32 bits (R60). -/
def decodeTableWord (nbits w : Nat) : Option Instr :=
  if 32 < nbits then none
  else
    match decodeBytes (bytesOfWord (tableWord nbits w)) with
    | some (.ok i, _) => some i
    | _ => none

/-! The encoder: the formats of R62, and the selectors of R66 and R72 to R82. -/

/-- R-type (R62). -/
def encodeR (opcode : BitVec 7) (funct3 : BitVec 3) (funct7 : BitVec 7) (rd rs1 rs2 : Reg) : Word :=
  funct7 ++ rs2 ++ rs1 ++ funct3 ++ rd ++ opcode
/-- I-type (R62). -/
def encodeI (opcode : BitVec 7) (funct3 : BitVec 3) (rd rs1 : Reg) (imm : Word) : Word :=
  imm.extractLsb' 0 12 ++ rs1 ++ funct3 ++ rd ++ opcode
/-- S-type (R62). -/
def encodeS (opcode : BitVec 7) (funct3 : BitVec 3) (rs1 rs2 : Reg) (imm : Word) : Word :=
  imm.extractLsb' 5 7 ++ rs2 ++ rs1 ++ funct3 ++ imm.extractLsb' 0 5 ++ opcode
/-- B-type (R62). -/
def encodeB (opcode : BitVec 7) (funct3 : BitVec 3) (rs1 rs2 : Reg) (imm : Word) : Word :=
  imm.extractLsb' 12 1 ++ imm.extractLsb' 5 6 ++ rs2 ++ rs1 ++ funct3 ++ imm.extractLsb' 1 4 ++ imm.extractLsb' 11 1
    ++ opcode
/-- U-type (R62). -/
def encodeU (opcode : BitVec 7) (rd : Reg) (imm : Word) : Word := imm.extractLsb' 12 20 ++ rd ++ opcode
/-- J-type (R62). -/
def encodeJ (opcode : BitVec 7) (rd : Reg) (imm : Word) : Word :=
  imm.extractLsb' 20 1 ++ imm.extractLsb' 1 10 ++ imm.extractLsb' 11 1 ++ imm.extractLsb' 12 8 ++ rd ++ opcode

/-- The word of an instruction (R62, R66, R72 to R82). The bits that are neither tested nor carried, `aq` and `rl` of an AMO
word, are 0. -/
def encode : Instr → Word
  | .lui rd imm => encodeU 0x37#7 rd imm
  | .auipc rd imm => encodeU 0x17#7 rd imm
  | .jal rd imm => encodeJ 0x6F#7 rd imm
  | .jalr rd rs1 imm => encodeI 0x67#7 0#3 rd rs1 imm
  | .beq rs1 rs2 imm => encodeB 0x63#7 0#3 rs1 rs2 imm
  | .bne rs1 rs2 imm => encodeB 0x63#7 1#3 rs1 rs2 imm
  | .blt rs1 rs2 imm => encodeB 0x63#7 4#3 rs1 rs2 imm
  | .bge rs1 rs2 imm => encodeB 0x63#7 5#3 rs1 rs2 imm
  | .bltu rs1 rs2 imm => encodeB 0x63#7 6#3 rs1 rs2 imm
  | .bgeu rs1 rs2 imm => encodeB 0x63#7 7#3 rs1 rs2 imm
  | .lb rd rs1 imm => encodeI 0x03#7 0#3 rd rs1 imm
  | .lh rd rs1 imm => encodeI 0x03#7 1#3 rd rs1 imm
  | .lw rd rs1 imm => encodeI 0x03#7 2#3 rd rs1 imm
  | .lbu rd rs1 imm => encodeI 0x03#7 4#3 rd rs1 imm
  | .lhu rd rs1 imm => encodeI 0x03#7 5#3 rd rs1 imm
  | .sb rs1 rs2 imm => encodeS 0x23#7 0#3 rs1 rs2 imm
  | .sh rs1 rs2 imm => encodeS 0x23#7 1#3 rs1 rs2 imm
  | .sw rs1 rs2 imm => encodeS 0x23#7 2#3 rs1 rs2 imm
  | .addi rd rs1 imm => encodeI 0x13#7 0#3 rd rs1 imm
  | .slti rd rs1 imm => encodeI 0x13#7 2#3 rd rs1 imm
  | .sltiu rd rs1 imm => encodeI 0x13#7 3#3 rd rs1 imm
  | .xori rd rs1 imm => encodeI 0x13#7 4#3 rd rs1 imm
  | .ori rd rs1 imm => encodeI 0x13#7 6#3 rd rs1 imm
  | .andi rd rs1 imm => encodeI 0x13#7 7#3 rd rs1 imm
  | .slli rd rs1 imm => encodeI 0x13#7 1#3 rd rs1 imm
  | .srli rd rs1 imm => encodeI 0x13#7 5#3 rd rs1 imm
  | .srai rd rs1 imm => encodeI 0x13#7 5#3 rd rs1 imm
  | .add rd rs1 rs2 => encodeR 0x33#7 0#3 0x00#7 rd rs1 rs2
  | .sub rd rs1 rs2 => encodeR 0x33#7 0#3 0x20#7 rd rs1 rs2
  | .sll rd rs1 rs2 => encodeR 0x33#7 1#3 0x00#7 rd rs1 rs2
  | .slt rd rs1 rs2 => encodeR 0x33#7 2#3 0x00#7 rd rs1 rs2
  | .sltu rd rs1 rs2 => encodeR 0x33#7 3#3 0x00#7 rd rs1 rs2
  | .xor rd rs1 rs2 => encodeR 0x33#7 4#3 0x00#7 rd rs1 rs2
  | .srl rd rs1 rs2 => encodeR 0x33#7 5#3 0x00#7 rd rs1 rs2
  | .sra rd rs1 rs2 => encodeR 0x33#7 5#3 0x20#7 rd rs1 rs2
  | .or rd rs1 rs2 => encodeR 0x33#7 6#3 0x00#7 rd rs1 rs2
  | .and rd rs1 rs2 => encodeR 0x33#7 7#3 0x00#7 rd rs1 rs2
  | .fence rd rs1 imm => encodeI 0x0F#7 0#3 rd rs1 imm
  | .ecall rd rs1 imm => encodeI 0x73#7 0#3 rd rs1 imm
  | .ebreak rd rs1 imm => encodeI 0x73#7 0#3 rd rs1 imm
  | .mul rd rs1 rs2 => encodeR 0x33#7 0#3 0x01#7 rd rs1 rs2
  | .mulh rd rs1 rs2 => encodeR 0x33#7 1#3 0x01#7 rd rs1 rs2
  | .mulhsu rd rs1 rs2 => encodeR 0x33#7 2#3 0x01#7 rd rs1 rs2
  | .mulhu rd rs1 rs2 => encodeR 0x33#7 3#3 0x01#7 rd rs1 rs2
  | .div rd rs1 rs2 => encodeR 0x33#7 4#3 0x01#7 rd rs1 rs2
  | .divu rd rs1 rs2 => encodeR 0x33#7 5#3 0x01#7 rd rs1 rs2
  | .rem rd rs1 rs2 => encodeR 0x33#7 6#3 0x01#7 rd rs1 rs2
  | .remu rd rs1 rs2 => encodeR 0x33#7 7#3 0x01#7 rd rs1 rs2
  | .lrW rd rs1 rs2 => encodeR 0x2F#7 2#3 0x08#7 rd rs1 rs2
  | .scW rd rs1 rs2 => encodeR 0x2F#7 2#3 0x0C#7 rd rs1 rs2
  | .amoswapW rd rs1 rs2 => encodeR 0x2F#7 2#3 0x04#7 rd rs1 rs2
  | .amoaddW rd rs1 rs2 => encodeR 0x2F#7 2#3 0x00#7 rd rs1 rs2
  | .amoxorW rd rs1 rs2 => encodeR 0x2F#7 2#3 0x10#7 rd rs1 rs2
  | .amoandW rd rs1 rs2 => encodeR 0x2F#7 2#3 0x30#7 rd rs1 rs2
  | .amoorW rd rs1 rs2 => encodeR 0x2F#7 2#3 0x20#7 rd rs1 rs2
  | .amominW rd rs1 rs2 => encodeR 0x2F#7 2#3 0x40#7 rd rs1 rs2
  | .amomaxW rd rs1 rs2 => encodeR 0x2F#7 2#3 0x50#7 rd rs1 rs2
  | .amominuW rd rs1 rs2 => encodeR 0x2F#7 2#3 0x60#7 rd rs1 rs2
  | .amomaxuW rd rs1 rs2 => encodeR 0x2F#7 2#3 0x70#7 rd rs1 rs2

end Sys2Proof
end

