-- ==== Sys2Proof/Machine/State.lean ====
section
/-! DEFINITION. Every piece of state the spec gives the core (`10_state.md`, `20_memory.md`, `70_reset_and_hazards.md`), as
plain data; the errors of `60_exceptions.md` R173; the reasons a step or a launch can stop; the state at engine start. -/

namespace Sys2Proof.Machine

/-- The general registers x0 to x31 (R16, R17). They are read and written through `readReg` and `writeReg`, where x0 is
hard-wired (R18). -/
abbrev RegFile := Vector Word 32

/-- A memory: its listed bytes, addresses strictly rising, no entry equal to what an unlisted address reads as. -/
abbrev Memory := List Host.Cell

/-- The five pipeline stages (`40_pipeline.md` R91). -/
inductive Stage where
  | fetch | decode | execute | memAccess | writeback
deriving DecidableEq, Repr

/-- The errors of the core, E1 to E8 of R173, each with its payload. -/
inductive CoreError where
  /-- E1 and E2: the decoder's errors, raised by Decode; fatal (R175). -/
  | decode (e : DecodeError)
  /-- E3: a micro-op outside the implemented subset, raised by Execute; recoverable (R176). -/
  | unimplemented (uop : Uop)
  /-- E4: a taken control transfer to a target that is no multiple of 4, raised by Execute; fatal (R177). -/
  | misalignedTarget (target : Word)
  /-- E5: an address outside the memory, raised by MemAccess and Fetch; fatal (R178). -/
  | outOfBounds (addr : Word)
  /-- E6: an address not aligned to the access, raised by MemAccess; fatal (R178). -/
  | misaligned (addr : Word)
  /-- E7: the program image cannot be opened, raised by the loader before the first tick (R179). -/
  | unreadable (path : String)
  /-- E8: the host shut the engine down (`40_pipeline.md` R112). -/
  | shutdown
deriving DecidableEq, Repr

/-- The payload of an error (R173): the "offending value" of the halt record (R181). -/
inductive Payload where
  | opcode (opcode : BitVec 7)
  | funct (opcode : BitVec 7) (funct3 : BitVec 3) (funct7 : BitVec 7)
  | uop (uop : Uop)
  | word (value : Word)
  | path (path : String)
  | none
deriving DecidableEq, Repr

/-- The halt record (R32, R181). Its `value` is `error.value` (R173); a shutdown names no stage and no instruction
(`40_pipeline.md` R112). -/
structure HaltRecord where
  error : CoreError
  stage : Option Stage
  tick : Nat
  pc : Option Word
deriving DecidableEq, Repr

/-- The diagnostic of a recoverable Unimplemented: {Unimplemented, uop, pc, tick} (R176, R181). -/
structure Diagnostic where
  uop : Uop
  pc : Word
  tick : Nat
deriving DecidableEq, Repr

/-- The payload of latch FD (R30). -/
structure FDLatch where
  pc : Word
  word : Word
deriving DecidableEq, Repr

/-- The payload of latch DE (R30): the fetch address and the DecodedInstruction of `30_encoding.md` R70. -/
structure DELatch where
  pc : Word
  dec : Instr
deriving DecidableEq, Repr

/-- The payload of latch EM (R30). -/
structure EMLatch where
  pc : Word
  uop : Uop
  rd : Reg
  result : Word
  flags : Flags
  addr : Word
  storeData : Word
  noop : Bool
deriving DecidableEq, Repr

/-- The payload of latch MW (R30). -/
structure MWLatch where
  pc : Word
  rd : Reg
  value : Word
  we : Bool
deriving DecidableEq, Repr

/-- The whole core between two ticks. -/
structure State where
  /-- x0 to x31 (R16 to R20). -/
  regs : RegFile
  /-- The address of the next instruction Fetch reads (R21, R22). -/
  pc : Word
  /-- Fetch to Decode (R30). -/
  fd : Option FDLatch
  /-- Decode to Execute (R30). -/
  de : Option DELatch
  /-- Execute to MemAccess (R30). -/
  em : Option EMLatch
  /-- MemAccess to Writeback (R30). -/
  mw : Option MWLatch
  /-- The halt record (R32). -/
  halted : Option HaltRecord
  /-- The tick counter (R33). -/
  tick : Nat
  /-- Instruction memory IMEM, as its bytes (`20_memory.md` R38, R43; log 4). -/
  imem : Memory
  /-- Data memory DMEM (`20_memory.md` R39). -/
  dmem : Memory
  /-- The sizes of the memories, fixed at launch (`00_scope.md` R8). -/
  params : Params
  /-- The event log of Unimplemented diagnostics, oldest first (R35, R176; log 8). -/
  diags : List Diagnostic
deriving DecidableEq, Repr

/-- Why the machine stops with a fault. There is no such reason: the spec gives the state after every tick, a fatal error's
halt included (`40_pipeline.md` R109, R111), so no instruction and no tick raises a fault (log 13). -/
inductive Fault where
deriving DecidableEq, Repr

/-- Why there is no next state. -/
inductive Refusal where
  /-- Raised by an arm of `exec` whose instruction has no meaning yet; no arm of this model raises it (safe). -/
  | notModelled (mnemonic : String)
  /-- Raised by `launch` for a program image that cannot be opened: "fatal at startup, before any tick is issued"
  (R179); there is no engine state (safe). -/
  | imageUnreadable (path : String)
  /-- Raised by `launch` for sizes outside the ranges of `00_scope.md` R8, which no core has (safe). -/
  | paramsOutOfRange (params : Params)
deriving DecidableEq, Repr

/-- The state at engine start (`70_reset_and_hazards.md` R192) with nothing loaded: PC = 0, empty latches, not halted,
tick 0. x1..x31 are 0, the sizes are `Config.resetParams` and both memories list nothing: DESIGN CHOICES, unsafe
(logs 1 to 4), since the spec fixes none of them. -/
def State.reset : State where
  regs := Vector.replicate 32 0#32
  pc := 0#32
  fd := none
  de := none
  em := none
  mw := none
  halted := none
  tick := 0
  imem := []
  dmem := []
  params := Config.resetParams
  diags := []

end Sys2Proof.Machine
end

