-- ==== Sys2Proof/Machine/Flags.lean ====
section
/-! DEFINITION. The flags of the ALU (`41_integer_computational.md` R115). No instruction reads them (`10_state.md` R27). -/

namespace Sys2Proof.Machine

/-- ADD's carry: "unsigned overflow (`a_u > UINT32_MAX - b`)" (R115). -/
def addCarry (a b : Word) : Bool := decide (a.toNat > 0xFFFFFFFF - b.toNat)

/-- ADD's overflow: the operands' signs are equal and differ from the result's (R115). -/
def addOverflow (a b r : Word) : Bool := a.msb == b.msb && r.msb != a.msb

/-- SUB's carry: "`a >= b` (unsigned, no borrow)" (R115). -/
def subCarry (a b : Word) : Bool := decide (a.toNat ≥ b.toNat)

/-- SUB's overflow: the operands' signs differ and the result's differs from `a`'s (R115). -/
def subOverflow (a b r : Word) : Bool := a.msb != b.msb && r.msb != a.msb

/-- C of an ALU operation: 0 for every operation but ADD and SUB (R115, D23). -/
def carryFlag (op : AluOp) (a b : Word) : Bool :=
  match op with
  | .add => addCarry a b
  | .sub => subCarry a b
  | .and | .or | .xor | .sll | .srl | .sra | .slt | .sltu => false

/-- V of an ALU operation with result `r`: 0 for every operation but ADD and SUB (R115, D23). -/
def overflowFlag (op : AluOp) (a b r : Word) : Bool :=
  match op with
  | .add => addOverflow a b r
  | .sub => subOverflow a b r
  | .and | .or | .xor | .sll | .srl | .sra | .slt | .sltu => false

/-- The flag set of an ALU operation with result `r` (R115). P is the OPEN parameter `ALU_PARITY` (log 5). -/
def aluFlags (op : AluOp) (a b r : Word) : Flags where
  z := r == 0
  n := r.msb
  c := carryFlag op a b
  v := overflowFlag op a b r
  p := Config.aluParity r

/-- Five flags at 0, as an Unimplemented instruction carries them (`40_pipeline.md` R103). -/
def zeroFlags : Flags where
  z := false
  n := false
  c := false
  v := false
  p := false

end Sys2Proof.Machine
end

