-- ==== Sys2Proof/Machine/Operands.lean ====
section
/-! DEFINITION. What the instruction rules do with their operands: the classes of the micro-ops (R71, R104), the registers
an instruction reads, the ALU's results (R114), effective addresses and targets (R153, R145 to R152), branch conditions
(R144), load extension (R154). -/

namespace Sys2Proof.Machine

/-- The micro-ops outside the implemented subset: ECALL, EBREAK, RV32M and RV32A (R71, `41_integer_computational.md`
R116). -/
def unimplemented : Uop → Bool
  | .ecall | .ebreak | .mul | .mulh | .mulhsu | .mulhu | .div | .divu | .rem | .remu | .lrW | .scW
  | .amoswapW | .amoaddW | .amoxorW | .amoandW | .amoorW | .amominW | .amomaxW | .amominuW | .amomaxuW => true
  | .lui | .auipc | .jal | .jalr | .beq | .bne | .blt | .bge | .bltu | .bgeu | .lb | .lh | .lw | .lbu
  | .lhu | .sb | .sh | .sw | .addi | .slti | .sltiu | .xori | .ori | .andi | .slli | .srli | .srai
  | .add | .sub | .sll | .slt | .sltu | .xor | .srl | .sra | .or | .and | .fence => false

/-- What MemAccess does for each micro-op (`40_pipeline.md` R104; widths and extensions `43_load_store.md` R154, R155). -/
def access : Uop → Access
  | .lb => .load .byte true
  | .lh => .load .half true
  | .lw => .load .word true
  | .lbu => .load .byte false
  | .lhu => .load .half false
  | .sb => .store .byte
  | .sh => .store .half
  | .sw => .store .word
  | .lui | .auipc | .jal | .jalr | .beq | .bne | .blt | .bge | .bltu | .bgeu | .addi | .slti | .sltiu
  | .xori | .ori | .andi | .slli | .srli | .srai | .add | .sub | .sll | .slt | .sltu | .xor | .srl
  | .sra | .or | .and | .fence | .ecall | .ebreak | .mul | .mulh | .mulhsu | .mulhu | .div | .divu
  | .rem | .remu | .lrW | .scW | .amoswapW | .amoaddW | .amoxorW | .amoandW | .amoorW | .amominW
  | .amomaxW | .amominuW | .amomaxuW => .none

/-- `writes_rd` of `40_pipeline.md` R104: true for the computational micro-ops, LUI, AUIPC, JAL, JALR and the loads. -/
def writesRd : Uop → Bool
  | .lui | .auipc | .jal | .jalr | .lb | .lh | .lw | .lbu | .lhu | .addi | .slti | .sltiu | .xori | .ori
  | .andi | .slli | .srli | .srai | .add | .sub | .sll | .slt | .sltu | .xor | .srl | .sra | .or | .and => true
  | .beq | .bne | .blt | .bge | .bltu | .bgeu | .sb | .sh | .sw | .fence | .ecall | .ebreak | .mul
  | .mulh | .mulhsu | .mulhu | .div | .divu | .rem | .remu | .lrW | .scW | .amoswapW | .amoaddW
  | .amoxorW | .amoandW | .amoorW | .amominW | .amomaxW | .amominuW | .amomaxuW => false

/-- The registers that an instruction's rule names as read (`10_state.md` R20): LUI, AUIPC, JAL, FENCE and the
Unimplemented micro-ops read none. -/
def sources : Instr → List Reg
  | .lui .. | .auipc .. | .jal .. | .fence .. | .ecall .. | .ebreak .. => []
  | .mul .. | .mulh .. | .mulhsu .. | .mulhu .. | .div .. | .divu .. | .rem .. | .remu .. => []
  | .lrW .. | .scW .. | .amoswapW .. | .amoaddW .. | .amoxorW .. | .amoandW .. | .amoorW .. => []
  | .amominW .. | .amomaxW .. | .amominuW .. | .amomaxuW .. => []
  | .jalr _ rs1 _ | .lb _ rs1 _ | .lh _ rs1 _ | .lw _ rs1 _ | .lbu _ rs1 _ | .lhu _ rs1 _ => [rs1]
  | .addi _ rs1 _ | .slti _ rs1 _ | .sltiu _ rs1 _ | .xori _ rs1 _ | .ori _ rs1 _ | .andi _ rs1 _ => [rs1]
  | .slli _ rs1 _ | .srli _ rs1 _ | .srai _ rs1 _ => [rs1]
  | .beq rs1 rs2 _ | .bne rs1 rs2 _ | .blt rs1 rs2 _ | .bge rs1 rs2 _ | .bltu rs1 rs2 _ | .bgeu rs1 rs2 _ => [rs1, rs2]
  | .sb rs1 rs2 _ | .sh rs1 rs2 _ | .sw rs1 rs2 _ => [rs1, rs2]
  | .add _ rs1 rs2 | .sub _ rs1 rs2 | .sll _ rs1 rs2 | .slt _ rs1 rs2 | .sltu _ rs1 rs2 => [rs1, rs2]
  | .xor _ rs1 rs2 | .srl _ rs1 rs2 | .sra _ rs1 rs2 | .or _ rs1 rs2 | .and _ rs1 rs2 => [rs1, rs2]

/-- A shift uses only `b[4:0]` (R114). -/
def shiftAmount (b : Word) : Nat := (b.extractLsb' 0 5).toNat

/-- A comparison's result: 1 or 0 (R114). -/
def boolWord (c : Bool) : Word := if c then 1#32 else 0#32

/-- `signed(a) < signed(b)` (R9, R114). -/
def signedLt (a b : Word) : Bool := decide (a.toInt < b.toInt)

/-- `unsigned(a) < unsigned(b)` (R9, R114). -/
def unsignedLt (a b : Word) : Bool := decide (a.toNat < b.toNat)

/-- The result of an ALU operation (R114). -/
def aluResult (op : AluOp) (a b : Word) : Word :=
  match op with
  | .add => a + b
  | .sub => a - b
  | .and => a &&& b
  | .or => a ||| b
  | .xor => a ^^^ b
  | .sll => a <<< shiftAmount b
  | .srl => a >>> shiftAmount b
  | .sra => a.sshiftRight (shiftAmount b)
  | .slt => boolWord (signedLt a b)
  | .sltu => boolWord (unsignedLt a b)

/-- The effective address of a load or store: `x[rs1] + imm` modulo 2^32 (R153). -/
def effectiveAddress (base imm : Word) : Word := base + imm

/-- The target of JAL and of a branch: `PC_i + imm` modulo 2^32 (R141, R145, R147). -/
def relativeTarget (pc imm : Word) : Word := pc + imm

/-- The target of JALR: `(x[rs1] + imm_I) & 0xFFFFFFFE` (R146). -/
def jalrTarget (base imm : Word) : Word := (base + imm) &&& 0xFFFFFFFE#32

/-- The link value `PC_i + 4` modulo 2^32 (R142). -/
def linkValue (pc : Word) : Word := pc + 4#32

/-- `a[1:0] = 0`. -/
def wordAligned (a : Word) : Bool := a.extractLsb' 0 2 == 0#2

/-- The branch conditions, the "taken when" column of R144. -/
def condEq (a b : Word) : Bool := a == b
/-- BNE (R144). -/
def condNe (a b : Word) : Bool := a != b
/-- BLT (R144). -/
def condLt (a b : Word) : Bool := decide (a.toInt < b.toInt)
/-- BGE (R144). -/
def condGe (a b : Word) : Bool := decide (a.toInt ≥ b.toInt)
/-- BLTU (R144). -/
def condLtu (a b : Word) : Bool := decide (a.toNat < b.toNat)
/-- BGEU (R144). -/
def condGeu (a b : Word) : Bool := decide (a.toNat ≥ b.toNat)

/-- The bytes of an access (`20_memory.md` R50). -/
def widthBytes : Width → Nat
  | .byte => 1
  | .half => 2
  | .word => 4

/-- The extension of a loaded value to 32 bits (R154): `sext_8`, `sext_16`, `zext_8`, `zext_16`, or the word itself. -/
def extendLoad (w : Width) (signed : Bool) (v : Word) : Word :=
  match w, signed with
  | .byte, true => (v.extractLsb' 0 8).signExtend 32
  | .byte, false => (v.extractLsb' 0 8).zeroExtend 32
  | .half, true => (v.extractLsb' 0 16).signExtend 32
  | .half, false => (v.extractLsb' 0 16).zeroExtend 32
  | .word, _ => v

end Sys2Proof.Machine
end

