-- ==== Sys2Proof/Machine/Ops.lean ====
section
/-! DEFINITION. The named operations of the core: registers (R18), memories (`20_memory.md` R41 to R48), the five stages
(`40_pipeline.md` R101 to R106), the tick (R107), taking a fatal error (R109), and the shapes the instruction rules of files
41 to 45 share at Execute. -/

namespace Sys2Proof.Machine

/-! ## Registers -/

/-- Reading a general register; x0 reads as 0 (R18). -/
def readReg (f : RegFile) (r : Reg) : Word := if r = 0#5 then 0#32 else f[r.toNat]'(r.isLt)

/-- Writing a general register; a write to x0 is dropped (R18). -/
def writeReg (f : RegFile) (r : Reg) (v : Word) : RegFile := if r = 0#5 then f else f.set r.toNat v r.isLt

/-- `x[r]`, read from the tick's snapshot (`00_scope.md` R11, `40_pipeline.md` R92). -/
def State.x (s : State) (r : Reg) : Word := readReg s.regs r

/-! ## Memories -/

/-- What an unlisted byte reads as. DESIGN CHOICE (unsafe, logs 3 and 4): the spec fixes neither `dmem_init` nor
`imem_fill`. -/
def Memory.unlisted : Byte := 0#8

/-- One byte of a memory. -/
def Memory.read : Memory → Nat → Byte
  | [], _ => Memory.unlisted
  | (k, v) :: m, a => if k = a then v else Memory.read m a

/-- Writing one byte, keeping the canonical form: writing what an unlisted address reads as removes the entry. -/
def Memory.write : Memory → Nat → Byte → Memory
  | [], a, b => if b = Memory.unlisted then [] else [(a, b)]
  | (k, v) :: m, a, b =>
    if a < k then (if b = Memory.unlisted then (k, v) :: m else (a, b) :: (k, v) :: m)
    else if a = k then (if b = Memory.unlisted then m else (a, b) :: m)
    else (k, v) :: Memory.write m a b

/-- The canonical form from address `low` on: addresses strictly rising, no entry equal to the unlisted value. -/
def Memory.wfFrom : Nat → Memory → Bool
  | _, [] => true
  | low, (k, v) :: m => decide (low ≤ k) && decide (v ≠ Memory.unlisted) && Memory.wfFrom (k + 1) m

/-- The canonical form of a memory. -/
def Memory.wf (m : Memory) : Bool := Memory.wfFrom 0 m

/-- Every listed address lies below `limit`: outside a memory nothing exists (`20_memory.md` R38, R39). -/
def Memory.below (limit : Nat) (m : Memory) : Bool := m.all fun c => decide (c.1 < limit)

/-- The bytes of an n-byte read, assembled little-endian, zero-extended to 32 bits (R44, R46). -/
def readLE (m : Memory) : Nat → Nat → Word
  | _, 0 => 0#32
  | a, n + 1 => (m.read a).zeroExtend 32 ||| (readLE m (a + 1) n <<< 8)

/-- The low n bytes of a word, lowest address first (R45, R46). -/
def leBytes : Nat → Word → List Byte
  | 0, _ => []
  | n + 1, v => v.extractLsb' 0 8 :: leBytes n (v >>> 8)

/-- Writing consecutive bytes from an address on. -/
def storeBytes : Memory → Nat → List Byte → Memory
  | m, _, [] => m
  | m, a, b :: bs => storeBytes (m.write a b) (a + 1) bs

/-- Writing the low n bytes of a word at an address, little-endian (R45). -/
def writeLE (m : Memory) (a n : Nat) (v : Word) : Memory := storeBytes m a (leBytes n v)

/-- `check_align` and then `check_bounds` of a data access (R47, R48); the sum does not wrap. -/
def checkAccess (p : Params) (addr : Word) (w : Width) : Option CoreError :=
  if addr.toNat % widthBytes w ≠ 0 then some (.misaligned addr)
  else if p.dmemBytes < addr.toNat + widthBytes w then some (.outOfBounds addr)
  else none

/-- `IMemRead(a)` (R41): IMEM word `a[31:2]`, from its four bytes, little-endian (R43, R46). -/
def iMemRead (s : State) (a : Word) : Except CoreError Word :=
  if !wordAligned a then .error (.misaligned a)
  else if s.params.imemWords ≤ (a >>> 2).toNat then .error (.outOfBounds a)
  else .ok (readLE s.imem (4 * (a >>> 2).toNat) 4)

/-! ## Errors inside a tick -/

/-- A fatal error that a stage raises in a tick, with the fetch address of the stage's instruction (`40_pipeline.md`
R107, R109). -/
structure Fatal where
  error : CoreError
  stage : Stage
  pc : Word
deriving DecidableEq, Repr

/-- The code of an error, in the order of `60_exceptions.md` R173. -/
def CoreError.code : CoreError → Nat
  | .decode (.invalidOpcode _) => 1
  | .decode (.invalidFunct ..) => 2
  | .unimplemented _ => 3
  | .misalignedTarget _ => 4
  | .outOfBounds _ => 5
  | .misaligned _ => 6
  | .unreadable _ => 7
  | .shutdown => 8

/-- The payload of an error (R173), which is the `value` of the halt record (R181). -/
def CoreError.value : CoreError → Payload
  | .decode (.invalidOpcode c) => .opcode c
  | .decode (.invalidFunct c f3 f7) => .funct c f3 f7
  | .unimplemented u => .uop u
  | .misalignedTarget t => .word t
  | .outOfBounds a => .word a
  | .misaligned a => .word a
  | .unreadable path => .path path
  | .shutdown => .none

/-! ## The stages -/

/-- `wb_this_tick` (R105): the register write of the MW payload, if it makes one. -/
def wbThisTick : Option MWLatch → Option (Reg × Word)
  | none => none
  | some m => if m.we && m.rd != 0#5 then some (m.rd, m.value) else none

/-- Committing a register write (R93, R107). -/
def commitReg (f : RegFile) : Option (Reg × Word) → RegFile
  | none => f
  | some (r, v) => writeReg f r v

/-- Writeback's commit: the register file after the write of the MW payload (R105, R107). -/
def writeBack (f : RegFile) (mw : Option MWLatch) : RegFile := commitReg f (wbThisTick mw)

/-- The data access of the EM payload: its address and what it does (R104). -/
def pendingAccess (s : State) : Option (EMLatch × Access) :=
  match s.em with
  | none => none
  | some e => some (e, access e.uop)

/-- The fatal error of MemAccess in this tick (R104, R178). -/
def memFault (s : State) : Option Fatal :=
  match pendingAccess s with
  | some (e, .load w _) => (checkAccess s.params e.addr w).map fun err => ⟨err, .memAccess, e.pc⟩
  | some (e, .store w) => (checkAccess s.params e.addr w).map fun err => ⟨err, .memAccess, e.pc⟩
  | some (_, .none) => none
  | none => none

/-- `mw_next` (R104): what MemAccess forwards; nothing when its access faults. Loads read DMEM as of the end of the previous
tick (`20_memory.md` R54). -/
def mwNext (s : State) : Option MWLatch :=
  match memFault s with
  | some _ => none
  | none =>
    match pendingAccess s with
    | none => none
    | some (e, .load w signed) =>
      some { pc := e.pc, rd := e.rd, value := extendLoad w signed (readLE s.dmem e.addr.toNat (widthBytes w)), we := true }
    | some (e, .store _) => some { pc := e.pc, rd := 0#5, value := 0#32, we := false }
    | some (e, .none) => some { pc := e.pc, rd := e.rd, value := e.result, we := writesRd e.uop && !e.noop }

/-- `store_this_tick` (R104): address, number of bytes and data of the store that MemAccess commits; none when its check
fails, so a faulting store writes no byte (`20_memory.md` R45). -/
def storeThisTick (s : State) : Option (Nat × Nat × Word) :=
  match memFault s with
  | some _ => none
  | none =>
    match pendingAccess s with
    | some (e, .store w) => some (e.addr.toNat, widthBytes w, e.storeData)
    | some (_, .load ..) => none
    | some (_, .none) => none
    | none => none

/-- MemAccess's commit: DMEM after the store of this tick (R93, R107). -/
def commitStore (s : State) : Memory :=
  match storeThisTick s with
  | none => s.dmem
  | some (a, n, v) => writeLE s.dmem a n v

/-- What Execute hands on in a tick: nothing (a bubble), a payload for EM with a redirect and a diagnostic, or a fatal
error (R103, R106). -/
inductive ExOutput where
  | idle
  | done (latch : EMLatch) (redirect : Option Word) (diag : Option Uop)
  | raised (error : CoreError)
deriving DecidableEq, Repr

/-- `PC_i`: the fetch address that the instruction in Execute carries (R100, R103). DESIGN CHOICE (safe, log 9): with an
empty DE, where no instruction is in Execute and `step` calls no meaning, the value of PC. -/
def executePc (s : State) : Word :=
  match s.de with
  | some d => d.pc
  | none => s.pc

/-- `em_next` (R103). -/
def emNext : ExOutput → Option EMLatch
  | .idle => none
  | .done latch _ _ => some latch
  | .raised _ => none

/-- `redirect_this_tick` (R103, R106). -/
def redirectThisTick : ExOutput → Option Word
  | .idle => none
  | .done _ redirect _ => redirect
  | .raised _ => none

/-- The fatal error of Execute in this tick (R140, R177). -/
def exFault (s : State) : ExOutput → Option Fatal
  | .idle => none
  | .done .. => none
  | .raised err => some ⟨err, .execute, executePc s⟩

/-- The diagnostic that Execute records in this tick: {Unimplemented, uop, pc, tick} (R103; `60_exceptions.md` R176,
R181). -/
def newDiags (s : State) : ExOutput → List Diagnostic
  | .idle => []
  | .done _ _ none => []
  | .done latch _ (some u) => [{ uop := u, pc := latch.pc, tick := s.tick + 1 }]
  | .raised _ => []

/-- The fatal error of Decode in this tick (R102, R175). -/
def decodeFault (s : State) : Option Fatal :=
  match s.fd with
  | none => none
  | some f =>
    match decode f.word with
    | .ok _ => none
    | .error e => some ⟨.decode e, .decode, f.pc⟩

/-- `de_next` (R102). -/
def deNext (s : State) : Option DELatch :=
  match s.fd with
  | none => none
  | some f =>
    match decode f.word with
    | .ok i => some { pc := f.pc, dec := i }
    | .error _ => none

/-- The fatal error of Fetch in this tick (R101, R178); its pc is the PC whose fetch failed (DEDUCED, safe, log 16). -/
def fetchFault (s : State) : Option Fatal :=
  match iMemRead s s.pc with
  | .ok _ => none
  | .error err => some ⟨err, .fetch, s.pc⟩

/-- `fd_next` (R101): Fetch reads at PC of the snapshot, redirect or not. -/
def fdNext (s : State) : Option FDLatch :=
  match iMemRead s s.pc with
  | .ok w => some { pc := s.pc, word := w }
  | .error _ => none

/-- `pc_next` (R101): the redirect's target if Execute sent one this tick, PC + 4 modulo 2^32 otherwise. -/
def pcNext (s : State) (ex : ExOutput) : Word :=
  match redirectThisTick ex with
  | some target => target
  | none => s.pc + 4#32

/-! ## The tick -/

/-- `s*` of R109 with its error: the oldest stage that raised a fatal error, in the order MemAccess, Execute, Decode, Fetch
(`60_exceptions.md` R180). -/
def oldestFault (s : State) (ex : ExOutput) : Option Fatal :=
  (memFault s).or ((exFault s ex).or ((decodeFault s).or (fetchFault s)))

/-- The commit phase of a tick without a fatal error (R93, R107, R108). -/
def commit (s : State) (ex : ExOutput) : State :=
  { s with
    regs := writeBack s.regs s.mw
    dmem := commitStore s
    fd := fdNext s
    de := deNext s
    em := emNext ex
    mw := mwNext s
    pc := pcNext s ex
    tick := s.tick + 1
    diags := s.diags ++ newDiags s ex }

/-- The diagnostics after a tick that ends fatal: whether an Unimplemented of that tick is recorded is open (R180); free
value (log 7). -/
def fatalDiags (s : State) (ex : ExOutput) : List Diagnostic :=
  match newDiags s ex with
  | [] => s.diags
  | d :: ds => if Config.diagKeptInFatalTick (s.tick + 1) then s.diags ++ d :: ds else s.diags

/-- Taking a fatal error: `FatalCommit` (R109). Writeback's write commits; MemAccess's store commits when the faulting stage
is a younger one (`commitStore` makes no store when MemAccess itself faults); the latches are emptied, PC is unchanged,
the tick counts and the halt record is set. There is no return beside it (`60_exceptions.md` R183). -/
def fatalCommit (s : State) (ex : ExOutput) (f : Fatal) : State :=
  { s with
    regs := writeBack s.regs s.mw
    dmem := commitStore s
    fd := none
    de := none
    em := none
    mw := none
    tick := s.tick + 1
    halted := some { error := f.error, stage := some f.stage, tick := s.tick + 1, pc := some f.pc }
    diags := fatalDiags s ex }

/-- One tick of the core, given what Execute does in it (R107): nothing once halted (R111), the commit phase, or
FatalCommit. -/
def tickWith (ex : ExOutput) (s : State) : State :=
  match s.halted with
  | some _ => s
  | none =>
    match oldestFault s ex with
    | none => commit s ex
    | some f => fatalCommit s ex f

/-- A tick in which an instruction is in Execute: always a next state (R107, log 13). -/
def runTick (ex : ExOutput) (s : State) : Host.Outcome State Fault Refusal := .next (tickWith ex s)

/-- A tick in which Execute has no instruction and idles (R96). -/
def idleTick (s : State) : Host.Outcome State Fault Refusal := runTick .idle s

/-! ## The shapes of the instruction rules at Execute (files 41 to 45) -/

/-- The EM payload of the instruction in Execute with every field its rule does not compute left open (log 6): `rd` is 0 as
R103 gives it to S and B formats and R165 to FENCE. -/
def openLatch (u : Uop) (s : State) : EMLatch where
  pc := executePc s
  uop := u
  rd := 0#5
  result := Config.openResult s.tick
  flags := Config.openFlags s.tick
  addr := Config.openAddr s.tick
  storeData := Config.openStoreData s.tick
  noop := false

/-- A computational instruction (file 41): the ALU's result and flags go to EM. -/
def executeAlu (u : Uop) (op : AluOp) (rd : Reg) (a b : Word) (s : State) : Host.Outcome State Fault Refusal :=
  let r := aluResult op a b
  runTick (.done { openLatch u s with rd := rd, result := r, flags := aluFlags op a b r } none none) s

/-- A taken control transfer: the target check of R140, then the redirect of R106. -/
def transfer (latch : EMLatch) (target : Word) : ExOutput :=
  if wordAligned target then .done latch (some target) none else .raised (.misalignedTarget target)

/-- JAL and JALR (R145, R146): link `PC_i + 4` to rd, redirect to the target. -/
def executeJump (u : Uop) (rd : Reg) (target : Word) (s : State) : Host.Outcome State Fault Refusal :=
  runTick (transfer { openLatch u s with rd := rd, result := linkValue (executePc s) } target) s

/-- A conditional branch (R147 to R152): when taken, the target is checked and sent; when not, nothing is checked. -/
def executeBranch (u : Uop) (taken : Bool) (imm : Word) (s : State) : Host.Outcome State Fault Refusal :=
  if taken then runTick (transfer (openLatch u s) (relativeTarget (executePc s) imm)) s
  else runTick (.done (openLatch u s) none none) s

/-- A load at Execute (R154): its address and destination go to EM. -/
def executeLoad (u : Uop) (rd : Reg) (base imm : Word) (s : State) : Host.Outcome State Fault Refusal :=
  runTick (.done { openLatch u s with rd := rd, addr := effectiveAddress base imm } none none) s

/-- A store at Execute (R155): its address and data go to EM. -/
def executeStore (u : Uop) (base data imm : Word) (s : State) : Host.Outcome State Fault Refusal :=
  runTick (.done { openLatch u s with addr := effectiveAddress base imm, storeData := data } none none) s

/-- FENCE at Execute (R165): no register read, no address, no effect. -/
def executeFence (u : Uop) (s : State) : Host.Outcome State Fault Refusal :=
  runTick (.done (openLatch u s) none none) s

/-- The EM payload of an Unimplemented instruction, with the zeros of R103. -/
def noopLatch (u : Uop) (s : State) : EMLatch where
  pc := executePc s
  uop := u
  rd := 0#5
  result := 0#32
  flags := zeroFlags
  addr := 0#32
  storeData := 0#32
  noop := true

/-- An Unimplemented micro-op at Execute (R103, R110, R169): the recoverable error turns it into a no-op and records a
diagnostic. -/
def executeUnimplemented (u : Uop) (s : State) : Host.Outcome State Fault Refusal :=
  runTick (.done (noopLatch u s) none (some u)) s

end Sys2Proof.Machine
end

