-- ==== Sys2Proof/Machine/Atomic.lean ====
section
/-! DEFINITION. The RV32A instructions (`45_reserved_m_a.md` R172): decoded, not executed, each a recoverable no-op that touches
no memory and holds no reservation (R169, R172). -/

namespace Sys2Proof.Machine

/-- LR.W: Unimplemented, a recoverable no-op; no register is read (R172). -/
def execLrW (_rd _rs1 _rs2 : Reg) (s : State) : Host.Outcome State Fault Refusal :=
  executeUnimplemented .lrW s

/-- SC.W: Unimplemented, a recoverable no-op; no register is read (R172). -/
def execScW (_rd _rs1 _rs2 : Reg) (s : State) : Host.Outcome State Fault Refusal :=
  executeUnimplemented .scW s

/-- AMOSWAP.W: Unimplemented, a recoverable no-op; no register is read (R172). -/
def execAmoswapW (_rd _rs1 _rs2 : Reg) (s : State) : Host.Outcome State Fault Refusal :=
  executeUnimplemented .amoswapW s

/-- AMOADD.W: Unimplemented, a recoverable no-op; no register is read (R172). -/
def execAmoaddW (_rd _rs1 _rs2 : Reg) (s : State) : Host.Outcome State Fault Refusal :=
  executeUnimplemented .amoaddW s

/-- AMOXOR.W: Unimplemented, a recoverable no-op; no register is read (R172). -/
def execAmoxorW (_rd _rs1 _rs2 : Reg) (s : State) : Host.Outcome State Fault Refusal :=
  executeUnimplemented .amoxorW s

/-- AMOAND.W: Unimplemented, a recoverable no-op; no register is read (R172). -/
def execAmoandW (_rd _rs1 _rs2 : Reg) (s : State) : Host.Outcome State Fault Refusal :=
  executeUnimplemented .amoandW s

/-- AMOOR.W: Unimplemented, a recoverable no-op; no register is read (R172). -/
def execAmoorW (_rd _rs1 _rs2 : Reg) (s : State) : Host.Outcome State Fault Refusal :=
  executeUnimplemented .amoorW s

/-- AMOMIN.W: Unimplemented, a recoverable no-op; no register is read (R172). -/
def execAmominW (_rd _rs1 _rs2 : Reg) (s : State) : Host.Outcome State Fault Refusal :=
  executeUnimplemented .amominW s

/-- AMOMAX.W: Unimplemented, a recoverable no-op; no register is read (R172). -/
def execAmomaxW (_rd _rs1 _rs2 : Reg) (s : State) : Host.Outcome State Fault Refusal :=
  executeUnimplemented .amomaxW s

/-- AMOMINU.W: Unimplemented, a recoverable no-op; no register is read (R172). -/
def execAmominuW (_rd _rs1 _rs2 : Reg) (s : State) : Host.Outcome State Fault Refusal :=
  executeUnimplemented .amominuW s

/-- AMOMAXU.W: Unimplemented, a recoverable no-op; no register is read (R172). -/
def execAmomaxuW (_rd _rs1 _rs2 : Reg) (s : State) : Host.Outcome State Fault Refusal :=
  executeUnimplemented .amomaxuW s

end Sys2Proof.Machine
end

