-- ==== Sys2Proof/Machine/Control.lean ====
section
/-! DEFINITION. The control-transfer instructions (`42_control_transfer.md`). Sources are read from the snapshot, targets are
checked only when taken (R140), and the two shadow slots follow from the tick (R139). -/

namespace Sys2Proof.Machine

/-- JAL: redirect to `PC_i + imm_J`, link to rd (R145). -/
def execJal (rd : Reg) (imm : Word) (s : State) : Host.Outcome State Fault Refusal :=
  executeJump .jal rd (relativeTarget (executePc s) imm) s

/-- JALR: redirect to `(x[rs1] + imm_I) & 0xFFFFFFFE`, link to rd (R146). -/
def execJalr (rd rs1 : Reg) (imm : Word) (s : State) : Host.Outcome State Fault Refusal :=
  executeJump .jalr rd (jalrTarget (s.x rs1) imm) s

/-- BEQ (R147, condition R144). -/
def execBeq (rs1 rs2 : Reg) (imm : Word) (s : State) : Host.Outcome State Fault Refusal :=
  executeBranch .beq (condEq (s.x rs1) (s.x rs2)) imm s

/-- BNE (R148, condition R144). -/
def execBne (rs1 rs2 : Reg) (imm : Word) (s : State) : Host.Outcome State Fault Refusal :=
  executeBranch .bne (condNe (s.x rs1) (s.x rs2)) imm s

/-- BLT (R149, condition R144). -/
def execBlt (rs1 rs2 : Reg) (imm : Word) (s : State) : Host.Outcome State Fault Refusal :=
  executeBranch .blt (condLt (s.x rs1) (s.x rs2)) imm s

/-- BGE (R150, condition R144). -/
def execBge (rs1 rs2 : Reg) (imm : Word) (s : State) : Host.Outcome State Fault Refusal :=
  executeBranch .bge (condGe (s.x rs1) (s.x rs2)) imm s

/-- BLTU (R151, condition R144). -/
def execBltu (rs1 rs2 : Reg) (imm : Word) (s : State) : Host.Outcome State Fault Refusal :=
  executeBranch .bltu (condLtu (s.x rs1) (s.x rs2)) imm s

/-- BGEU (R152, condition R144). -/
def execBgeu (rs1 rs2 : Reg) (imm : Word) (s : State) : Host.Outcome State Fault Refusal :=
  executeBranch .bgeu (condGeu (s.x rs1) (s.x rs2)) imm s

end Sys2Proof.Machine
end

