-- ==== Sys2Proof/Machine/Integer.lean ====
section
/-! DEFINITION. The integer computational instructions (`41_integer_computational.md`): OP, OP-IMM, LUI and AUIPC. Each is an
ALU operation (R113 to R117). -/

namespace Sys2Proof.Machine

/-- LUI: `ALU(ADD, 0, imm_U)`; no register is read (R137). -/
def execLui (rd : Reg) (imm : Word) (s : State) : Host.Outcome State Fault Refusal :=
  executeAlu .lui .add rd 0#32 imm s

/-- AUIPC: `ALU(ADD, PC_i, imm_U)`; no register is read (R138). -/
def execAuipc (rd : Reg) (imm : Word) (s : State) : Host.Outcome State Fault Refusal :=
  executeAlu .auipc .add rd (executePc s) imm s

/-- ADDI: the ALU operation of ADD with the immediate as operand b (R128). -/
def execAddi (rd rs1 : Reg) (imm : Word) (s : State) : Host.Outcome State Fault Refusal :=
  executeAlu .addi .add rd (s.x rs1) imm s

/-- SLTI: the ALU operation of SLT with the immediate as operand b (R129). -/
def execSlti (rd rs1 : Reg) (imm : Word) (s : State) : Host.Outcome State Fault Refusal :=
  executeAlu .slti .slt rd (s.x rs1) imm s

/-- SLTIU: the ALU operation of SLTU with the immediate as operand b, the immediate sign-extended first and then compared unsigned (R130). -/
def execSltiu (rd rs1 : Reg) (imm : Word) (s : State) : Host.Outcome State Fault Refusal :=
  executeAlu .sltiu .sltu rd (s.x rs1) imm s

/-- XORI: the ALU operation of XOR with the immediate as operand b (R131). -/
def execXori (rd rs1 : Reg) (imm : Word) (s : State) : Host.Outcome State Fault Refusal :=
  executeAlu .xori .xor rd (s.x rs1) imm s

/-- ORI: the ALU operation of OR with the immediate as operand b (R132). -/
def execOri (rd rs1 : Reg) (imm : Word) (s : State) : Host.Outcome State Fault Refusal :=
  executeAlu .ori .or rd (s.x rs1) imm s

/-- ANDI: the ALU operation of AND with the immediate as operand b (R133). -/
def execAndi (rd rs1 : Reg) (imm : Word) (s : State) : Host.Outcome State Fault Refusal :=
  executeAlu .andi .and rd (s.x rs1) imm s

/-- SLLI: the ALU operation of SLL with the immediate as operand b, shift amount `imm[4:0]` (R134). -/
def execSlli (rd rs1 : Reg) (imm : Word) (s : State) : Host.Outcome State Fault Refusal :=
  executeAlu .slli .sll rd (s.x rs1) imm s

/-- SRLI: the ALU operation of SRL with the immediate as operand b, shift amount `imm[4:0]` (R135). -/
def execSrli (rd rs1 : Reg) (imm : Word) (s : State) : Host.Outcome State Fault Refusal :=
  executeAlu .srli .srl rd (s.x rs1) imm s

/-- SRAI: the ALU operation of SRA with the immediate as operand b, shift amount `imm[4:0]` (R136). -/
def execSrai (rd rs1 : Reg) (imm : Word) (s : State) : Host.Outcome State Fault Refusal :=
  executeAlu .srai .sra rd (s.x rs1) imm s

/-- ADD: `x[rd] <- x[rs1] + x[rs2]` (R118). -/
def execAdd (rd rs1 rs2 : Reg) (s : State) : Host.Outcome State Fault Refusal :=
  executeAlu .add .add rd (s.x rs1) (s.x rs2) s

/-- SUB: `x[rd] <- x[rs1] - x[rs2]` (R119). -/
def execSub (rd rs1 rs2 : Reg) (s : State) : Host.Outcome State Fault Refusal :=
  executeAlu .sub .sub rd (s.x rs1) (s.x rs2) s

/-- SLL: `x[rd] <- x[rs1] << x[rs2][4:0]` (R120). -/
def execSll (rd rs1 rs2 : Reg) (s : State) : Host.Outcome State Fault Refusal :=
  executeAlu .sll .sll rd (s.x rs1) (s.x rs2) s

/-- SLT: signed comparison (R121). -/
def execSlt (rd rs1 rs2 : Reg) (s : State) : Host.Outcome State Fault Refusal :=
  executeAlu .slt .slt rd (s.x rs1) (s.x rs2) s

/-- SLTU: unsigned comparison (R122). -/
def execSltu (rd rs1 rs2 : Reg) (s : State) : Host.Outcome State Fault Refusal :=
  executeAlu .sltu .sltu rd (s.x rs1) (s.x rs2) s

/-- XOR (R123). -/
def execXor (rd rs1 rs2 : Reg) (s : State) : Host.Outcome State Fault Refusal :=
  executeAlu .xor .xor rd (s.x rs1) (s.x rs2) s

/-- SRL: logical right shift by `x[rs2][4:0]` (R124). -/
def execSrl (rd rs1 rs2 : Reg) (s : State) : Host.Outcome State Fault Refusal :=
  executeAlu .srl .srl rd (s.x rs1) (s.x rs2) s

/-- SRA: arithmetic right shift by `x[rs2][4:0]` (R125). -/
def execSra (rd rs1 rs2 : Reg) (s : State) : Host.Outcome State Fault Refusal :=
  executeAlu .sra .sra rd (s.x rs1) (s.x rs2) s

/-- OR (R126). -/
def execOr (rd rs1 rs2 : Reg) (s : State) : Host.Outcome State Fault Refusal :=
  executeAlu .or .or rd (s.x rs1) (s.x rs2) s

/-- AND (R127). -/
def execAnd (rd rs1 rs2 : Reg) (s : State) : Host.Outcome State Fault Refusal :=
  executeAlu .and .and rd (s.x rs1) (s.x rs2) s

end Sys2Proof.Machine
end

