-- ==== Sys2Proof/Machine/LoadStore.lean ====
section
/-! DEFINITION. The load and store instructions (`43_load_store.md`): their work at Execute; the access is MemAccess's in the
next tick (R154, R155; `Ops.lean`, `memFault`, `mwNext`, `storeThisTick`). -/

namespace Sys2Proof.Machine

/-- LB: `em.addr <- x[rs1] + imm_I` (R157). -/
def execLb (rd rs1 : Reg) (imm : Word) (s : State) : Host.Outcome State Fault Refusal :=
  executeLoad .lb rd (s.x rs1) imm s

/-- LH: `em.addr <- x[rs1] + imm_I` (R158). -/
def execLh (rd rs1 : Reg) (imm : Word) (s : State) : Host.Outcome State Fault Refusal :=
  executeLoad .lh rd (s.x rs1) imm s

/-- LW: `em.addr <- x[rs1] + imm_I` (R159). -/
def execLw (rd rs1 : Reg) (imm : Word) (s : State) : Host.Outcome State Fault Refusal :=
  executeLoad .lw rd (s.x rs1) imm s

/-- LBU: `em.addr <- x[rs1] + imm_I` (R160). -/
def execLbu (rd rs1 : Reg) (imm : Word) (s : State) : Host.Outcome State Fault Refusal :=
  executeLoad .lbu rd (s.x rs1) imm s

/-- LHU: `em.addr <- x[rs1] + imm_I` (R161). -/
def execLhu (rd rs1 : Reg) (imm : Word) (s : State) : Host.Outcome State Fault Refusal :=
  executeLoad .lhu rd (s.x rs1) imm s

/-- SB: `em.addr <- x[rs1] + imm_S`, `em.store_data <- x[rs2]` (R162). -/
def execSb (rs1 rs2 : Reg) (imm : Word) (s : State) : Host.Outcome State Fault Refusal :=
  executeStore .sb (s.x rs1) (s.x rs2) imm s

/-- SH: `em.addr <- x[rs1] + imm_S`, `em.store_data <- x[rs2]` (R163). -/
def execSh (rs1 rs2 : Reg) (imm : Word) (s : State) : Host.Outcome State Fault Refusal :=
  executeStore .sh (s.x rs1) (s.x rs2) imm s

/-- SW: `em.addr <- x[rs1] + imm_S`, `em.store_data <- x[rs2]` (R164). -/
def execSw (rs1 rs2 : Reg) (imm : Word) (s : State) : Host.Outcome State Fault Refusal :=
  executeStore .sw (s.x rs1) (s.x rs2) imm s

end Sys2Proof.Machine
end

