-- ==== Sys2Proof/Machine/MulDiv.lean ====
section
/-! DEFINITION. The RV32M instructions (`45_reserved_m_a.md` R171): decoded, not executed, each a recoverable no-op (R169). -/

namespace Sys2Proof.Machine

/-- MUL: Unimplemented, a recoverable no-op; no register is read (R171). -/
def execMul (_rd _rs1 _rs2 : Reg) (s : State) : Host.Outcome State Fault Refusal :=
  executeUnimplemented .mul s

/-- MULH: Unimplemented, a recoverable no-op; no register is read (R171). -/
def execMulh (_rd _rs1 _rs2 : Reg) (s : State) : Host.Outcome State Fault Refusal :=
  executeUnimplemented .mulh s

/-- MULHSU: Unimplemented, a recoverable no-op; no register is read (R171). -/
def execMulhsu (_rd _rs1 _rs2 : Reg) (s : State) : Host.Outcome State Fault Refusal :=
  executeUnimplemented .mulhsu s

/-- MULHU: Unimplemented, a recoverable no-op; no register is read (R171). -/
def execMulhu (_rd _rs1 _rs2 : Reg) (s : State) : Host.Outcome State Fault Refusal :=
  executeUnimplemented .mulhu s

/-- DIV: Unimplemented, a recoverable no-op; no register is read (R171). -/
def execDiv (_rd _rs1 _rs2 : Reg) (s : State) : Host.Outcome State Fault Refusal :=
  executeUnimplemented .div s

/-- DIVU: Unimplemented, a recoverable no-op; no register is read (R171). -/
def execDivu (_rd _rs1 _rs2 : Reg) (s : State) : Host.Outcome State Fault Refusal :=
  executeUnimplemented .divu s

/-- REM: Unimplemented, a recoverable no-op; no register is read (R171). -/
def execRem (_rd _rs1 _rs2 : Reg) (s : State) : Host.Outcome State Fault Refusal :=
  executeUnimplemented .rem s

/-- REMU: Unimplemented, a recoverable no-op; no register is read (R171). -/
def execRemu (_rd _rs1 _rs2 : Reg) (s : State) : Host.Outcome State Fault Refusal :=
  executeUnimplemented .remu s

end Sys2Proof.Machine
end

