-- ==== Sys2Proof/Machine/System.lean ====
section
/-! DEFINITION. FENCE, ECALL and EBREAK (`44_fence_system.md`). -/

namespace Sys2Proof.Machine

/-- FENCE: executed, with no effect and no diagnostic; its fields are not read (R165). -/
def execFence (_rd _rs1 : Reg) (_imm : Word) (s : State) : Host.Outcome State Fault Refusal :=
  executeFence .fence s

/-- ECALL: Unimplemented, a recoverable no-op; no register is read (R166). -/
def execEcall (_rd _rs1 : Reg) (s : State) : Host.Outcome State Fault Refusal :=
  executeUnimplemented .ecall s

/-- EBREAK: Unimplemented, a recoverable no-op; no register is read (R167). -/
def execEbreak (_rd _rs1 : Reg) (s : State) : Host.Outcome State Fault Refusal :=
  executeUnimplemented .ebreak s

end Sys2Proof.Machine
end

