-- ==== Sys2Proof/Machine/Launch.lean ====
section
/-! DEFINITION. What the host does to the core (`70_reset_and_hazards.md` R195): the loader and the launch (R192, R193), the
shutdown (`40_pipeline.md` R112), the observation; and placing one instruction in front of Execute. -/

namespace Sys2Proof.Machine

/-- A memory that holds the given bytes where they lie below `limit`; the bytes of a launch input outside the memory do not
exist (log 15). -/
def memoryOf (limit : Nat) (cells : List Host.Cell) : Memory :=
  cells.foldl (fun m c => if c.1 < limit then m.write c.1 c.2 else m) []

/-- The bytes of the image that are loaded: whole words only, at most `IMEM_WORDS` of them (R193). -/
def loadedBytes (p : Params) (image : List Byte) : List Byte :=
  image.take (4 * min (image.length / 4) p.imemWords)

/-- IMEM after the loader: the image from address 0 on, over `imem_fill` (R193; `20_memory.md` R43). -/
def loadImage (p : Params) (image : List Byte) (imemFill : List Host.Cell) : Memory :=
  storeBytes (memoryOf (4 * p.imemWords) imemFill) 0 (loadedBytes p image)

/-- `launch(params, image, dmem_init, imem_fill)` (R195): the state at engine start with the memories loaded (R192). The
image is what the file at `path` holds, `none` if it cannot be opened: then there is no engine (R179). -/
def launch (p : Params) (path : String) (image : Option (List Byte)) (dmemInit imemFill : List Host.Cell) :
    Host.Outcome State Fault Refusal :=
  if p.wf then
    match image with
    | none => .refused (.imageUnreadable path)
    | some bytes =>
      .next { State.reset with
        params := p
        imem := loadImage p bytes imemFill
        dmem := memoryOf p.dmemBytes dmemInit }
  else .refused (.paramsOutOfRange p)

/-- The host's shutdown between two ticks (`40_pipeline.md` R112, R32): the latches are emptied and the halt record is
{Shutdown, stage none, tick}. A halted engine stays as it is (DEDUCED, safe, log 14). -/
def shutdown (s : State) : State :=
  match s.halted with
  | some _ => s
  | none =>
    { s with
      fd := none
      de := none
      em := none
      mw := none
      halted := some { error := .shutdown, stage := none, tick := s.tick, pc := none } }

/-- What the host reads between two ticks (R195). -/
structure Observation where
  pc : Word
  x : List Word
  dmem : Memory
  halted : Option HaltRecord
  tick : Nat
  diags : List Diagnostic
deriving DecidableEq, Repr

/-- `observe` (R195): it changes nothing. -/
def observe (s : State) : Observation where
  pc := s.pc
  x := (List.range 32).map fun n => s.x (BitVec.ofNat 5 n)
  dmem := s.dmem
  halted := s.halted
  tick := s.tick
  diags := s.diags

/-- An instruction word put where the very next tick runs it (log 10): decoded, in latch DE, fetched from PC; an illegal
word is put in latch FD, where the very next tick's Decode rejects it. The other latches are emptied and the engine is
running, since another instruction's fatal error in the same tick would abandon this one (`40_pipeline.md` R109). -/
def placeWord (s : State) (w : Word) : State :=
  match decode w with
  | .ok i => { s with fd := none, de := some { pc := s.pc, dec := i }, em := none, mw := none, halted := none }
  | .error _ => { s with fd := some { pc := s.pc, word := w }, de := none, em := none, mw := none, halted := none }

end Sys2Proof.Machine
end

