-- ==== Sys2Proof/Machine/Step.lean ====
section
/-! DEFINITION. The step: one tick of the core (`40_pipeline.md` R91, R107). -/

namespace Sys2Proof.Machine

/-- One tick: the meaning of the instruction in Execute runs the tick; with an empty DE, Execute idles (R96, R103). -/
def step (s : State) : Host.Outcome State Fault Refusal :=
  match s.de with
  | some d => exec d.dec s
  | none => idleTick s

/-- An opcode-table word placed so that the very next step runs it (log 10). -/
def State.withFetchWord (s : State) (nbits w : Nat) : State := placeWord s (tableWord nbits w)

end Sys2Proof.Machine
end

