-- ==== Sys2Proof/Machine/Sequential.lean ====
section
/-! DEFINITION. The sequential semantics of `70_reset_and_hazards.md` R200: each instruction's rule from files 41 to 45, with
its own fetch address as `PC_i`, on the registers and DMEM alone; and the registers and DMEM that a pipeline state settles
to once the instructions in EM and MW have completed (DEDUCED, safe, log 17: `step` uses none of this). -/

namespace Sys2Proof.Machine

/-- The registers and the data memory: what sequential execution changes (R200). -/
structure Arch where
  regs : RegFile
  dmem : Memory
deriving DecidableEq, Repr

/-- `x[r]` of the sequential semantics; x0 reads as 0 (R18). -/
def Arch.x (a : Arch) (r : Reg) : Word := readReg a.regs r

/-- `x[r] <- v`; a write to x0 is dropped (R18). -/
def Arch.setX (a : Arch) (r : Reg) (v : Word) : Arch := { a with regs := writeReg a.regs r v }

/-- The n bytes at an address, little-endian (`20_memory.md` R44). -/
def Arch.load (a : Arch) (addr : Word) (n : Nat) : Word := readLE a.dmem addr.toNat n

/-- Storing the low n bytes of `v` at an address, little-endian (`20_memory.md` R45). -/
def Arch.store (a : Arch) (addr : Word) (n : Nat) (v : Word) : Arch := { a with dmem := writeLE a.dmem addr.toNat n v }

/-- What one instruction, fetched from `pc`, does to the registers and DMEM when no error is raised (R118 to R138, R145 to
R172). -/
def seqExec (pc : Word) (i : Instr) (a : Arch) : Arch :=
  match i with
  | .lui rd imm => a.setX rd imm
  | .auipc rd imm => a.setX rd (pc + imm)
  | .jal rd _ => a.setX rd (pc + 4#32)
  | .jalr rd _ _ => a.setX rd (pc + 4#32)
  | .beq .. | .bne .. | .blt .. | .bge .. | .bltu .. | .bgeu .. => a
  | .lb rd rs1 imm => a.setX rd (((a.load (a.x rs1 + imm) 1).extractLsb' 0 8).signExtend 32)
  | .lh rd rs1 imm => a.setX rd (((a.load (a.x rs1 + imm) 2).extractLsb' 0 16).signExtend 32)
  | .lw rd rs1 imm => a.setX rd (a.load (a.x rs1 + imm) 4)
  | .lbu rd rs1 imm => a.setX rd (((a.load (a.x rs1 + imm) 1).extractLsb' 0 8).zeroExtend 32)
  | .lhu rd rs1 imm => a.setX rd (((a.load (a.x rs1 + imm) 2).extractLsb' 0 16).zeroExtend 32)
  | .sb rs1 rs2 imm => a.store (a.x rs1 + imm) 1 (a.x rs2)
  | .sh rs1 rs2 imm => a.store (a.x rs1 + imm) 2 (a.x rs2)
  | .sw rs1 rs2 imm => a.store (a.x rs1 + imm) 4 (a.x rs2)
  | .addi rd rs1 imm => a.setX rd (a.x rs1 + imm)
  | .slti rd rs1 imm => a.setX rd (if (a.x rs1).toInt < imm.toInt then 1#32 else 0#32)
  | .sltiu rd rs1 imm => a.setX rd (if (a.x rs1).toNat < imm.toNat then 1#32 else 0#32)
  | .xori rd rs1 imm => a.setX rd (a.x rs1 ^^^ imm)
  | .ori rd rs1 imm => a.setX rd (a.x rs1 ||| imm)
  | .andi rd rs1 imm => a.setX rd (a.x rs1 &&& imm)
  | .slli rd rs1 imm => a.setX rd (a.x rs1 <<< (imm.toNat % 32))
  | .srli rd rs1 imm => a.setX rd (a.x rs1 >>> (imm.toNat % 32))
  | .srai rd rs1 imm => a.setX rd ((a.x rs1).sshiftRight (imm.toNat % 32))
  | .add rd rs1 rs2 => a.setX rd (a.x rs1 + a.x rs2)
  | .sub rd rs1 rs2 => a.setX rd (a.x rs1 - a.x rs2)
  | .sll rd rs1 rs2 => a.setX rd (a.x rs1 <<< ((a.x rs2).toNat % 32))
  | .slt rd rs1 rs2 => a.setX rd (if (a.x rs1).toInt < (a.x rs2).toInt then 1#32 else 0#32)
  | .sltu rd rs1 rs2 => a.setX rd (if (a.x rs1).toNat < (a.x rs2).toNat then 1#32 else 0#32)
  | .xor rd rs1 rs2 => a.setX rd (a.x rs1 ^^^ a.x rs2)
  | .srl rd rs1 rs2 => a.setX rd (a.x rs1 >>> ((a.x rs2).toNat % 32))
  | .sra rd rs1 rs2 => a.setX rd ((a.x rs1).sshiftRight ((a.x rs2).toNat % 32))
  | .or rd rs1 rs2 => a.setX rd (a.x rs1 ||| a.x rs2)
  | .and rd rs1 rs2 => a.setX rd (a.x rs1 &&& a.x rs2)
  | .fence .. | .ecall .. | .ebreak .. => a
  | .mul .. | .mulh .. | .mulhsu .. | .mulhu .. | .div .. | .divu .. | .rem .. | .remu .. => a
  | .lrW .. | .scW .. | .amoswapW .. | .amoaddW .. | .amoxorW .. | .amoandW .. | .amoorW .. => a
  | .amominW .. | .amomaxW .. | .amominuW .. | .amomaxuW .. => a

/-- The target of a taken control transfer fetched from `pc` (R144 to R152); `none` when the instruction is no control
transfer or is a branch that is not taken. -/
def seqTarget (pc : Word) (i : Instr) (a : Arch) : Option Word :=
  match i with
  | .jal _ imm => some (pc + imm)
  | .jalr _ rs1 imm => some ((a.x rs1 + imm) &&& 0xFFFFFFFE#32)
  | .beq rs1 rs2 imm => if a.x rs1 = a.x rs2 then some (pc + imm) else none
  | .bne rs1 rs2 imm => if a.x rs1 ≠ a.x rs2 then some (pc + imm) else none
  | .blt rs1 rs2 imm => if (a.x rs1).toInt < (a.x rs2).toInt then some (pc + imm) else none
  | .bge rs1 rs2 imm => if (a.x rs1).toInt ≥ (a.x rs2).toInt then some (pc + imm) else none
  | .bltu rs1 rs2 imm => if (a.x rs1).toNat < (a.x rs2).toNat then some (pc + imm) else none
  | .bgeu rs1 rs2 imm => if (a.x rs1).toNat ≥ (a.x rs2).toNat then some (pc + imm) else none
  | .lui .. | .auipc .. | .lb .. | .lh .. | .lw .. | .lbu .. | .lhu .. | .sb .. | .sh .. | .sw .. => none
  | .addi .. | .slti .. | .sltiu .. | .xori .. | .ori .. | .andi .. | .slli .. | .srli .. | .srai .. => none
  | .add .. | .sub .. | .sll .. | .slt .. | .sltu .. | .xor .. | .srl .. | .sra .. | .or .. | .and .. => none
  | .fence .. | .ecall .. | .ebreak .. => none
  | .mul .. | .mulh .. | .mulhsu .. | .mulhu .. | .div .. | .divu .. | .rem .. | .remu .. => none
  | .lrW .. | .scW .. | .amoswapW .. | .amoaddW .. | .amoxorW .. | .amoandW .. | .amoorW .. => none
  | .amominW .. | .amomaxW .. | .amominuW .. | .amomaxuW .. => none

/-- Sequential execution of a list of fetched instructions, in order (R200). -/
def seqRun (is : List (Word × Instr)) (a : Arch) : Arch := is.foldl (fun a i => seqExec i.1 i.2 a) a

/-- The registers and DMEM that a state settles to: those after the instructions in MW and EM have completed (R104, R105).
The registers hold them two ticks later, DMEM one tick later. -/
def settled (s : State) : Arch where
  regs := writeBack (writeBack s.regs s.mw) (mwNext s)
  dmem := commitStore s

/-- The registers that the instructions in MW and EM have still to write. -/
def pendingRegs (s : State) : List Reg :=
  ((wbThisTick s.mw).toList ++ (wbThisTick (mwNext s)).toList).map Prod.fst

/-- No register that `i` reads is still to be written by one of the two instructions before it (R197). -/
def hazardFree (s : State) (i : Instr) : Bool := (sources i).all fun r => !(pendingRegs s).contains r

end Sys2Proof.Machine
end

