-- ==== Sys2Proof/Safety.lean ====
section
/-! DEFINITION. The terms in which claims speak of runs: a tick without a fatal error, a run that does not halt, the
instructions a run executes, hazard-free runs (`70_reset_and_hazards.md` R197, R200), the stores a load sees (R55), the end
of a run (R196), and the invariant of the core. -/

namespace Sys2Proof.Machine

/-- The engine runs, and no stage but Execute raises a fatal error in this tick. -/
structure Quiet (s : State) : Prop where
  running : s.halted = none
  memAccess : memFault s = none
  decode : decodeFault s = none
  fetch : fetchFault s = none

/-- A run of `n` ticks from `s` that ends in `t` with the engine still running: the safe runs. -/
def RunsTo (n : Nat) (s t : State) : Prop := Host.Core.run Sys2Proof.core n s = .next t ∧ t.halted = none

/-- The instructions that are in Execute during the next `n` ticks, with their fetch addresses, in order. -/
def executed : Nat → State → List (Word × Instr)
  | 0, _ => []
  | n + 1, s =>
    (match s.de with
      | some d => [(d.pc, d.dec)]
      | none => []) ++
    (match step s with
      | .next t => executed n t
      | .fault _ => []
      | .refused _ => [])

/-- Every instruction that is in Execute during the next `n` ticks reads no register that one of the two instructions before
it has still to write (R197, R200). -/
def HazardFreeRun : Nat → State → Prop
  | 0, _ => True
  | n + 1, s => (∀ d, s.de = some d → hazardFree s d.dec = true) ∧ ∀ t, step s = .next t → HazardFreeRun n t

/-- The stores that MemAccess commits during the next `n` ticks, in order: address, number of bytes, data (R55). -/
def storesDuring : Nat → State → List (Nat × Nat × Word)
  | 0, _ => []
  | n + 1, s =>
    (storeThisTick s).toList ++
    (match step s with
      | .next t => storesDuring n t
      | .fault _ => []
      | .refused _ => [])

/-- What byte `a` holds after some stores, in order, when it held `b` before: the value of the last store to that byte
(`20_memory.md` R55). -/
def lastStored (a : Nat) (stores : List (Nat × Nat × Word)) (b : Byte) : Byte :=
  stores.foldl (fun b x => if x.1 ≤ a ∧ a < x.1 + x.2.1 then x.2.2.extractLsb' (8 * (a - x.1)) 8 else b) b

/-! The end of a run (`70_reset_and_hazards.md` R196). -/

/-- The run from `s` goes on for `n` ticks, and the tick after them halts the engine with the end state `e`. -/
def HaltsAfter (n : Nat) (s e : State) : Prop := ∃ t, RunsTo n s t ∧ step t = .next e ∧ e.halted ≠ none

/-- The run from `s` goes on for `n` ticks, and then the host shuts the engine down, with the end state `e`. -/
def ShutDownAfter (n : Nat) (s e : State) : Prop := ∃ t, RunsTo n s t ∧ e = shutdown t

/-- `e` is an end state of the run from `s`: only a run that has halted has one (R196). -/
def EndState (s e : State) : Prop := ∃ n, HaltsAfter n s e ∨ ShutDownAfter n s e

/-- The byte address of IMEM word `k` (`10_state.md` R21). -/
def wordAddress (k : Nat) : Word := BitVec.ofNat 32 (4 * k)

/-- The premises of a conventional end at word index `k` (R196): the word at `k` is 0x00000000, the three before it are
0x00000013, and after `n` ticks of the run from `s` the words at `k - 3` to `k` are fetched in four consecutive ticks. -/
structure ConventionalEnd (s : State) (k n : Nat) : Prop where
  room : 3 ≤ k
  range : k < 2 ^ 30
  nops : ∀ j, k - 3 ≤ j → j < k → iMemRead s (wordAddress j) = .ok 0x00000013#32
  last : iMemRead s (wordAddress k) = .ok 0x00000000#32
  fetched : ∀ j, j < 4 → ∃ t, RunsTo (n + j) s t ∧ t.pc = wordAddress (k - 3 + j)

/-- A run from `s` that ended by the convention of R196 at word index `k`, with the end state `e`: the word was fetched in
the fourth of those ticks and rejected in the tick after it, with the halt record {InvalidOpcode(0x00), DEC, pc 4k}. -/
def EndedByConvention (s : State) (k : Nat) (e : State) : Prop :=
  ∃ n, ConventionalEnd s k n ∧ HaltsAfter (n + 4) s e ∧
    e.halted = some { error := .decode (.invalidOpcode 0#7), stage := some .decode, tick := s.tick + n + 5,
                      pc := some (wordAddress k) }

/-- The invariant of the core: what every state of every run satisfies. -/
structure Inv (s : State) : Prop where
  /-- The sizes are in the ranges of `00_scope.md` R8. -/
  params : s.params.wf = true
  /-- IMEM is in canonical form. -/
  imem_wf : s.imem.wf = true
  /-- IMEM holds nothing outside its range (`20_memory.md` R38). -/
  imem_range : s.imem.below (4 * s.params.imemWords) = true
  /-- DMEM is in canonical form. -/
  dmem_wf : s.dmem.wf = true
  /-- DMEM holds nothing outside its range (`20_memory.md` R39). -/
  dmem_range : s.dmem.below s.params.dmemBytes = true
  /-- x0's slot holds 0 (R18). -/
  x0 : s.regs[0] = 0#32
  /-- `PC[1:0]` = 0 (R24). -/
  pc_aligned : wordAligned s.pc = true
  /-- What Decode is handed was fetched from an aligned address (R24). -/
  fd : ∀ f, s.fd = some f → wordAligned f.pc = true
  /-- What Execute is handed was decoded (R102): it is well-formed. -/
  de : ∀ d, s.de = some d → wordAligned d.pc = true ∧ d.dec.wf = true
  /-- What MemAccess is handed: `noop` marks exactly the Unimplemented micro-ops, and a micro-op that writes no register
  carries rd = 0 (R103). -/
  em : ∀ e, s.em = some e →
    wordAligned e.pc = true ∧ e.noop = unimplemented e.uop ∧ (writesRd e.uop = false → e.rd = 0)
  /-- What Writeback is handed. -/
  mw : ∀ m, s.mw = some m → wordAligned m.pc = true ∧ (m.we = false → m.rd = 0)
  /-- Halted: the latches are empty (R111), and the record's tick is the last tick performed (R181, R112). -/
  halted : ∀ h, s.halted = some h →
    s.fd = none ∧ s.de = none ∧ s.em = none ∧ s.mw = none ∧ h.tick = s.tick
  /-- Every diagnostic names an Unimplemented micro-op and a tick that was performed (R176). -/
  diags : ∀ d ∈ s.diags, unimplemented d.uop = true ∧ 1 ≤ d.tick ∧ d.tick ≤ s.tick

end Sys2Proof.Machine
end

