-- ==== Sys2Proof/Certificates/Slice0/Obligations.lean ====
section
/-! DEFINITION. The statements about the core. `Sys2Proof.Stated` holds the shapes that several statements share; each
`Obligations.<Name>` is one statement. `exec i s` is the tick in which `i` is in Execute; `settled` is what the registers
and DMEM become when the instructions in MW and EM have completed, and `SettledStateArrives` says when they do. -/

open Sys2Proof Sys2Proof.Machine

namespace Sys2Proof.Stated

/-- `i`, fetched from `pc`, is in Execute, the engine runs, and no other stage raises a fatal error in this tick: what an
instruction needs to have its own effect (`40_pipeline.md` R103, R109). -/
structure Ready (i : Instr) (pc : Word) (s : State) : Prop where
  quiet : Quiet s
  inExecute : s.de = some { pc := pc, dec := i }

/-- Everything a tick without a fatal error does beside Execute's own work (`40_pipeline.md` R93, R107, R108): Writeback and
MemAccess commit, the latches advance, the next fetch is from `next`, the tick counts; IMEM and the sizes keep their
values. -/
structure Advances (s t : State) (next : Word) : Prop where
  running : t.halted = none
  regs : t.regs = writeBack s.regs s.mw
  dmem : t.dmem = commitStore s
  fd : t.fd = fdNext s
  de : t.de = deNext s
  mw : t.mw = mwNext s
  pc : t.pc = next
  tick : t.tick = s.tick + 1
  imem : t.imem = s.imem
  params : t.params = s.params

/-- A halt in the tick after `s` (`40_pipeline.md` R109): the record names the error, the stage and the instruction; the
latches are empty, PC is unchanged, the tick counts, Writeback's write commits and data memory is `dmem`. -/
structure Halts (s t : State) (error : CoreError) (stage : Stage) (pc : Word) (dmem : Memory) : Prop where
  record : t.halted = some { error := error, stage := some stage, tick := s.tick + 1, pc := some pc }
  regs : t.regs = writeBack s.regs s.mw
  dmem : t.dmem = dmem
  fd : t.fd = none
  de : t.de = none
  em : t.em = none
  mw : t.mw = none
  pc : t.pc = s.pc
  tick : t.tick = s.tick + 1
  imem : t.imem = s.imem
  params : t.params = s.params

/-- A computational instruction completes: EM receives the result `r` with the flags Z, N, `c`, `v`, P of R115, and the
settled state is the one before with `r` in `rd`, every other register and every byte of memory as before. -/
def Computes (i : Instr) (pc : Word) (s : State) (rd : Reg) (r : Word) (c v : Bool) : Prop :=
  ∃ t e, exec i s = .next t ∧ Advances s t (s.pc + 4#32) ∧ t.diags = s.diags ∧
    t.em = some e ∧ e.pc = pc ∧ e.uop = i.uop ∧ e.rd = rd ∧ e.result = r ∧ e.noop = false ∧
    e.flags = { z := decide (r = 0#32), n := r.getLsbD 31, c := c, v := v, p := Config.aluParity r } ∧
    settled t = (settled s).setX rd r

/-- ADD's flags C and V (R115). -/
def addC (a b : Word) : Bool := decide (a.toNat > 0xFFFFFFFF - b.toNat)
def addV (a b : Word) : Bool := decide (a.getLsbD 31 = b.getLsbD 31 ∧ (a + b).getLsbD 31 ≠ a.getLsbD 31)
/-- SUB's flags C and V (R115). -/
def subC (a b : Word) : Bool := decide (a.toNat ≥ b.toNat)
def subV (a b : Word) : Bool := decide (a.getLsbD 31 ≠ b.getLsbD 31 ∧ (a - b).getLsbD 31 ≠ a.getLsbD 31)
/-- C and V of the other operations (R115). -/
def clear (_a _b : Word) : Bool := false

/-- A register-register instruction (R118 to R127): its encoding, and its effect in every state in which it is ready. -/
def RegisterRule (funct7 : BitVec 7) (funct3 : BitVec 3) (mk : Reg → Reg → Reg → Instr) (res : Word → Word → Word)
    (c v : Word → Word → Bool) : Prop :=
  ∀ rd rs1 rs2,
    decode (encodeR 0x33#7 funct3 funct7 rd rs1 rs2) = .ok (mk rd rs1 rs2) ∧
    ∀ pc s, Ready (mk rd rs1 rs2) pc s →
      Computes (mk rd rs1 rs2) pc s rd (res (s.x rs1) (s.x rs2)) (c (s.x rs1) (s.x rs2)) (v (s.x rs1) (s.x rs2))

/-- A register-immediate instruction that is no shift (R128 to R133). -/
def ImmediateRule (funct3 : BitVec 3) (mk : Reg → Reg → Word → Instr) (res : Word → Word → Word)
    (c v : Word → Word → Bool) : Prop :=
  ∀ rd rs1,
    (∀ imm12 : BitVec 12,
      decode (imm12 ++ rs1 ++ funct3 ++ rd ++ 0x13#7) = .ok (mk rd rs1 (imm12.signExtend 32))) ∧
    ∀ imm pc s, Ready (mk rd rs1 imm) pc s →
      Computes (mk rd rs1 imm) pc s rd (res (s.x rs1) imm) (c (s.x rs1) imm) (v (s.x rs1) imm)

/-- A shift-immediate instruction (R134 to R136): the amount is `imm[4:0]`. -/
def ShiftRule (funct7 : BitVec 7) (funct3 : BitVec 3) (mk : Reg → Reg → Word → Instr) (res : Word → Nat → Word) : Prop :=
  ∀ rd rs1,
    (∀ shamt : BitVec 5,
      decode (funct7 ++ shamt ++ rs1 ++ funct3 ++ rd ++ 0x13#7) = .ok (mk rd rs1 ((funct7 ++ shamt).signExtend 32))) ∧
    ∀ imm pc s, Ready (mk rd rs1 imm) pc s →
      Computes (mk rd rs1 imm) pc s rd (res (s.x rs1) (imm.toNat % 32)) false false

/-- A control transfer completes: the next fetch is from `target`, EM carries the link value if there is one, the settled
state is `a`. -/
def Redirects (i : Instr) (pc : Word) (s : State) (rd : Reg) (link : Option Word) (target : Word) (a : Arch) : Prop :=
  ∃ t e, exec i s = .next t ∧ Advances s t target ∧ t.diags = s.diags ∧
    t.em = some e ∧ e.pc = pc ∧ e.uop = i.uop ∧ e.rd = rd ∧ (∀ v, link = some v → e.result = v) ∧ e.noop = false ∧
    settled t = a

/-- A taken control transfer to a target that is no multiple of 4 halts the engine (R140): no link, no redirect. -/
def TargetHalts (i : Instr) (pc : Word) (s : State) (target : Word) : Prop :=
  ∃ t, exec i s = .next t ∧ Halts s t (.misalignedTarget target) .execute pc (commitStore s)

/-- A jump (R145, R146) to the target `target pc s`: with an aligned target it links and redirects; otherwise it halts. -/
def JumpRule (i : Instr) (rd : Reg) (target : Word → State → Word) : Prop :=
  ∀ pc s, s.de = some { pc := pc, dec := i } →
    (Quiet s → (target pc s).toNat % 4 = 0 →
      Redirects i pc s rd (some (pc + 4#32)) (target pc s) ((settled s).setX rd (pc + 4#32))) ∧
    (s.halted = none → memFault s = none → (target pc s).toNat % 4 ≠ 0 → TargetHalts i pc s (target pc s))

/-- A conditional branch (R147 to R152) with the condition `cond`: taken with an aligned target it redirects, taken with a
misaligned one it halts, not taken it goes on at PC + 4 and checks nothing; it writes no register and no memory. -/
def BranchRule (funct3 : BitVec 3) (mk : Reg → Reg → Word → Instr) (cond : Word → Word → Prop) : Prop :=
  ∀ rs1 rs2,
    (∀ imm, fits13 imm = true → decode (encodeB 0x63#7 funct3 rs1 rs2 imm) = .ok (mk rs1 rs2 imm)) ∧
    ∀ imm pc s, s.de = some { pc := pc, dec := mk rs1 rs2 imm } →
      (Quiet s → cond (s.x rs1) (s.x rs2) → (pc + imm).toNat % 4 = 0 →
        Redirects (mk rs1 rs2 imm) pc s 0#5 none (pc + imm) (settled s)) ∧
      (Quiet s → ¬ cond (s.x rs1) (s.x rs2) →
        Redirects (mk rs1 rs2 imm) pc s 0#5 none (s.pc + 4#32) (settled s)) ∧
      (s.halted = none → memFault s = none → cond (s.x rs1) (s.x rs2) → (pc + imm).toNat % 4 ≠ 0 →
        TargetHalts (mk rs1 rs2 imm) pc s (pc + imm))

/-- A load or store at Execute completes: EM receives its address, and its data if it is a store; the settled state is
`a`. -/
def AccessCompletes (i : Instr) (pc : Word) (s : State) (rd : Reg) (addr : Word) (data : Option Word) (a : Arch) : Prop :=
  ∃ t e, exec i s = .next t ∧ Advances s t (s.pc + 4#32) ∧ t.diags = s.diags ∧
    t.em = some e ∧ e.pc = pc ∧ e.uop = i.uop ∧ e.rd = rd ∧ e.addr = addr ∧ (∀ v, data = some v → e.storeData = v) ∧
    e.noop = false ∧ settled t = a

/-- A load or store whose address the memory does not take passes Execute and halts the engine in its MemAccess tick, with
no byte of its own read or written (R47, R48, R178). -/
def AccessHalts (i : Instr) (pc : Word) (s : State) (error : CoreError) : Prop :=
  ∃ t u, exec i s = .next t ∧ Advances s t (s.pc + 4#32) ∧ step t = .next u ∧ Halts t u error .memAccess pc t.dmem

/-- The three ends of an access of `n` bytes at `addr`: aligned and in bounds it completes with the settled state `a`;
misaligned, or else out of bounds, it halts (R47, R48). -/
def AccessEnds (i : Instr) (pc : Word) (s : State) (rd : Reg) (addr : Word) (data : Option Word) (n : Nat) (a : Arch) :
    Prop :=
  (addr.toNat % n = 0 → addr.toNat + n ≤ s.params.dmemBytes → AccessCompletes i pc s rd addr data a) ∧
  (addr.toNat % n ≠ 0 → AccessHalts i pc s (.misaligned addr)) ∧
  (addr.toNat % n = 0 → s.params.dmemBytes < addr.toNat + n → AccessHalts i pc s (.outOfBounds addr))

/-- A load (R157 to R161) of `n` bytes, extended by `ext`: it reads the data memory that the stores before it leave. -/
def LoadRule (funct3 : BitVec 3) (mk : Reg → Reg → Word → Instr) (n : Nat) (ext : Word → Word) : Prop :=
  ∀ rd rs1,
    (∀ imm12 : BitVec 12,
      decode (imm12 ++ rs1 ++ funct3 ++ rd ++ 0x03#7) = .ok (mk rd rs1 (imm12.signExtend 32))) ∧
    ∀ imm pc s, Ready (mk rd rs1 imm) pc s →
      AccessEnds (mk rd rs1 imm) pc s rd (s.x rs1 + imm) none n
        ((settled s).setX rd (ext (readLE (settled s).dmem (s.x rs1 + imm).toNat n)))

/-- A store (R162 to R164) of the low `n` bytes of `x[rs2]`. -/
def StoreRule (funct3 : BitVec 3) (mk : Reg → Reg → Word → Instr) (n : Nat) : Prop :=
  ∀ rs1 rs2,
    (∀ imm, fits12 imm = true → decode (encodeS 0x23#7 funct3 rs1 rs2 imm) = .ok (mk rs1 rs2 imm)) ∧
    ∀ imm pc s, Ready (mk rs1 rs2 imm) pc s →
      AccessEnds (mk rs1 rs2 imm) pc s 0#5 (s.x rs1 + imm) (some (s.x rs2)) n
        { settled s with dmem := writeLE (settled s).dmem (s.x rs1 + imm).toNat n (s.x rs2) }

/-- An Unimplemented instruction completes as a recoverable no-op (R110, R169): EM receives the no-op payload, a diagnostic
is recorded, the settled state is unchanged and the next fetch is from PC + 4. -/
def NoopRule (i : Instr) : Prop :=
  ∀ pc s, Ready i pc s →
    ∃ t, exec i s = .next t ∧ Advances s t (s.pc + 4#32) ∧
      t.diags = s.diags ++ [{ uop := i.uop, pc := pc, tick := s.tick + 1 }] ∧
      t.em = some { pc := pc, uop := i.uop, rd := 0#5, result := 0#32, flags := ⟨false, false, false, false, false⟩,
                    addr := 0#32, storeData := 0#32, noop := true } ∧
      settled t = settled s

/-- An RV32M instruction: its encoding (R72, R171) and its effect. -/
def MulDivRule (funct3 : BitVec 3) (mk : Reg → Reg → Reg → Instr) : Prop :=
  ∀ rd rs1 rs2,
    decode (encodeR 0x33#7 funct3 0x01#7 rd rs1 rs2) = .ok (mk rd rs1 rs2) ∧ NoopRule (mk rd rs1 rs2)

/-- An RV32A instruction: its encoding, whatever `aq` and `rl` are (R82, R172), and its effect. -/
def AtomicRule (funct5 : BitVec 5) (mk : Reg → Reg → Reg → Instr) : Prop :=
  ∀ rd rs1 rs2,
    (∀ aq rl : BitVec 1, decode (encodeR 0x2F#7 2#3 (funct5 ++ aq ++ rl) rd rs1 rs2) = .ok (mk rd rs1 rs2)) ∧
    NoopRule (mk rd rs1 rs2)

/-- The fatal error of Execute in a tick: the instruction in Execute is a taken control transfer whose target is no multiple
of 4 (R140). -/
def executeFault (s : State) : Option Fatal :=
  match s.de with
  | none => none
  | some d =>
    match seqTarget d.pc d.dec { regs := s.regs, dmem := s.dmem } with
    | none => none
    | some target =>
      if target.toNat % 4 = 0 then none
      else some { error := .misalignedTarget target, stage := .execute, pc := d.pc }

/-- The fatal errors of a tick, oldest stage first (R109, R180). -/
def fatalErrors (s : State) : List Fatal :=
  (memFault s).toList ++ (executeFault s).toList ++ (decodeFault s).toList ++ (fetchFault s).toList

/-- A load (R157 to R161) of `n` bytes, extended by `ext`, sees memory as R55 says: after any run, each byte it returns is
the value of the last store to that byte that MemAccess committed in the run or commits in the load's Execute tick, and
the byte that was there before the run if there is none. -/
def LoadSeesLastStores (mk : Reg → Reg → Word → Instr) (n : Nat) (ext : Word → Word) : Prop :=
  ∀ (m : Nat) (s t : State) (pc : Word) (rd rs1 : Reg) (imm : Word), s.dmem.wf = true → RunsTo m s t →
    Ready (mk rd rs1 imm) pc t → (t.x rs1 + imm).toNat % n = 0 → (t.x rs1 + imm).toNat + n ≤ t.params.dmemBytes →
    ∃ u v, exec (mk rd rs1 imm) t = .next u ∧ settled u = (settled t).setX rd (ext v) ∧
      ∀ k, k < n → v.extractLsb' (8 * k) 8 =
        lastStored ((t.x rs1 + imm).toNat + k) (storesDuring (m + 1) s) (s.dmem.read ((t.x rs1 + imm).toNat + k))

/-- What byte `a` of a memory of `limit` bytes holds after a launch with the given cells (R43, R49; logs 3, 4 and 15): the
last cell for `a` if `a` exists, and otherwise what an unlisted byte reads as. -/
def launchByte (limit : Nat) (cells : List Host.Cell) (a : Nat) : Byte :=
  if a < limit then
    match cells.reverse.find? fun c => c.1 == a with
    | some c => c.2
    | none => Memory.unlisted
  else Memory.unlisted

/-- The twelve opcodes of the opcode map (R66). -/
def knownOpcodes : List (BitVec 7) :=
  [0x03#7, 0x0F#7, 0x13#7, 0x17#7, 0x23#7, 0x2F#7, 0x33#7, 0x37#7, 0x63#7, 0x67#7, 0x6F#7, 0x73#7]

/-- The eleven funct5 codes of RV32A (R82, R172). -/
def knownFunct5 : List (BitVec 5) :=
  [0b00010#5, 0b00011#5, 0b00001#5, 0b00000#5, 0b00100#5, 0b01100#5, 0b01000#5, 0b10000#5, 0b10100#5, 0b11000#5, 0b11100#5]

end Sys2Proof.Stated

open Sys2Proof.Stated

/-! ## Encoding -/

/-- Decode and encode agree, for every well-formed instruction with every operand (R62, R63, R66, R72 to R82). -/
def Obligations.DecodeOfEncodeIsTheInstruction : Prop :=
  ∀ i : Instr, i.wf = true → decode (encode i) = .ok i

/-- What the decoder answers is well-formed: every immediate is in the range of its format (R63, R65, R73). -/
def Obligations.DecodedInstructionsAreWellFormed : Prop :=
  ∀ (w : Word) (i : Instr), decode w = .ok i → i.wf = true

/-- Encoding what was decoded gives the word back, but for `aq` and `rl` of an AMO word, which are neither tested nor
carried (R87; log 11). So two words that differ in any other bit decode differently. -/
def Obligations.EncodeOfDecodeIsTheWord : Prop :=
  ∀ (w : Word) (i : Instr), decode w = .ok i →
    encode i = if i.opcode = 0x2F#7 then w &&& 0xF9FFFFFF#32 else w

/-- R69: `InvalidOpcode(w[6:0])` exactly when the opcode is none of the twelve. -/
def Obligations.UnknownOpcodesAreInvalidOpcode : Prop :=
  ∀ (w : Word) (c : BitVec 7),
    decode w = .error (.invalidOpcode c) ↔ c = opcodeOf w ∧ opcodeOf w ∉ knownOpcodes

/-- R83: an `InvalidFunct` carries opcode, funct3 and w[31:25] of its word, whose opcode is one of the twelve. -/
def Obligations.InvalidFunctCarriesTheWordsFields : Prop :=
  ∀ (w : Word) (c : BitVec 7) (f3 : BitVec 3) (f7 : BitVec 7), decode w = .error (.invalidFunct c f3 f7) →
    c = w.extractLsb' 0 7 ∧ f3 = w.extractLsb' 12 3 ∧ f7 = w.extractLsb' 25 7 ∧ c ∈ knownOpcodes

/-- R87: words that differ from a legal word only in bits that are not tested decode to the same micro-op: FENCE's fm, pred,
succ, rs1 and rd; ECALL's and EBREAK's rd and rs1; `aq` and `rl` of every AMO word; rs2 of LR_W. -/
def Obligations.UntestedBitsDoNotChangeTheMicroOp : Prop :=
  (∀ w : Word, w &&& 0x0000707F#32 = 0x0000000F#32 → ∃ i, decode w = .ok i ∧ i.uop = .fence) ∧
  (∀ w : Word, w &&& 0xFFF0707F#32 = 0x00000073#32 → ∃ i, decode w = .ok i ∧ i.uop = .ecall) ∧
  (∀ w : Word, w &&& 0xFFF0707F#32 = 0x00100073#32 → ∃ i, decode w = .ok i ∧ i.uop = .ebreak) ∧
  (∀ w : Word, w &&& 0xF800707F#32 = 0x1000202F#32 → ∃ i, decode w = .ok i ∧ i.uop = .lrW) ∧
  (∀ (w : Word) (i : Instr), w &&& 0x0000007F#32 = 0x0000002F#32 → decode w = .ok i →
    decode (w ^^^ 0x04000000#32) = .ok i ∧ decode (w ^^^ 0x02000000#32) = .ok i)

/-- Words written out from the encodings, one of each family (R85 and the vectors V-DEC of `95_test_vectors.md`). -/
def Obligations.WorkedWordsDecode : Prop :=
  decode 0b00000000110001011000010100110011#32 = .ok (.add 10 11 12) ∧
  decode 0b11111111111100000000000100010011#32 = .ok (.addi 2 0 0xFFFFFFFF) ∧
  decode 0b10001001101010111100001010110111#32 = .ok (.lui 5 0x89ABC000) ∧
  decode 0b10000000000000000000000011101111#32 = .ok (.jal 1 0xFFF00000) ∧
  decode 0b11111110000000001001100011100011#32 = .ok (.bne 1 0 0xFFFFFFF0) ∧
  decode 0b00000000000000110010001010000011#32 = .ok (.lw 5 6 0) ∧
  decode 0b11111110011100110010111000100011#32 = .ok (.sw 6 7 0xFFFFFFFC) ∧
  decode 0b00001111111100000000000000001111#32 = .ok (.fence 0 0 255) ∧
  decode 0b00000000000100000000000001110011#32 = .ok (.ebreak 0 0 1) ∧
  decode 0b00000010001000001000000110110011#32 = .ok (.mul 3 1 2) ∧
  decode 0b00010000000000110010001010101111#32 = .ok (.lrW 5 6 0) ∧
  decode 0x00000000#32 = .error (.invalidOpcode 0) ∧
  decode 0xFFFFFFFF#32 = .error (.invalidOpcode 0x7F) ∧
  decode 0x30200073#32 = .error (.invalidFunct 0x73 0 0x18)

/-! ## The engine -/

/-- From fetch to Execute (R101, R102, R103, R202): in two ticks without a fatal error, the word at PC that decodes to `i` is
fetched and decoded, and the third tick is `exec i`; a tick with an empty DE idles in Execute. -/
def Obligations.StepExecutesTheDecodedInstruction : Prop :=
  (∀ (s s1 s2 : State) (w : Word) (i : Instr), iMemRead s s.pc = .ok w → decode w = .ok i →
    s.halted = none → step s = .next s1 → s1.halted = none → step s1 = .next s2 → s2.halted = none →
    s1.fd = some { pc := s.pc, word := w } ∧ s2.de = some { pc := s.pc, dec := i } ∧ step s2 = exec i s2) ∧
  (∀ (s : State) (pc : Word) (i : Instr), s.de = some { pc := pc, dec := i } → step s = exec i s) ∧
  (∀ s : State, s.de = none → step s = idleTick s)

/-- Every instruction and every tick answer a next state, in every state: no instruction is refused and none faults (R107,
R109, R111 give the state after every tick; log 13). -/
def Obligations.EveryTickHasANextState : Prop :=
  (∀ (i : Instr) (s : State), ∃ t, exec i s = .next t) ∧ ∀ s : State, ∃ t, step s = .next t

/-- R111: once halted, a tick changes nothing. -/
def Obligations.HaltedTickChangesNothing : Prop :=
  ∀ s : State, s.halted ≠ none → step s = .next s ∧ ∀ i, exec i s = .next s

/-- R33: the tick counter is 0 at engine start, counts every tick the engine performs, and stops once it is halted. -/
def Obligations.TickCounterCountsPerformedTicks : Prop :=
  State.reset.tick = 0 ∧
  ∀ s t : State, step s = .next t →
    (s.halted = none → t.tick = s.tick + 1) ∧ (s.halted ≠ none → t.tick = s.tick)

/-- R108, R96: in a tick without a fatal error every latch takes its producer's output; a stage with an empty input latch
hands on a bubble, Fetch always fetches. -/
def Obligations.LatchesAdvanceOneStage : Prop :=
  ∀ s t : State, s.halted = none → step s = .next t → t.halted = none →
    (∃ w, iMemRead s s.pc = .ok w ∧ t.fd = some { pc := s.pc, word := w }) ∧
    (s.fd = none → t.de = none) ∧
    (∀ f, s.fd = some f → ∃ i, decode f.word = .ok i ∧ t.de = some { pc := f.pc, dec := i }) ∧
    (s.de = none → t.em = none) ∧
    (∀ d, s.de = some d → ∃ e, t.em = some e ∧ e.pc = d.pc ∧ e.uop = d.dec.uop) ∧
    (s.em = none → t.mw = none) ∧
    (∀ e, s.em = some e → ∃ m, t.mw = some m ∧ m.pc = e.pc)

/-- R109 and R180: when one or more stages raise a fatal error, the engine halts with the oldest stage's one: Writeback's
write commits, MemAccess's store commits unless MemAccess is that stage, the latches are emptied and PC is unchanged. When
no stage raises one, the engine does not halt. That the record of a failed fetch names the PC it failed at is the model's
reading (log 16). -/
def Obligations.OldestFatalErrorHalts : Prop :=
  ∀ s t : State, s.halted = none → step s = .next t →
    (∀ f rest, fatalErrors s = f :: rest →
      Halts s t f.error f.stage f.pc (if f.stage = .memAccess then s.dmem else commitStore s)) ∧
    (fatalErrors s = [] → t.halted = none)

/-- R112: a shutdown of the running engine empties the latches and sets the record {Shutdown, stage none, tick}; everything
else keeps its value, and a tick after it changes nothing. -/
def Obligations.ShutdownDrainsAndStops : Prop :=
  ∀ s : State, s.halted = none →
    shutdown s = { s with
      fd := none
      de := none
      em := none
      mw := none
      halted := some { error := .shutdown, stage := none, tick := s.tick, pc := none } } ∧
    step (shutdown s) = .next (shutdown s)

/-- Engine start, as far as the spec gives it (R26, R31, R32, R33, R18): nothing is said of the values logs 1 to 4 choose. -/
def Obligations.EngineStartState : Prop :=
  State.reset.pc = 0x00000000#32 ∧ State.reset.fd = none ∧ State.reset.de = none ∧ State.reset.em = none ∧
  State.reset.mw = none ∧ State.reset.halted = none ∧ State.reset.tick = 0 ∧ State.reset.x 0 = 0

/-- The invariant of the core holds of `State.reset`, of every state that a launch answers (R192, R195), whatever its
image and inputs, and a shutdown keeps it (R112): with `EveryTickKeepsInvariant` it holds throughout every run. The sizes
and contents of `State.reset` are the model's choices (logs 1 to 4), the form of a launch's inputs is log 15, a shutdown
of a halted engine log 14. -/
def Obligations.EngineStartSatisfiesInvariant : Prop :=
  Inv State.reset ∧
  (∀ (p : Params) (path : String) (image : Option (List Byte)) (dmemInit imemFill : List Host.Cell) (s : State),
    launch p path image dmemInit imemFill = .next s → Inv s) ∧
  ∀ s : State, Inv s → Inv (shutdown s)

/-- Every tick keeps the invariant of the core, from every state that satisfies it: canonical memories inside their ranges,
x0's slot 0, an aligned PC, decoded instructions well-formed, payloads consistent, empty latches once halted. -/
def Obligations.EveryTickKeepsInvariant : Prop :=
  ∀ s t : State, Inv s → step s = .next t → Inv t

/-- R24 (the spec's own inference): `PC[1:0]` = 0 holds at reset and is kept by every tick, and the alignment check of the
fetch never fires; a taken control transfer to any other target halts the engine, with the record MisalignedTarget at
Execute unless the older MemAccess raises a fatal error. -/
def Obligations.ProgramCounterStaysAligned : Prop :=
  State.reset.pc.toNat % 4 = 0 ∧
  (∀ s : State, s.pc.toNat % 4 = 0 →
    (s.pc + 4#32).toNat % 4 = 0 ∧ (∀ t, step s = .next t → t.pc.toNat % 4 = 0) ∧
    iMemRead s s.pc ≠ .error (.misaligned s.pc)) ∧
  ∀ (s t : State) (d : DELatch) (target : Word), s.halted = none → s.de = some d →
    seqTarget d.pc d.dec { regs := s.regs, dmem := s.dmem } = some target → target.toNat % 4 ≠ 0 →
    step s = .next t → t.halted ≠ none ∧ t.pc = s.pc ∧
      (memFault s = none → t.halted = some { error := .misalignedTarget target, stage := some .execute,
                                             tick := s.tick + 1, pc := some d.pc })

/-- The frame of every instruction, in the tick in which it is in Execute (R104, R105, R107, R58): IMEM and the sizes never
change; the only register that changes is the one Writeback writes for the instruction in MW; the only bytes of DMEM that
change are those MemAccess stores for the instruction in EM. -/
def Obligations.InstructionTickFrame : Prop :=
  ∀ (i : Instr) (s t : State), exec i s = .next t →
    t.imem = s.imem ∧ t.params = s.params ∧
    (∀ r, (∀ v, wbThisTick s.mw ≠ some (r, v)) → t.x r = s.x r) ∧
    (∀ a : Nat, (∀ p n v, storeThisTick s = some (p, n, v) → a < p ∨ p + n ≤ a) → t.dmem.read a = s.dmem.read a)

/-- R18: x0 reads as 0 and is never written, whatever a tick does. -/
def Obligations.RegisterZeroIsHardWired : Prop :=
  ∀ s t : State, step s = .next t →
    t.x 0 = 0 ∧ t.regs[0] = s.regs[0] ∧ ∀ (f : RegFile) (v : Word), writeReg f 0 v = f ∧ readReg f 0 = 0

/-- When the settled state arrives (R104, R105, R202): after one more tick without a halt DMEM holds it, after two the
registers do. -/
def Obligations.SettledStateArrives : Prop :=
  ∀ s t u : State, s.halted = none → step s = .next t → t.halted = none → step t = .next u → u.halted = none →
    t.dmem = (settled s).dmem ∧ u.regs = (settled s).regs

/-- R197: the result of an instruction in Execute is not seen by the two instructions after it. Two states that differ only
in the instruction in Execute have the same registers after one tick and after two, as long as neither halts; in the
third tick the write of the instruction commits. -/
def Obligations.ResultsAreSeenThreeSlotsLater : Prop :=
  (∀ (s s1 s2 t1 t2 : State) (d : Option DELatch), s.halted = none →
    step s = .next s1 → s1.halted = none → step s1 = .next s2 → s2.halted = none →
    step { s with de := d } = .next t1 → t1.halted = none → step t1 = .next t2 → t2.halted = none →
    s1.regs = t1.regs ∧ s2.regs = t2.regs) ∧
  (∀ (s s1 s2 s3 : State), s.halted = none →
    step s = .next s1 → s1.halted = none → step s1 = .next s2 → s2.halted = none → step s2 = .next s3 →
    s3.halted = none → s3.regs = (settled s1).regs)

/-- One tick of the pipeline is one sequential step (R200): when the instruction in Execute reads no register that is still
to be written, and its own access (in the next tick) is no error, the settled state after the tick is what its rule gives
on the settled state before, and the next fetch is from its target if it is a taken transfer. A tick with an empty DE
leaves the settled state. -/
def Obligations.TickRefinesSequentialExecution : Prop :=
  (∀ (s t : State) (d : DELatch), s.halted = none → s.de = some d → hazardFree s d.dec = true →
    step s = .next t → t.halted = none → memFault t = none →
    settled t = seqExec d.pc d.dec (settled s) ∧
    t.pc = (seqTarget d.pc d.dec (settled s)).getD (s.pc + 4#32)) ∧
  (∀ s t : State, s.halted = none → s.de = none → step s = .next t → t.halted = none →
    settled t = settled s ∧ t.pc = s.pc + 4#32)

/-- R200: a hazard-free run is sequential execution. From a state with empty EM and MW, the instructions that are in Execute
in the next n ticks, executed one after the other on the registers and DMEM, give the registers two ticks later and DMEM
one tick later. -/
def Obligations.HazardFreeRunsAreSequential : Prop :=
  ∀ (n : Nat) (s t u : State), s.em = none → s.mw = none → HazardFreeRun n s →
    RunsTo (n + 1) s t → RunsTo (n + 2) s u →
    t.dmem = (seqRun (executed n s) { regs := s.regs, dmem := s.dmem }).dmem ∧
    u.regs = (seqRun (executed n s) { regs := s.regs, dmem := s.dmem }).regs

/-! ## Memories -/

/-- R41: instruction fetch; both errors are fatal errors of the Fetch stage. That a word is four bytes of IMEM,
little-endian, is the model's reading (log 4), and so is the pc of a failed fetch (log 16). -/
def Obligations.InstructionMemoryRead : Prop :=
  (∀ (s : State) (error : CoreError), iMemRead s s.pc = .error error →
    fetchFault s = some { error := error, stage := .fetch, pc := s.pc }) ∧
  ∀ (s : State) (a : Word),
    (a.toNat % 4 ≠ 0 → iMemRead s a = .error (.misaligned a)) ∧
    (a.toNat % 4 = 0 → s.params.imemWords ≤ a.toNat / 4 → iMemRead s a = .error (.outOfBounds a)) ∧
    (a.toNat % 4 = 0 → a.toNat / 4 < s.params.imemWords →
      iMemRead s a = .ok (wordOfBytes (s.imem.read a.toNat) (s.imem.read (a.toNat + 1)) (s.imem.read (a.toNat + 2))
        (s.imem.read (a.toNat + 3))))

/-- `MemWrite` and `MemRead` of 1, 2 and 4 bytes (R44, R45, R46): byte k of the value stands at the k-th address, every byte
outside keeps its value, the canonical form is kept, and the value reads back, zero-extended. -/
def Obligations.StoredBytesReadBack : Prop :=
  ∀ (m : Memory) (a n : Nat) (v : Word), m.wf = true → n = 1 ∨ n = 2 ∨ n = 4 →
    (writeLE m a n v).wf = true ∧
    (∀ k, k < n → (writeLE m a n v).read (a + k) = v.extractLsb' (8 * k) 8) ∧
    (∀ c, c < a ∨ a + n ≤ c → (writeLE m a n v).read c = m.read c) ∧
    (readLE (writeLE m a n v) a n).toNat = v.toNat % 2 ^ (8 * n)

/-- R47, R48, R180: an access is checked for alignment first, then for bounds, without wrap-around; it passes exactly when
both hold. -/
def Obligations.AccessIsCheckedForAlignmentThenBounds : Prop :=
  ∀ (p : Params) (addr : Word) (w : Width),
    (checkAccess p addr w = some (.misaligned addr) ↔ addr.toNat % widthBytes w ≠ 0) ∧
    (checkAccess p addr w = some (.outOfBounds addr) ↔
      addr.toNat % widthBytes w = 0 ∧ p.dmemBytes < addr.toNat + widthBytes w) ∧
    (checkAccess p addr w = none ↔ addr.toNat % widthBytes w = 0 ∧ addr.toNat + widthBytes w ≤ p.dmemBytes)

/-- R175: a word in Decode that `decode` rejects halts the engine in that tick, unless an older stage raises a fatal error;
MemAccess's store and Writeback's write of that tick commit. -/
def Obligations.DecodeErrorHalts : Prop :=
  ∀ (s : State) (f : FDLatch) (e : DecodeError), s.halted = none → s.fd = some f → decode f.word = .error e →
    memFault s = none → executeFault s = none →
    ∃ t, step s = .next t ∧ Halts s t (.decode e) .decode f.pc (commitStore s)

/-- R178 at Fetch: when `PC[31:2]` is not below `IMEM_WORDS`, Fetch halts the engine with `OutOfBounds(PC)`, unless an older
stage raises a fatal error. That the record's pc is the PC whose fetch failed is the model's reading (log 16). -/
def Obligations.FetchOutOfBoundsHalts : Prop :=
  ∀ s : State, s.halted = none → s.pc.toNat % 4 = 0 → s.params.imemWords ≤ s.pc.toNat / 4 →
    memFault s = none → executeFault s = none → decodeFault s = none →
    ∃ t, step s = .next t ∧ Halts s t (.outOfBounds s.pc) .fetch s.pc (commitStore s)

/-- R193: the loader. IMEM word i is the i-th whole word of the image, little-endian, for every i below the number of whole
words and below `IMEM_WORDS`; every byte past them is that of `imem_fill`, every byte of DMEM that of `dmem_init` (in the form
of log 15; what a byte that neither gives reads as is the choice of logs 3 and 4); all else is as at engine start. -/
def Obligations.LaunchLoadsTheImage : Prop :=
  ∀ (p : Params) (path : String) (image : List Byte) (dmemInit imemFill : List Host.Cell) (s : State),
    launch p path (some image) dmemInit imemFill = .next s →
    (∀ i, (h : 4 * i + 3 < image.length) → i < p.imemWords →
      iMemRead s (BitVec.ofNat 32 (4 * i)) =
        .ok (wordOfBytes (image[4 * i]'(by omega)) (image[4 * i + 1]'(by omega)) (image[4 * i + 2]'(by omega))
          image[4 * i + 3])) ∧
    (∀ a, 4 * min (image.length / 4) p.imemWords ≤ a → s.imem.read a = launchByte (4 * p.imemWords) imemFill a) ∧
    (∀ a, s.dmem.read a = launchByte p.dmemBytes dmemInit a) ∧
    s = { State.reset with params := p, imem := s.imem, dmem := s.dmem } ∧
    s.imem.wf = true ∧ s.dmem.wf = true

/-- R179: an image that cannot be opened is refused, and no engine state exists; every launch with sizes in the ranges of
`00_scope.md` R8 and a readable image starts. -/
def Obligations.LaunchIsRefusedExactlyForAnUnreadableImage : Prop :=
  ∀ (p : Params) (path : String) (dmemInit imemFill : List Host.Cell), p.wf = true →
    launch p path none dmemInit imemFill = .refused (.imageUnreadable path) ∧
    ∀ image, ∃ s, launch p path (some image) dmemInit imemFill = .next s

/-- The very next step runs a placed instruction (log 10): in a state whose PC can be fetched from, it is in Execute, alone,
and the step is `exec` of it. -/
def Obligations.PlacedInstructionRunsInTheNextStep : Prop :=
  ∀ (s : State) (nbits w : Nat) (i : Instr), decodeTableWord nbits w = some i → fetchFault s = none →
    (s.withFetchWord nbits w).de = some { pc := s.pc, dec := i } ∧ Quiet (s.withFetchWord nbits w) ∧
    step (s.withFetchWord nbits w) = exec i (s.withFetchWord nbits w)

/-! ## Computational instructions -/

/-- R118 to R127: the ten register-register instructions, with their encodings, results and flags. -/
def Obligations.RegisterInstructionsCompute : Prop :=
  RegisterRule 0x00#7 0#3 .add (fun a b => a + b) addC addV ∧
  RegisterRule 0x20#7 0#3 .sub (fun a b => a - b) subC subV ∧
  RegisterRule 0x00#7 1#3 .sll (fun a b => a <<< (b.toNat % 32)) clear clear ∧
  RegisterRule 0x00#7 2#3 .slt (fun a b => if a.toInt < b.toInt then 1#32 else 0#32) clear clear ∧
  RegisterRule 0x00#7 3#3 .sltu (fun a b => if a.toNat < b.toNat then 1#32 else 0#32) clear clear ∧
  RegisterRule 0x00#7 4#3 .xor (fun a b => a ^^^ b) clear clear ∧
  RegisterRule 0x00#7 5#3 .srl (fun a b => a >>> (b.toNat % 32)) clear clear ∧
  RegisterRule 0x20#7 5#3 .sra (fun a b => a.sshiftRight (b.toNat % 32)) clear clear ∧
  RegisterRule 0x00#7 6#3 .or (fun a b => a ||| b) clear clear ∧
  RegisterRule 0x00#7 7#3 .and (fun a b => a &&& b) clear clear

/-- R128 to R136: the nine register-immediate instructions, with their encodings, results and flags; a shift word with any
other funct7 is rejected. -/
def Obligations.ImmediateInstructionsCompute : Prop :=
  ImmediateRule 0#3 .addi (fun a b => a + b) addC addV ∧
  ImmediateRule 2#3 .slti (fun a b => if a.toInt < b.toInt then 1#32 else 0#32) clear clear ∧
  ImmediateRule 3#3 .sltiu (fun a b => if a.toNat < b.toNat then 1#32 else 0#32) clear clear ∧
  ImmediateRule 4#3 .xori (fun a b => a ^^^ b) clear clear ∧
  ImmediateRule 6#3 .ori (fun a b => a ||| b) clear clear ∧
  ImmediateRule 7#3 .andi (fun a b => a &&& b) clear clear ∧
  ShiftRule 0x00#7 1#3 .slli (fun a n => a <<< n) ∧
  ShiftRule 0x00#7 5#3 .srli (fun a n => a >>> n) ∧
  ShiftRule 0x20#7 5#3 .srai (fun a n => a.sshiftRight n) ∧
  ∀ (funct7 : BitVec 7) (rs2 rs1 rd : Reg),
    (funct7 ≠ 0x00#7 →
      decode (encodeR 0x13#7 1#3 funct7 rd rs1 rs2) = .error (.invalidFunct 0x13#7 1#3 funct7)) ∧
    (funct7 ≠ 0x00#7 → funct7 ≠ 0x20#7 →
      decode (encodeR 0x13#7 5#3 funct7 rd rs1 rs2) = .error (.invalidFunct 0x13#7 5#3 funct7))

/-- R137, R138: LUI and AUIPC, with their encodings, results and flags. -/
def Obligations.UpperImmediateInstructionsCompute : Prop :=
  ∀ (rd : Reg) (imm20 : BitVec 20),
    decode (imm20 ++ rd ++ 0x37#7) = .ok (.lui rd (imm20 ++ 0#12)) ∧
    decode (imm20 ++ rd ++ 0x17#7) = .ok (.auipc rd (imm20 ++ 0#12)) ∧
    ∀ imm pc s,
      (Ready (.lui rd imm) pc s → Computes (.lui rd imm) pc s rd imm false false) ∧
      (Ready (.auipc rd imm) pc s →
        Computes (.auipc rd imm) pc s rd (pc + imm) (addC pc imm) (addV pc imm))

/-- The flags of R115 say what their names say: C of ADD is the carry out of the unsigned sum and C of SUB is the absence of
a borrow; V is set exactly when the signed result does not fit 32 bits; Z and N are the result's. -/
def Obligations.AluFlagsAreExact : Prop :=
  ∀ a b : Word,
    ((aluFlags .add a b (aluResult .add a b)).c = true ↔ 2 ^ 32 ≤ a.toNat + b.toNat) ∧
    ((aluFlags .add a b (aluResult .add a b)).v = true ↔ (aluResult .add a b).toInt ≠ a.toInt + b.toInt) ∧
    ((aluFlags .sub a b (aluResult .sub a b)).c = true ↔ b.toNat ≤ a.toNat) ∧
    ((aluFlags .sub a b (aluResult .sub a b)).v = true ↔ (aluResult .sub a b).toInt ≠ a.toInt - b.toInt) ∧
    ∀ op, ((aluFlags op a b (aluResult op a b)).z = true ↔ aluResult op a b = 0) ∧
      ((aluFlags op a b (aluResult op a b)).n = true ↔ (aluResult op a b).toInt < 0) ∧
      (op ≠ .add → op ≠ .sub →
        (aluFlags op a b (aluResult op a b)).c = false ∧ (aluFlags op a b (aluResult op a b)).v = false)

/-- R117, the arithmetic laws: ADD, AND, OR and XOR are commutative; ADD and SUB wrap modulo 2^32. -/
def Obligations.AluLawsHold : Prop :=
  ∀ a b : Word,
    (∀ op, op = .add ∨ op = .and ∨ op = .or ∨ op = .xor → aluResult op a b = aluResult op b a) ∧
    (aluResult .add a b).toNat = (a.toNat + b.toNat) % 2 ^ 32 ∧
    ((aluResult .sub a b).toNat : Int) = ((a.toNat : Int) - b.toNat) % 2 ^ 32

/-! ## Control transfer -/

/-- R145, R146: JAL and JALR, with their encodings, link, redirect and target check. -/
def Obligations.JumpsLinkAndRedirect : Prop :=
  (∀ rd imm, fits21 imm = true → decode (encodeJ 0x6F#7 rd imm) = .ok (.jal rd imm)) ∧
  (∀ (rd rs1 : Reg) (imm12 : BitVec 12),
    decode (imm12 ++ rs1 ++ 0#3 ++ rd ++ 0x67#7) = .ok (.jalr rd rs1 (imm12.signExtend 32))) ∧
  (∀ rd imm, JumpRule (.jal rd imm) rd fun pc _ => pc + imm) ∧
  (∀ rd rs1 imm, JumpRule (.jalr rd rs1 imm) rd fun _ s => (s.x rs1 + imm) &&& 0xFFFFFFFE#32)

/-- R147 to R152, with the conditions of R144: the six conditional branches. -/
def Obligations.BranchesRedirectWhenTaken : Prop :=
  BranchRule 0#3 .beq (fun a b => a = b) ∧
  BranchRule 1#3 .bne (fun a b => a ≠ b) ∧
  BranchRule 4#3 .blt (fun a b => a.toInt < b.toInt) ∧
  BranchRule 5#3 .bge (fun a b => a.toInt ≥ b.toInt) ∧
  BranchRule 6#3 .bltu (fun a b => a.toNat < b.toNat) ∧
  BranchRule 7#3 .bgeu (fun a b => a.toNat ≥ b.toNat)

/-- R144, R115: the branch conditions, and that they are those flags of ALU(SUB, a, b); the flag column is the spec's own
inference from R115. -/
def Obligations.BranchConditionsAreSubFlags : Prop :=
  ∀ a b : Word, ∀ f, f = aluFlags .sub a b (aluResult .sub a b) →
    (condEq a b = true ↔ a = b) ∧ (a = b ↔ f.z = true) ∧
    (condNe a b = true ↔ a ≠ b) ∧ (a ≠ b ↔ f.z = false) ∧
    (condLt a b = true ↔ a.toInt < b.toInt) ∧ (a.toInt < b.toInt ↔ f.n ≠ f.v) ∧
    (condGe a b = true ↔ a.toInt ≥ b.toInt) ∧ (a.toInt ≥ b.toInt ↔ f.n = f.v) ∧
    (condLtu a b = true ↔ a.toNat < b.toNat) ∧ (a.toNat < b.toNat ↔ f.c = false) ∧
    (condGeu a b = true ↔ a.toNat ≥ b.toNat) ∧ (a.toNat ≥ b.toNat ↔ f.c = true)

/-- R139, R106: the two instructions behind a taken control transfer are not cancelled: the one in Decode goes on to Execute
and the one being fetched goes on to Decode, and the fetch of the next tick is from the target. -/
def Obligations.ShadowSlotsExecute : Prop :=
  ∀ (s t u : State) (d : DELatch) (f : FDLatch) (target : Word), s.halted = none →
    s.de = some d → s.fd = some f → seqTarget d.pc d.dec { regs := s.regs, dmem := s.dmem } = some target →
    step s = .next t → t.halted = none → step t = .next u → u.halted = none →
    (∃ i, decode f.word = .ok i ∧ t.de = some { pc := f.pc, dec := i } ∧ step t = exec i t) ∧
    (∃ w i, iMemRead s s.pc = .ok w ∧ decode w = .ok i ∧ u.de = some { pc := s.pc, dec := i }) ∧
    (∃ w, iMemRead s target = .ok w ∧ u.fd = some { pc := target, word := w })

/-! ## Loads and stores -/

/-- R157 to R161: the five loads, with their encodings, extensions and errors. -/
def Obligations.LoadsReadAndExtend : Prop :=
  LoadRule 0#3 .lb 1 (fun v => (v.extractLsb' 0 8).signExtend 32) ∧
  LoadRule 1#3 .lh 2 (fun v => (v.extractLsb' 0 16).signExtend 32) ∧
  LoadRule 2#3 .lw 4 (fun v => v) ∧
  LoadRule 4#3 .lbu 1 (fun v => (v.extractLsb' 0 8).zeroExtend 32) ∧
  LoadRule 5#3 .lhu 2 (fun v => (v.extractLsb' 0 16).zeroExtend 32)

/-- R162 to R164: the three stores, with their encodings and errors; `StoredBytesReadBack` says which bytes `writeLE`
changes. -/
def Obligations.StoresWriteTheirBytes : Prop :=
  StoreRule 0#3 .sb 1 ∧ StoreRule 1#3 .sh 2 ∧ StoreRule 2#3 .sw 4

/-- R55, R199: every load sees, byte by byte, the last store of any width before it, the one right in front of it
included: no memory hazard. -/
def Obligations.LoadSeesTheStoreBeforeIt : Prop :=
  LoadSeesLastStores .lb 1 (fun v => (v.extractLsb' 0 8).signExtend 32) ∧
  LoadSeesLastStores .lh 2 (fun v => (v.extractLsb' 0 16).signExtend 32) ∧
  LoadSeesLastStores .lw 4 (fun v => v) ∧
  LoadSeesLastStores .lbu 1 (fun v => (v.extractLsb' 0 8).zeroExtend 32) ∧
  LoadSeesLastStores .lhu 2 (fun v => (v.extractLsb' 0 16).zeroExtend 32)

/-! ## FENCE, system, RV32M and RV32A -/

/-- R165: FENCE, with its encoding: no register, no memory, no redirect, no diagnostic, `noop` = 0; with any other funct3
(FENCE.I) the word is rejected. -/
def Obligations.FenceHasNoEffect : Prop :=
  ∀ rd rs1 : Reg,
    (∀ imm12 : BitVec 12,
      decode (imm12 ++ rs1 ++ 0#3 ++ rd ++ 0x0F#7) = .ok (.fence rd rs1 (imm12.signExtend 32))) ∧
    (∀ (imm12 : BitVec 12) (funct3 : BitVec 3), funct3 ≠ 0#3 →
      decode (imm12 ++ rs1 ++ funct3 ++ rd ++ 0x0F#7) = .error (.invalidFunct 0x0F#7 funct3 (imm12.extractLsb' 5 7))) ∧
    ∀ imm pc s, Ready (.fence rd rs1 imm) pc s →
      ∃ t e, exec (.fence rd rs1 imm) s = .next t ∧ Advances s t (s.pc + 4#32) ∧ t.diags = s.diags ∧
        t.em = some e ∧ e.pc = pc ∧ e.uop = .fence ∧ e.rd = 0#5 ∧ e.noop = false ∧ settled t = settled s

/-- R166, R167: ECALL and EBREAK are recoverable no-ops; their rd and rs1 are not tested. -/
def Obligations.EnvironmentInstructionsAreNoops : Prop :=
  ∀ rd rs1 : Reg,
    decode (0x000#12 ++ rs1 ++ 0#3 ++ rd ++ 0x73#7) = .ok (.ecall rd rs1 0#32) ∧
    decode (0x001#12 ++ rs1 ++ 0#3 ++ rd ++ 0x73#7) = .ok (.ebreak rd rs1 1#32) ∧
    ∀ imm, NoopRule (.ecall rd rs1 imm) ∧ NoopRule (.ebreak rd rs1 imm)

/-- R171, R169: the eight RV32M instructions decode and are recoverable no-ops: no register is written, whatever the operands
are. -/
def Obligations.MultiplyDivideInstructionsAreNoops : Prop :=
  MulDivRule 0#3 .mul ∧ MulDivRule 1#3 .mulh ∧ MulDivRule 2#3 .mulhsu ∧ MulDivRule 3#3 .mulhu ∧
  MulDivRule 4#3 .div ∧ MulDivRule 5#3 .divu ∧ MulDivRule 6#3 .rem ∧ MulDivRule 7#3 .remu

/-- R172, R169: the eleven RV32A instructions decode, whatever `aq` and `rl` are, and are recoverable no-ops: no memory is
touched and no reservation exists; any other funct3 or funct5 is rejected. -/
def Obligations.AtomicInstructionsAreNoops : Prop :=
  AtomicRule 0b00010#5 .lrW ∧ AtomicRule 0b00011#5 .scW ∧ AtomicRule 0b00001#5 .amoswapW ∧
  AtomicRule 0b00000#5 .amoaddW ∧ AtomicRule 0b00100#5 .amoxorW ∧ AtomicRule 0b01100#5 .amoandW ∧
  AtomicRule 0b01000#5 .amoorW ∧ AtomicRule 0b10000#5 .amominW ∧ AtomicRule 0b10100#5 .amomaxW ∧
  AtomicRule 0b11000#5 .amominuW ∧ AtomicRule 0b11100#5 .amomaxuW ∧
  ∀ (funct7 : BitVec 7) (funct3 : BitVec 3) (rs2 rs1 rd : Reg),
    (funct3 ≠ 2#3 ∨ funct7.extractLsb' 2 5 ∉ knownFunct5) →
    decode (encodeR 0x2F#7 funct3 funct7 rd rs1 rs2) = .error (.invalidFunct 0x2F#7 funct3 funct7)

/-- R103, R110, R116: an Unimplemented instruction reads no register: its tick does the same whatever the operand fields
are. -/
def Obligations.UnimplementedInstructionsReadNoOperands : Prop :=
  ∀ (i j : Instr) (s : State), unimplemented i.uop = true → i.uop = j.uop → exec i s = exec j s

/-! ## The end of a run -/

/-- R196, R111: the end state of a run is the state of the one tick that halts it. It is unique, its record carries that
tick's number, and no later tick changes it; the same holds of the other end, a host's shutdown after `n` ticks. -/
def Obligations.EndStateIsTheHaltingTicks : Prop :=
  (∀ (n : Nat) (s e : State), HaltsAfter n s e →
    e.tick = s.tick + n + 1 ∧ (∃ h, e.halted = some h ∧ h.tick = s.tick + n + 1) ∧
    (∀ m, Host.Core.run Sys2Proof.core (n + 1 + m) s = .next e) ∧
    ∀ m f, HaltsAfter m s f → m = n ∧ f = e) ∧
  (∀ (n : Nat) (s e : State), ShutDownAfter n s e →
    e.halted = some { error := .shutdown, stage := none, tick := s.tick + n, pc := none } ∧ e.tick = s.tick + n) ∧
  ∀ s e : State, EndState s e → e.halted ≠ none ∧ ∀ m, Host.Core.run Sys2Proof.core m e = .next e

/-- R196: a run that meets the convention ends by it, whatever stands in IMEM past the word 0x00000000, and no result is
lost: the end state's registers and DMEM are those to which the state before the third of the four fetches, with the
last instruction before the NOPs in EM, settles. -/
def Obligations.ConventionalProgramsEnd : Prop :=
  ∀ (s : State) (k n : Nat), ConventionalEnd s k n →
    ∃ e, HaltsAfter (n + 4) s e ∧ EndedByConvention s k e ∧
      e.halted = some { error := .decode (.invalidOpcode 0#7), stage := some .decode, tick := s.tick + n + 5,
                        pc := some (wordAddress k) } ∧
      ∀ u, RunsTo (n + 2) s u → e.regs = (settled u).regs ∧ e.dmem = (settled u).dmem

/-- R196: a launched program that takes no control transfer, is not halted by an error of its own and ends with the
conventional words at `k - 3` to `k` halts in tick `k + 2`. -/
def Obligations.StraightLineProgramsHaltInTickKPlusTwo : Prop :=
  ∀ (p : Params) (path : String) (image : List Byte) (dmemInit imemFill : List Host.Cell) (s u : State) (k : Nat),
    launch p path (some image) dmemInit imemFill = .next s → 3 ≤ k → k < 2 ^ 30 →
    (∀ j, k - 3 ≤ j → j < k → iMemRead s (wordAddress j) = .ok 0x00000013#32) →
    iMemRead s (wordAddress k) = .ok 0x00000000#32 → RunsTo k s u →
    (∀ j t d, j < k → RunsTo j s t → t.de = some d →
      seqTarget d.pc d.dec { regs := t.regs, dmem := t.dmem } = none) →
    ∃ e, HaltsAfter (k + 1) s e ∧ EndedByConvention s k e ∧ e.tick = k + 2
end

