-- ==== Sys2Proof/Laws/Decode.lean ====
section
/-! SUPPORT. The fields and immediates of an encoded word (`30_encoding.md` R61 to R63): what the decoder extracts from what
the encoder builds. -/

namespace Sys2Proof

/-! R-type -/

@[simp] theorem opcodeOf_encodeR (o : BitVec 7) (f3 : BitVec 3) (f7 : BitVec 7) (rd rs1 rs2 : Reg) :
    opcodeOf (encodeR o f3 f7 rd rs1 rs2) = o := by
  ext i hi
  simp [opcodeOf, encodeR]
  grind

@[simp] theorem rdOf_encodeR (o : BitVec 7) (f3 : BitVec 3) (f7 : BitVec 7) (rd rs1 rs2 : Reg) :
    rdOf (encodeR o f3 f7 rd rs1 rs2) = rd := by
  ext i hi
  simp [rdOf, encodeR]
  grind

@[simp] theorem funct3Of_encodeR (o : BitVec 7) (f3 : BitVec 3) (f7 : BitVec 7) (rd rs1 rs2 : Reg) :
    funct3Of (encodeR o f3 f7 rd rs1 rs2) = f3 := by
  ext i hi
  simp [funct3Of, encodeR]
  grind

@[simp] theorem rs1Of_encodeR (o : BitVec 7) (f3 : BitVec 3) (f7 : BitVec 7) (rd rs1 rs2 : Reg) :
    rs1Of (encodeR o f3 f7 rd rs1 rs2) = rs1 := by
  ext i hi
  simp [rs1Of, encodeR]
  grind

@[simp] theorem rs2Of_encodeR (o : BitVec 7) (f3 : BitVec 3) (f7 : BitVec 7) (rd rs1 rs2 : Reg) :
    rs2Of (encodeR o f3 f7 rd rs1 rs2) = rs2 := by
  ext i hi
  simp [rs2Of, encodeR]
  grind

@[simp] theorem funct7Of_encodeR (o : BitVec 7) (f3 : BitVec 3) (f7 : BitVec 7) (rd rs1 rs2 : Reg) :
    funct7Of (encodeR o f3 f7 rd rs1 rs2) = f7 := by
  ext i hi
  simp [funct7Of, encodeR]
  grind

/-! I-type -/

@[simp] theorem opcodeOf_encodeI (o : BitVec 7) (f3 : BitVec 3) (rd rs1 : Reg) (imm : Word) :
    opcodeOf (encodeI o f3 rd rs1 imm) = o := by
  ext i hi
  simp [opcodeOf, encodeI]
  grind

@[simp] theorem rdOf_encodeI (o : BitVec 7) (f3 : BitVec 3) (rd rs1 : Reg) (imm : Word) :
    rdOf (encodeI o f3 rd rs1 imm) = rd := by
  ext i hi
  simp [rdOf, encodeI]
  grind

@[simp] theorem funct3Of_encodeI (o : BitVec 7) (f3 : BitVec 3) (rd rs1 : Reg) (imm : Word) :
    funct3Of (encodeI o f3 rd rs1 imm) = f3 := by
  ext i hi
  simp [funct3Of, encodeI]
  grind

@[simp] theorem rs1Of_encodeI (o : BitVec 7) (f3 : BitVec 3) (rd rs1 : Reg) (imm : Word) :
    rs1Of (encodeI o f3 rd rs1 imm) = rs1 := by
  ext i hi
  simp [rs1Of, encodeI]
  grind

@[simp] theorem funct7Of_encodeI (o : BitVec 7) (f3 : BitVec 3) (rd rs1 : Reg) (imm : Word) :
    funct7Of (encodeI o f3 rd rs1 imm) = imm.extractLsb' 5 7 := by
  ext i hi
  simp [funct7Of, encodeI]
  grind

@[simp] theorem funct12Of_encodeI (o : BitVec 7) (f3 : BitVec 3) (rd rs1 : Reg) (imm : Word) :
    funct12Of (encodeI o f3 rd rs1 imm) = imm.extractLsb' 0 12 := by
  ext i hi
  simp [funct12Of, encodeI]
  grind

/-! S-type -/

@[simp] theorem opcodeOf_encodeS (o : BitVec 7) (f3 : BitVec 3) (rs1 rs2 : Reg) (imm : Word) :
    opcodeOf (encodeS o f3 rs1 rs2 imm) = o := by
  ext i hi
  simp [opcodeOf, encodeS]
  grind

@[simp] theorem funct3Of_encodeS (o : BitVec 7) (f3 : BitVec 3) (rs1 rs2 : Reg) (imm : Word) :
    funct3Of (encodeS o f3 rs1 rs2 imm) = f3 := by
  ext i hi
  simp [funct3Of, encodeS]
  grind

@[simp] theorem rs1Of_encodeS (o : BitVec 7) (f3 : BitVec 3) (rs1 rs2 : Reg) (imm : Word) :
    rs1Of (encodeS o f3 rs1 rs2 imm) = rs1 := by
  ext i hi
  simp [rs1Of, encodeS]
  grind

@[simp] theorem rs2Of_encodeS (o : BitVec 7) (f3 : BitVec 3) (rs1 rs2 : Reg) (imm : Word) :
    rs2Of (encodeS o f3 rs1 rs2 imm) = rs2 := by
  ext i hi
  simp [rs2Of, encodeS]
  grind

/-! B-type -/

@[simp] theorem opcodeOf_encodeB (o : BitVec 7) (f3 : BitVec 3) (rs1 rs2 : Reg) (imm : Word) :
    opcodeOf (encodeB o f3 rs1 rs2 imm) = o := by
  ext i hi
  simp [opcodeOf, encodeB]
  grind

@[simp] theorem funct3Of_encodeB (o : BitVec 7) (f3 : BitVec 3) (rs1 rs2 : Reg) (imm : Word) :
    funct3Of (encodeB o f3 rs1 rs2 imm) = f3 := by
  ext i hi
  simp [funct3Of, encodeB]
  grind

@[simp] theorem rs1Of_encodeB (o : BitVec 7) (f3 : BitVec 3) (rs1 rs2 : Reg) (imm : Word) :
    rs1Of (encodeB o f3 rs1 rs2 imm) = rs1 := by
  ext i hi
  simp [rs1Of, encodeB]
  grind

@[simp] theorem rs2Of_encodeB (o : BitVec 7) (f3 : BitVec 3) (rs1 rs2 : Reg) (imm : Word) :
    rs2Of (encodeB o f3 rs1 rs2 imm) = rs2 := by
  ext i hi
  simp [rs2Of, encodeB]
  grind

/-! U-type -/

@[simp] theorem opcodeOf_encodeU (o : BitVec 7) (rd : Reg) (imm : Word) :
    opcodeOf (encodeU o rd imm) = o := by
  ext i hi
  simp [opcodeOf, encodeU]
  grind

@[simp] theorem rdOf_encodeU (o : BitVec 7) (rd : Reg) (imm : Word) :
    rdOf (encodeU o rd imm) = rd := by
  ext i hi
  simp [rdOf, encodeU]
  grind

/-! J-type -/

@[simp] theorem opcodeOf_encodeJ (o : BitVec 7) (rd : Reg) (imm : Word) :
    opcodeOf (encodeJ o rd imm) = o := by
  ext i hi
  simp [opcodeOf, encodeJ]
  grind

@[simp] theorem rdOf_encodeJ (o : BitVec 7) (rd : Reg) (imm : Word) :
    rdOf (encodeJ o rd imm) = rd := by
  ext i hi
  simp [rdOf, encodeJ]
  grind


/-! Immediates: each format's assembly gives back the immediate that was encoded, if the format can hold it. -/

theorem fits12_eq {imm : Word} (h : fits12 imm = true) : (imm.extractLsb' 0 12).signExtend 32 = imm := by
  simpa [fits12] using h

theorem fits13_eq {imm : Word} (h : fits13 imm = true) :
    (imm.extractLsb' 0 13).signExtend 32 = imm ∧ imm.extractLsb' 0 1 = 0#1 := by
  simpa [fits13] using h

theorem fits21_eq {imm : Word} (h : fits21 imm = true) :
    (imm.extractLsb' 0 21).signExtend 32 = imm ∧ imm.extractLsb' 0 1 = 0#1 := by
  simpa [fits21] using h

@[simp] theorem immI_encodeI (o : BitVec 7) (f3 : BitVec 3) (rd rs1 : Reg) (imm : Word) :
    immI (encodeI o f3 rd rs1 imm) = (imm.extractLsb' 0 12).signExtend 32 := by
  have h : (encodeI o f3 rd rs1 imm).extractLsb' 20 12 = imm.extractLsb' 0 12 := funct12Of_encodeI o f3 rd rs1 imm
  rw [immI, h]

@[simp] theorem immS_encodeS (o : BitVec 7) (f3 : BitVec 3) (rs1 rs2 : Reg) (imm : Word) :
    immS (encodeS o f3 rs1 rs2 imm) = (imm.extractLsb' 0 12).signExtend 32 := by
  have h : (encodeS o f3 rs1 rs2 imm).extractLsb' 25 7 ++ (encodeS o f3 rs1 rs2 imm).extractLsb' 7 5
      = imm.extractLsb' 0 12 := by
    ext i hi
    simp [encodeS]
    grind
  rw [immS, h]

theorem immB_encodeB (o : BitVec 7) (f3 : BitVec 3) (rs1 rs2 : Reg) {imm : Word} (h0 : imm.extractLsb' 0 1 = 0#1) :
    immB (encodeB o f3 rs1 rs2 imm) = (imm.extractLsb' 0 13).signExtend 32 := by
  have e0 : imm.getLsbD 0 = false := by simpa using congrArg (fun b : BitVec 1 => b.getLsbD 0) h0
  have h : (encodeB o f3 rs1 rs2 imm).extractLsb' 31 1 ++ (encodeB o f3 rs1 rs2 imm).extractLsb' 7 1
      ++ (encodeB o f3 rs1 rs2 imm).extractLsb' 25 6 ++ (encodeB o f3 rs1 rs2 imm).extractLsb' 8 4 ++ 0#1
      = imm.extractLsb' 0 13 := by
    ext i hi
    simp [encodeB]
    grind
  rw [immB, h]

@[simp] theorem immU_encodeU (o : BitVec 7) (rd : Reg) (imm : Word) :
    immU (encodeU o rd imm) = imm.extractLsb' 12 20 ++ 0#12 := by
  have h : (encodeU o rd imm).extractLsb' 12 20 = imm.extractLsb' 12 20 := by
    ext i hi
    simp [encodeU]
    grind
  rw [immU, h]

theorem immJ_encodeJ (o : BitVec 7) (rd : Reg) {imm : Word} (h0 : imm.extractLsb' 0 1 = 0#1) :
    immJ (encodeJ o rd imm) = (imm.extractLsb' 0 21).signExtend 32 := by
  have e0 : imm.getLsbD 0 = false := by simpa using congrArg (fun b : BitVec 1 => b.getLsbD 0) h0
  have h : (encodeJ o rd imm).extractLsb' 31 1 ++ (encodeJ o rd imm).extractLsb' 12 8
      ++ (encodeJ o rd imm).extractLsb' 20 1 ++ (encodeJ o rd imm).extractLsb' 21 10 ++ 0#1
      = imm.extractLsb' 0 21 := by
    ext i hi
    simp [encodeJ]
    grind
  rw [immJ, h]

@[simp] theorem funct5Of_encodeR (o : BitVec 7) (f3 : BitVec 3) (f7 : BitVec 7) (rd rs1 rs2 : Reg) :
    funct5Of (encodeR o f3 f7 rd rs1 rs2) = f7.extractLsb' 2 5 := by
  ext i hi
  simp [funct5Of, encodeR]
  grind

/-! The other way round: the fields of an assembled immediate are the word's bits, and a word is the encoding of its own
fields. -/

/-- The bits below a sign extension. -/
theorem extractLsb'_signExtend {n : Nat} (v : BitVec n) {s l : Nat} (h : s + l ≤ n) (hn : n ≤ 32) :
    (v.signExtend 32).extractLsb' s l = v.extractLsb' s l := by
  ext i hi
  simp [BitVec.getLsbD_signExtend]
  grind

/-- The immediate of an I-type word is the sign-extended w[31:20], which SYSTEM decodes by (R63, R81). -/
theorem immI_eq_funct12 (w : Word) : immI w = (funct12Of w).signExtend 32 := rfl

theorem immI_field (w : Word) : (immI w).extractLsb' 0 12 = w.extractLsb' 20 12 := by
  ext i hi
  simp [immI, BitVec.getLsbD_signExtend]
  grind

theorem immS_field_high (w : Word) : (immS w).extractLsb' 5 7 = w.extractLsb' 25 7 := by
  unfold immS
  rw [extractLsb'_signExtend _ (by decide) (by decide)]
  ext i hi
  simp
  grind

theorem immS_field_low (w : Word) : (immS w).extractLsb' 0 5 = w.extractLsb' 7 5 := by
  unfold immS
  rw [extractLsb'_signExtend _ (by decide) (by decide)]
  ext i hi
  simp
  grind

theorem immB_field_12 (w : Word) : (immB w).extractLsb' 12 1 = w.extractLsb' 31 1 := by
  unfold immB
  rw [extractLsb'_signExtend _ (by decide) (by decide)]
  ext i hi
  simp
  grind

theorem immB_field_5 (w : Word) : (immB w).extractLsb' 5 6 = w.extractLsb' 25 6 := by
  unfold immB
  rw [extractLsb'_signExtend _ (by decide) (by decide)]
  ext i hi
  simp
  grind

theorem immB_field_1 (w : Word) : (immB w).extractLsb' 1 4 = w.extractLsb' 8 4 := by
  unfold immB
  rw [extractLsb'_signExtend _ (by decide) (by decide)]
  ext i hi
  simp
  grind

theorem immB_field_11 (w : Word) : (immB w).extractLsb' 11 1 = w.extractLsb' 7 1 := by
  unfold immB
  rw [extractLsb'_signExtend _ (by decide) (by decide)]
  ext i hi
  simp
  grind

theorem immB_field_0 (w : Word) : (immB w).extractLsb' 0 1 = 0#1 := by
  unfold immB
  rw [extractLsb'_signExtend _ (by decide) (by decide)]
  ext i hi
  simp
  grind

theorem immJ_field_20 (w : Word) : (immJ w).extractLsb' 20 1 = w.extractLsb' 31 1 := by
  unfold immJ
  rw [extractLsb'_signExtend _ (by decide) (by decide)]
  ext i hi
  simp
  grind

theorem immJ_field_1 (w : Word) : (immJ w).extractLsb' 1 10 = w.extractLsb' 21 10 := by
  unfold immJ
  rw [extractLsb'_signExtend _ (by decide) (by decide)]
  ext i hi
  simp
  grind

theorem immJ_field_11 (w : Word) : (immJ w).extractLsb' 11 1 = w.extractLsb' 20 1 := by
  unfold immJ
  rw [extractLsb'_signExtend _ (by decide) (by decide)]
  ext i hi
  simp
  grind

theorem immJ_field_12 (w : Word) : (immJ w).extractLsb' 12 8 = w.extractLsb' 12 8 := by
  unfold immJ
  rw [extractLsb'_signExtend _ (by decide) (by decide)]
  ext i hi
  simp
  grind

theorem immJ_field_0 (w : Word) : (immJ w).extractLsb' 0 1 = 0#1 := by
  unfold immJ
  rw [extractLsb'_signExtend _ (by decide) (by decide)]
  ext i hi
  simp
  grind

theorem immU_field (w : Word) : (immU w).extractLsb' 12 20 = w.extractLsb' 12 20 := by
  unfold immU
  ext i hi
  simp
  grind

/-- A sign-extended 12-bit field is in range. -/
theorem fits12_signExtend (v : BitVec 12) : fits12 (v.signExtend 32) = true := by
  rw [fits12, extractLsb'_signExtend _ (by decide) (by decide), beq_iff_eq]
  congr 1
  ext i hi
  simp

theorem encodeR_fields (w : Word) :
    encodeR (opcodeOf w) (funct3Of w) (funct7Of w) (rdOf w) (rs1Of w) (rs2Of w) = w := by
  ext i hi
  simp [encodeR, opcodeOf, funct3Of, funct7Of, rdOf, rs1Of, rs2Of]
  grind

theorem encodeI_fields (w : Word) : encodeI (opcodeOf w) (funct3Of w) (rdOf w) (rs1Of w) (immI w) = w := by
  rw [encodeI, immI_field]
  ext i hi
  simp [opcodeOf, funct3Of, rdOf, rs1Of]
  grind

theorem encodeS_fields (w : Word) : encodeS (opcodeOf w) (funct3Of w) (rs1Of w) (rs2Of w) (immS w) = w := by
  rw [encodeS, immS_field_high, immS_field_low]
  ext i hi
  simp [opcodeOf, funct3Of, rs1Of, rs2Of]
  grind

theorem encodeB_fields (w : Word) : encodeB (opcodeOf w) (funct3Of w) (rs1Of w) (rs2Of w) (immB w) = w := by
  rw [encodeB, immB_field_12, immB_field_5, immB_field_1, immB_field_11]
  ext i hi
  simp [opcodeOf, funct3Of, rs1Of, rs2Of]
  grind

theorem encodeU_fields (w : Word) : encodeU (opcodeOf w) (rdOf w) (immU w) = w := by
  rw [encodeU, immU_field]
  ext i hi
  simp [opcodeOf, rdOf]
  grind

theorem encodeJ_fields (w : Word) : encodeJ (opcodeOf w) (rdOf w) (immJ w) = w := by
  rw [encodeJ, immJ_field_20, immJ_field_1, immJ_field_11, immJ_field_12]
  ext i hi
  simp [opcodeOf, rdOf]
  grind

/-- A field that a mask keeps. -/
theorem extractLsb'_and_mask (w : Word) {m : Word} {s l : Nat} (h : m.extractLsb' s l = BitVec.allOnes l) :
    (w &&& m).extractLsb' s l = w.extractLsb' s l := by
  rw [BitVec.extractLsb'_and, h, BitVec.and_allOnes]

/-- An AMO word is the encoding of its fields but for `aq` and `rl`. -/
theorem encodeR_fields_amo (w : Word) :
    encodeR (opcodeOf w) (funct3Of w) (funct5Of w ++ 0#2) (rdOf w) (rs1Of w) (rs2Of w) = w &&& 0xF9FFFFFF#32 := by
  have h7 : funct7Of (w &&& 0xF9FFFFFF#32) = funct5Of w ++ 0#2 := by
    have e : (0xF9FFFFFF#32).extractLsb' 25 7 = ~~~3#7 := by decide
    rw [funct7Of, BitVec.extractLsb'_and, e]
    ext i hi
    simp only [funct5Of]
    interval_cases i <;> simp <;> grind
  rw [← encodeR_fields (w &&& 0xF9FFFFFF#32), h7]
  unfold opcodeOf funct3Of rdOf rs1Of rs2Of
  rw [extractLsb'_and_mask _ (by decide), extractLsb'_and_mask _ (by decide), extractLsb'_and_mask _ (by decide),
    extractLsb'_and_mask _ (by decide), extractLsb'_and_mask _ (by decide)]

end Sys2Proof
end

