-- ==== Sys2Proof/Laws/Memory.lean ====
section
/-! SUPPORT. The memories: reading after writing, the canonical form, the range, and the little-endian accesses. -/

namespace Sys2Proof.Machine

@[simp] theorem Memory.read_nil (a : Nat) : Memory.read [] a = Memory.unlisted := rfl

theorem Memory.read_of_lt {low a : Nat} {m : Memory} (h : m.wfFrom low = true) (ha : a < low) :
    m.read a = Memory.unlisted := by
  induction m generalizing low with
  | nil => rfl
  | cons c m ih =>
    obtain ⟨k, v⟩ := c
    simp only [Memory.wfFrom, Bool.and_eq_true, decide_eq_true_eq] at h
    rw [Memory.read, if_neg (by omega)]
    exact ih h.2 (by omega)

theorem Memory.wfFrom_mono {low low' : Nat} {m : Memory} (h : m.wfFrom low = true) (hl : low' ≤ low) :
    m.wfFrom low' = true := by
  cases m with
  | nil => rfl
  | cons c m =>
    obtain ⟨k, v⟩ := c
    simp only [Memory.wfFrom, Bool.and_eq_true, decide_eq_true_eq] at h ⊢
    exact ⟨⟨by omega, h.1.2⟩, h.2⟩

theorem Memory.wfFrom_write {low a : Nat} {m : Memory} (h : m.wfFrom low = true) (hl : low ≤ a) (b : Byte) :
    (m.write a b).wfFrom low = true := by
  induction m generalizing low with
  | nil =>
    unfold Memory.write
    split <;> simp_all [Memory.wfFrom]
  | cons c m ih =>
    obtain ⟨k, v⟩ := c
    have h' := h
    simp only [Memory.wfFrom, Bool.and_eq_true, decide_eq_true_eq] at h
    obtain ⟨⟨hk, hv⟩, hm⟩ := h
    unfold Memory.write
    split
    · split
      · exact h'
      · simp only [Memory.wfFrom, Bool.and_eq_true, decide_eq_true_eq]
        exact ⟨⟨hl, by assumption⟩, ⟨by omega, hv⟩, hm⟩
    · split
      · split
        · exact Memory.wfFrom_mono hm (by omega)
        · simp only [Memory.wfFrom, Bool.and_eq_true, decide_eq_true_eq]
          refine ⟨⟨hl, by assumption⟩, ?_⟩
          rename_i e _
          exact e ▸ hm
      · simp only [Memory.wfFrom, Bool.and_eq_true, decide_eq_true_eq]
        exact ⟨⟨hk, hv⟩, ih hm (by omega)⟩

/-- A write keeps the canonical form. -/
theorem Memory.wf_write {m : Memory} (h : m.wf = true) (a : Nat) (b : Byte) : (m.write a b).wf = true :=
  Memory.wfFrom_write h (Nat.zero_le a) b

theorem Memory.below_write {limit a : Nat} {m : Memory} (h : m.below limit = true) (ha : a < limit) (b : Byte) :
    (m.write a b).below limit = true := by
  simp only [Memory.below, List.all_eq_true, decide_eq_true_eq] at *
  induction m with
  | nil =>
    unfold Memory.write
    split <;> simp_all
  | cons c m ih =>
    obtain ⟨k, v⟩ := c
    have hm := ih fun x hx => h x (List.mem_cons_of_mem _ hx)
    have hk := h (k, v) (List.mem_cons_self ..)
    unfold Memory.write
    split
    · split
      · exact h
      · intro x hx
        rcases List.mem_cons.1 hx with rfl | hx
        · exact ha
        · exact h x hx
    · split
      · split
        · exact fun x hx => h x (List.mem_cons_of_mem _ hx)
        · intro x hx
          rcases List.mem_cons.1 hx with rfl | hx
          · exact ha
          · exact h x (List.mem_cons_of_mem _ hx)
      · intro x hx
        rcases List.mem_cons.1 hx with rfl | hx
        · exact hk
        · exact hm x hx

theorem Memory.read_write_other {a c : Nat} (h : c ≠ a) (m : Memory) (b : Byte) : (m.write a b).read c = m.read c := by
  induction m with
  | nil =>
    unfold Memory.write
    split
    · rfl
    · simp [Memory.read, Ne.symm h]
  | cons x m ih =>
    obtain ⟨k, v⟩ := x
    unfold Memory.write
    split
    · split
      · rfl
      · simp [Memory.read, Ne.symm h]
    · split
      · rename_i e
        subst e
        split <;> simp [Memory.read, Ne.symm h]
      · simp [Memory.read, ih]

theorem Memory.read_write_same_from {low a : Nat} {m : Memory} (h : m.wfFrom low = true) (b : Byte) :
    (m.write a b).read a = b := by
  induction m generalizing low with
  | nil =>
    unfold Memory.write
    split <;> simp_all [Memory.read]
  | cons x m ih =>
    obtain ⟨k, v⟩ := x
    have h' := h
    simp only [Memory.wfFrom, Bool.and_eq_true, decide_eq_true_eq] at h
    obtain ⟨⟨hk, hv⟩, hm⟩ := h
    unfold Memory.write
    split
    · split
      · rename_i hlt e
        rw [Memory.read, if_neg (by omega), Memory.read_of_lt hm (by omega), e]
      · simp [Memory.read]
    · split
      · rename_i e
        subst e
        split
        · rename_i e
          rw [Memory.read_of_lt hm (by omega), e]
        · simp [Memory.read]
      · rename_i hne
        rw [Memory.read, if_neg (Ne.symm hne)]
        exact ih hm

theorem Memory.read_write_same {m : Memory} (h : m.wf = true) (a : Nat) (b : Byte) : (m.write a b).read a = b :=
  Memory.read_write_same_from h b

@[simp] theorem leBytes_length (n : Nat) (v : Word) : (leBytes n v).length = n := by
  induction n generalizing v with
  | zero => rfl
  | succ n ih => simp [leBytes, ih]

theorem Memory.wf_storeBytes {m : Memory} (h : m.wf = true) (a : Nat) (bs : List Byte) :
    (storeBytes m a bs).wf = true := by
  induction bs generalizing m a with
  | nil => exact h
  | cons b bs ih => exact ih (Memory.wf_write h a b) (a + 1)

theorem Memory.below_storeBytes {limit : Nat} {m : Memory} (h : m.below limit = true) (a : Nat) (bs : List Byte)
    (ha : a + bs.length ≤ limit) : (storeBytes m a bs).below limit = true := by
  induction bs generalizing m a with
  | nil => exact h
  | cons b bs ih =>
    simp only [List.length_cons] at ha
    exact ih (Memory.below_write h (by omega) b) (a + 1) (by omega)

/-- A store changes no byte outside the stored ones. -/
theorem Memory.read_storeBytes_outside (m : Memory) {a c : Nat} (bs : List Byte) (h : c < a ∨ a + bs.length ≤ c) :
    (storeBytes m a bs).read c = m.read c := by
  induction bs generalizing m a with
  | nil => rfl
  | cons b bs ih =>
    simp only [List.length_cons] at h
    rw [storeBytes, ih _ (by omega), Memory.read_write_other (by omega)]

/-- A store puts its k-th byte at the k-th address. -/
theorem Memory.read_storeBytes_inside {m : Memory} (hw : m.wf = true) {a : Nat} (bs : List Byte) {k : Nat}
    (h : k < bs.length) : (storeBytes m a bs).read (a + k) = bs[k] := by
  induction bs generalizing m a k with
  | nil => simp at h
  | cons b bs ih =>
    rw [storeBytes]
    cases k with
    | zero =>
      rw [Memory.read_storeBytes_outside _ _ (by omega)]
      exact Memory.read_write_same hw a b
    | succ k =>
      have := ih (Memory.wf_write hw a b) (a := a + 1) (k := k) (by simpa using h)
      simpa [Nat.add_assoc, Nat.add_comm 1 k] using this

theorem Memory.wf_writeLE {m : Memory} (h : m.wf = true) (a n : Nat) (v : Word) : (writeLE m a n v).wf = true :=
  Memory.wf_storeBytes h a _

theorem Memory.below_writeLE {limit : Nat} {m : Memory} (h : m.below limit = true) (a n : Nat) (v : Word)
    (ha : a + n ≤ limit) : (writeLE m a n v).below limit = true :=
  Memory.below_storeBytes h a _ (by simpa using ha)

theorem read_writeLE_outside (m : Memory) {a n c : Nat} (v : Word) (h : c < a ∨ a + n ≤ c) :
    (writeLE m a n v).read c = m.read c :=
  Memory.read_storeBytes_outside m _ (by simpa using h)

/-- Reading depends on the bytes read alone. -/
theorem readLE_congr {m m' : Memory} {a n : Nat} (h : ∀ c, a ≤ c → c < a + n → m.read c = m'.read c) :
    readLE m a n = readLE m' a n := by
  induction n generalizing a with
  | zero => rfl
  | succ n ih =>
    rw [readLE, readLE, h a (Nat.le_refl a) (by omega), ih fun c h1 h2 => h c (by omega) (by omega)]

/-- The check of a data access passes exactly when the address is aligned and every byte exists (R47, R48). -/
theorem checkAccess_none {p : Params} {addr : Word} {w : Width} :
    checkAccess p addr w = none ↔ addr.toNat % widthBytes w = 0 ∧ addr.toNat + widthBytes w ≤ p.dmemBytes := by
  unfold checkAccess
  split
  · simp_all
  · split <;> simp_all

end Sys2Proof.Machine
end

