-- ==== Sys2Proof/Laws/Registers.lean ====
section
/-! SUPPORT. The register file: reading after writing, x0, and what Writeback's commit does. -/

namespace Sys2Proof.Machine

@[simp] theorem readReg_zero (f : RegFile) : readReg f 0#5 = 0#32 := rfl

@[simp] theorem writeReg_zero (f : RegFile) (v : Word) : writeReg f 0#5 v = f := rfl

theorem readReg_writeReg_same {r : Reg} (h : r ≠ 0#5) (f : RegFile) (v : Word) : readReg (writeReg f r v) r = v := by
  simp [readReg, writeReg, h]

theorem readReg_writeReg_other {r q : Reg} (h : q ≠ r) (f : RegFile) (v : Word) :
    readReg (writeReg f r v) q = readReg f q := by
  have hn : r.toNat ≠ q.toNat := fun e => h (BitVec.eq_of_toNat_eq e.symm)
  unfold readReg writeReg
  split
  · rfl
  · split
    · rfl
    · rw [Vector.getElem_set_ne _ _ hn]

theorem readReg_writeReg (f : RegFile) (r q : Reg) (v : Word) :
    readReg (writeReg f r v) q = if q = r ∧ r ≠ 0#5 then v else readReg f q := by
  by_cases h : q = r
  · subst h
    by_cases h0 : q = 0#5
    · subst h0; simp
    · simp [h0, readReg_writeReg_same h0]
  · simp [h, readReg_writeReg_other h]

/-- x0's slot is never written (R18). -/
theorem writeReg_slot_zero (f : RegFile) (r : Reg) (v : Word) : (writeReg f r v)[0] = f[0] := by
  unfold writeReg
  split
  · rfl
  · rename_i h
    exact Vector.getElem_set_ne _ _ (fun e => h (BitVec.eq_of_toNat_eq (by simpa using e)))

@[simp] theorem writeBack_none (f : RegFile) : writeBack f none = f := rfl

/-- Writeback's commit is a write of `rd` when `we` is set (a write to x0 is dropped), and nothing otherwise (R105). -/
theorem writeBack_some (f : RegFile) (m : MWLatch) :
    writeBack f (some m) = if m.we then writeReg f m.rd m.value else f := by
  unfold writeBack wbThisTick
  by_cases hw : m.we <;> by_cases hr : m.rd = 0#5 <;> simp [hw, hr, commitReg]

theorem writeBack_slot_zero (f : RegFile) (mw : Option MWLatch) : (writeBack f mw)[0] = f[0] := by
  cases mw with
  | none => rfl
  | some m =>
    rw [writeBack_some]
    split
    · exact writeReg_slot_zero _ _ _
    · rfl

end Sys2Proof.Machine
end

