-- ==== Sys2Proof/Laws/State.lean ====
section
/-! SUPPORT. One lemma for each field of State under each update of it, so that no proof unfolds a record update. -/

namespace Sys2Proof.Machine

/-! `commit` -/

@[simp] theorem commit_regs (s : State) (ex : ExOutput) :
    (commit s ex).regs = writeBack s.regs s.mw := rfl

@[simp] theorem commit_pc (s : State) (ex : ExOutput) :
    (commit s ex).pc = pcNext s ex := rfl

@[simp] theorem commit_fd (s : State) (ex : ExOutput) :
    (commit s ex).fd = fdNext s := rfl

@[simp] theorem commit_de (s : State) (ex : ExOutput) :
    (commit s ex).de = deNext s := rfl

@[simp] theorem commit_em (s : State) (ex : ExOutput) :
    (commit s ex).em = emNext ex := rfl

@[simp] theorem commit_mw (s : State) (ex : ExOutput) :
    (commit s ex).mw = mwNext s := rfl

@[simp] theorem commit_halted (s : State) (ex : ExOutput) :
    (commit s ex).halted = s.halted := rfl

@[simp] theorem commit_tick (s : State) (ex : ExOutput) :
    (commit s ex).tick = s.tick + 1 := rfl

@[simp] theorem commit_imem (s : State) (ex : ExOutput) :
    (commit s ex).imem = s.imem := rfl

@[simp] theorem commit_dmem (s : State) (ex : ExOutput) :
    (commit s ex).dmem = commitStore s := rfl

@[simp] theorem commit_params (s : State) (ex : ExOutput) :
    (commit s ex).params = s.params := rfl

@[simp] theorem commit_diags (s : State) (ex : ExOutput) :
    (commit s ex).diags = s.diags ++ newDiags s ex := rfl

/-! `fatalCommit` -/

@[simp] theorem fatalCommit_regs (s : State) (ex : ExOutput) (f : Fatal) :
    (fatalCommit s ex f).regs = writeBack s.regs s.mw := rfl

@[simp] theorem fatalCommit_pc (s : State) (ex : ExOutput) (f : Fatal) :
    (fatalCommit s ex f).pc = s.pc := rfl

@[simp] theorem fatalCommit_fd (s : State) (ex : ExOutput) (f : Fatal) :
    (fatalCommit s ex f).fd = none := rfl

@[simp] theorem fatalCommit_de (s : State) (ex : ExOutput) (f : Fatal) :
    (fatalCommit s ex f).de = none := rfl

@[simp] theorem fatalCommit_em (s : State) (ex : ExOutput) (f : Fatal) :
    (fatalCommit s ex f).em = none := rfl

@[simp] theorem fatalCommit_mw (s : State) (ex : ExOutput) (f : Fatal) :
    (fatalCommit s ex f).mw = none := rfl

@[simp] theorem fatalCommit_halted (s : State) (ex : ExOutput) (f : Fatal) :
    (fatalCommit s ex f).halted = some { error := f.error, stage := some f.stage, tick := s.tick + 1, pc := some f.pc } := rfl

@[simp] theorem fatalCommit_tick (s : State) (ex : ExOutput) (f : Fatal) :
    (fatalCommit s ex f).tick = s.tick + 1 := rfl

@[simp] theorem fatalCommit_imem (s : State) (ex : ExOutput) (f : Fatal) :
    (fatalCommit s ex f).imem = s.imem := rfl

@[simp] theorem fatalCommit_dmem (s : State) (ex : ExOutput) (f : Fatal) :
    (fatalCommit s ex f).dmem = commitStore s := rfl

@[simp] theorem fatalCommit_params (s : State) (ex : ExOutput) (f : Fatal) :
    (fatalCommit s ex f).params = s.params := rfl

@[simp] theorem fatalCommit_diags (s : State) (ex : ExOutput) (f : Fatal) :
    (fatalCommit s ex f).diags = fatalDiags s ex := rfl

/-! The EM payloads. -/

@[simp] theorem openLatch_pc (u : Uop) (s : State) : (openLatch u s).pc = executePc s := rfl

@[simp] theorem openLatch_uop (u : Uop) (s : State) : (openLatch u s).uop = u := rfl

@[simp] theorem openLatch_noop (u : Uop) (s : State) : (openLatch u s).noop = false := rfl

@[simp] theorem openLatch_rd (u : Uop) (s : State) : (openLatch u s).rd = 0#5 := rfl

@[simp] theorem noopLatch_pc (u : Uop) (s : State) : (noopLatch u s).pc = executePc s := rfl

@[simp] theorem noopLatch_uop (u : Uop) (s : State) : (noopLatch u s).uop = u := rfl

@[simp] theorem noopLatch_noop (u : Uop) (s : State) : (noopLatch u s).noop = true := rfl

@[simp] theorem noopLatch_rd (u : Uop) (s : State) : (noopLatch u s).rd = 0#5 := rfl

@[simp] theorem noopLatch_result (u : Uop) (s : State) : (noopLatch u s).result = 0#32 := rfl

@[simp] theorem noopLatch_flags (u : Uop) (s : State) : (noopLatch u s).flags = zeroFlags := rfl

@[simp] theorem noopLatch_addr (u : Uop) (s : State) : (noopLatch u s).addr = 0#32 := rfl

@[simp] theorem noopLatch_storeData (u : Uop) (s : State) : (noopLatch u s).storeData = 0#32 := rfl

/-! Execute's output. -/

@[simp] theorem emNext_idle : emNext .idle = none := rfl

@[simp] theorem emNext_done (e : EMLatch) (r : Option Word) (d : Option Uop) : emNext (.done e r d) = some e := rfl

@[simp] theorem emNext_raised (err : CoreError) : emNext (.raised err) = none := rfl

@[simp] theorem redirectThisTick_idle : redirectThisTick .idle = none := rfl

@[simp] theorem redirectThisTick_done (e : EMLatch) (r : Option Word) (d : Option Uop) : redirectThisTick (.done e r d) = r := rfl

@[simp] theorem redirectThisTick_raised (err : CoreError) : redirectThisTick (.raised err) = none := rfl

@[simp] theorem exFault_idle (s : State) : exFault s .idle = none := rfl

@[simp] theorem exFault_done (s : State) (e : EMLatch) (r : Option Word) (d : Option Uop) : exFault s (.done e r d) = none := rfl

@[simp] theorem exFault_raised (s : State) (err : CoreError) : exFault s (.raised err) = some ⟨err, .execute, executePc s⟩ := rfl

@[simp] theorem newDiags_idle (s : State) :
    newDiags s .idle = [] := rfl

@[simp] theorem newDiags_done_none (s : State) (e : EMLatch) (r : Option Word) :
    newDiags s (.done e r none) = [] := rfl

@[simp] theorem newDiags_done_some (s : State) (e : EMLatch) (r : Option Word) (u : Uop) :
    newDiags s (.done e r (some u)) = [{ uop := u, pc := e.pc, tick := s.tick + 1 }] := rfl

@[simp] theorem newDiags_raised (s : State) (err : CoreError) :
    newDiags s (.raised err) = [] := rfl

/-! The state at engine start. -/

@[simp] theorem reset_regs : State.reset.regs = Vector.replicate 32 0#32 := rfl

@[simp] theorem reset_pc : State.reset.pc = 0#32 := rfl

@[simp] theorem reset_fd : State.reset.fd = none := rfl

@[simp] theorem reset_de : State.reset.de = none := rfl

@[simp] theorem reset_em : State.reset.em = none := rfl

@[simp] theorem reset_mw : State.reset.mw = none := rfl

@[simp] theorem reset_halted : State.reset.halted = none := rfl

@[simp] theorem reset_tick : State.reset.tick = 0 := rfl

@[simp] theorem reset_imem : State.reset.imem = [] := rfl

@[simp] theorem reset_dmem : State.reset.dmem = [] := rfl

@[simp] theorem reset_params : State.reset.params = Config.resetParams := rfl

@[simp] theorem reset_diags : State.reset.diags = [] := rfl

end Sys2Proof.Machine
end

