-- ==== Sys2Proof/Laws/Tick.lean ====
section
/-! SUPPORT. What a tick can do, said once: nothing, the commit phase or FatalCommit (`40_pipeline.md` R107, R109, R111);
which stage a fatal error comes from; the fetch. -/

namespace Sys2Proof.Machine

/-! The tick. -/

theorem tickWith_halted {s : State} (h : s.halted ≠ none) (ex : ExOutput) : tickWith ex s = s := by
  unfold tickWith
  split
  · rfl
  · contradiction

theorem tickWith_commit {s : State} {ex : ExOutput} (h : s.halted = none) (hf : oldestFault s ex = none) :
    tickWith ex s = commit s ex := by simp [tickWith, h, hf]

theorem tickWith_fatal {s : State} {ex : ExOutput} {f : Fatal} (h : s.halted = none) (hf : oldestFault s ex = some f) :
    tickWith ex s = fatalCommit s ex f := by simp [tickWith, h, hf]

/-- Everything a tick can do. -/
theorem tickWith_cases (s : State) (ex : ExOutput) :
    (s.halted ≠ none ∧ tickWith ex s = s) ∨
    (s.halted = none ∧ oldestFault s ex = none ∧ tickWith ex s = commit s ex) ∨
    (s.halted = none ∧ ∃ f, oldestFault s ex = some f ∧ tickWith ex s = fatalCommit s ex f) := by
  by_cases h : s.halted = none
  · cases hf : oldestFault s ex with
    | none => exact .inr (.inl ⟨h, rfl, tickWith_commit h hf⟩)
    | some f => exact .inr (.inr ⟨h, f, rfl, tickWith_fatal h hf⟩)
  · exact .inl ⟨h, tickWith_halted h ex⟩

/-- A running engine that still runs after a tick committed. -/
theorem tickWith_running {s : State} {ex : ExOutput} (h : s.halted = none) (ht : (tickWith ex s).halted = none) :
    oldestFault s ex = none ∧ tickWith ex s = commit s ex := by
  cases hf : oldestFault s ex with
  | none => exact ⟨rfl, tickWith_commit h hf⟩
  | some f => simp [tickWith_fatal h hf] at ht

theorem oldestFault_none {s : State} {ex : ExOutput} :
    oldestFault s ex = none ↔ memFault s = none ∧ exFault s ex = none ∧ decodeFault s = none ∧ fetchFault s = none := by
  simp [oldestFault]

/-- No tick touches IMEM or the sizes (`20_memory.md` R58). -/
theorem tickWith_imem (s : State) (ex : ExOutput) : (tickWith ex s).imem = s.imem := by
  rcases tickWith_cases s ex with ⟨-, h⟩ | ⟨-, -, h⟩ | ⟨-, f, -, h⟩ <;> rw [h] <;> rfl

theorem tickWith_params (s : State) (ex : ExOutput) : (tickWith ex s).params = s.params := by
  rcases tickWith_cases s ex with ⟨-, h⟩ | ⟨-, -, h⟩ | ⟨-, f, -, h⟩ <;> rw [h] <;> rfl

/-! MemAccess. -/

theorem memFault_bubble {s : State} (h : s.em = none) : memFault s = none := by simp [memFault, pendingAccess, h]

theorem memFault_access {s : State} {e : EMLatch} (he : s.em = some e) :
    memFault s =
      match access e.uop with
      | .load w _ => (checkAccess s.params e.addr w).map fun err => ⟨err, .memAccess, e.pc⟩
      | .store w => (checkAccess s.params e.addr w).map fun err => ⟨err, .memAccess, e.pc⟩
      | .none => none := by
  simp only [memFault, pendingAccess, he]
  cases access e.uop <;> rfl

/-- A fatal error of MemAccess names MemAccess, and no store commits with it (`20_memory.md` R45). -/
theorem memFault_stage {s : State} {f : Fatal} (h : memFault s = some f) : f.stage = .memAccess := by
  cases he : s.em with
  | none => simp [memFault_bubble he] at h
  | some e =>
    rw [memFault_access he] at h
    split at h
    · obtain ⟨err, -, rfl⟩ := Option.map_eq_some_iff.1 h; rfl
    · obtain ⟨err, -, rfl⟩ := Option.map_eq_some_iff.1 h; rfl
    · simp at h

theorem commitStore_fault {s : State} {f : Fatal} (h : memFault s = some f) : commitStore s = s.dmem := by
  simp [commitStore, storeThisTick, h]

theorem mwNext_fault {s : State} {f : Fatal} (h : memFault s = some f) : mwNext s = none := by
  simp [mwNext, h]

@[simp] theorem mwNext_bubble {s : State} (h : s.em = none) : mwNext s = none := by
  simp [mwNext, memFault_bubble h, pendingAccess, h]

@[simp] theorem commitStore_bubble {s : State} (h : s.em = none) : commitStore s = s.dmem := by
  simp [commitStore, storeThisTick, memFault_bubble h, pendingAccess, h]

/-! Decode and Fetch. -/

theorem decodeFault_stage {s : State} {f : Fatal} (h : decodeFault s = some f) : f.stage = .decode := by
  unfold decodeFault at h
  split at h
  · simp at h
  · split at h
    · simp at h
    · simp only [Option.some.injEq] at h
      exact h ▸ rfl

theorem fetchFault_stage {s : State} {f : Fatal} (h : fetchFault s = some f) : f.stage = .fetch := by
  unfold fetchFault at h
  split at h
  · simp at h
  · simp only [Option.some.injEq] at h
    exact h ▸ rfl

/-- Without an error of Decode, a word in FD decodes and goes on to DE (R102). -/
theorem deNext_of_fd {s : State} {f : FDLatch} (hf : s.fd = some f) (h : decodeFault s = none) :
    ∃ i, decode f.word = .ok i ∧ deNext s = some { pc := f.pc, dec := i } := by
  cases hd : decode f.word with
  | ok i => exact ⟨i, rfl, by simp [deNext, hf, hd]⟩
  | error e => simp [decodeFault, hf, hd] at h

@[simp] theorem deNext_bubble {s : State} (h : s.fd = none) : deNext s = none := by simp [deNext, h]

/-- Without an error of Fetch, the word at PC goes to FD (R101). -/
theorem fdNext_of_fetch {s : State} (h : fetchFault s = none) :
    ∃ w, iMemRead s s.pc = .ok w ∧ fdNext s = some { pc := s.pc, word := w } := by
  cases hd : iMemRead s s.pc with
  | ok w => exact ⟨w, rfl, by simp [fdNext, hd]⟩
  | error e => simp [fetchFault, hd] at h

/-- What Fetch does depends on PC, IMEM and its size alone. -/
theorem fetchFault_congr {s t : State} (h1 : s.pc = t.pc) (h2 : s.imem = t.imem) (h3 : s.params = t.params) :
    fetchFault s = fetchFault t := by simp [fetchFault, iMemRead, h1, h2, h3]

/-! Aligned addresses. -/

theorem wordAligned_iff (a : Word) : wordAligned a = true ↔ a.toNat % 4 = 0 := by
  unfold wordAligned
  rw [beq_iff_eq, ← BitVec.toNat_inj]
  simp

theorem wordAligned_add_four {a : Word} (h : wordAligned a = true) : wordAligned (a + 4#32) = true := by
  rw [wordAligned_iff] at *
  rw [BitVec.toNat_add]
  simp only [BitVec.toNat_ofNat, Nat.reducePow, Nat.reduceMod]
  omega

end Sys2Proof.Machine
end

