-- ==== Sys2Proof/Laws/Settle.lean ====
section
/-! SUPPORT. What a payload in EM still does to the registers and DMEM, once for each shape of instruction: the settled
state after a tick that committed (R104, R105). -/

namespace Sys2Proof.Machine

@[simp] theorem Arch.setX_zero (a : Arch) (v : Word) : a.setX 0#5 v = a := rfl

@[simp] theorem Arch.setX_dmem (a : Arch) (r : Reg) (v : Word) : (a.setX r v).dmem = a.dmem := rfl

@[simp] theorem Arch.setX_regs (a : Arch) (r : Reg) (v : Word) : (a.setX r v).regs = writeReg a.regs r v := rfl

@[simp] theorem settled_dmem (s : State) : (settled s).dmem = commitStore s := rfl

theorem settled_bubble {t : State} (he : t.em = none) : settled t = { regs := writeBack t.regs t.mw, dmem := t.dmem } := by
  simp [settled, mwNext_bubble he, commitStore_bubble he]

/-- A micro-op that accesses no memory and writes its result. -/
theorem settled_result {t : State} {e : EMLatch} (he : t.em = some e) (ha : access e.uop = .none)
    (hw : writesRd e.uop = true) (hn : e.noop = false) :
    settled t = { regs := writeReg (writeBack t.regs t.mw) e.rd e.result, dmem := t.dmem } := by
  have hf : memFault t = none := by rw [memFault_access he, ha]
  simp [settled, mwNext, commitStore, storeThisTick, hf, pendingAccess, he, ha, hw, hn, writeBack_some]

/-- A micro-op that accesses no memory and writes nothing. -/
theorem settled_silent {t : State} {e : EMLatch} (he : t.em = some e) (ha : access e.uop = .none)
    (hw : writesRd e.uop = false) :
    settled t = { regs := writeBack t.regs t.mw, dmem := t.dmem } := by
  have hf : memFault t = none := by rw [memFault_access he, ha]
  simp [settled, mwNext, commitStore, storeThisTick, hf, pendingAccess, he, ha, hw, writeBack_some]

/-- A load whose access the memory takes. -/
theorem settled_load {t : State} {e : EMLatch} {w : Width} {sg : Bool} (he : t.em = some e)
    (ha : access e.uop = .load w sg) (hf : memFault t = none) :
    settled t =
      { regs := writeReg (writeBack t.regs t.mw) e.rd (extendLoad w sg (readLE t.dmem e.addr.toNat (widthBytes w)))
        dmem := t.dmem } := by
  simp [settled, mwNext, commitStore, storeThisTick, hf, pendingAccess, he, ha, writeBack_some]

/-- A store whose access the memory takes. -/
theorem settled_store {t : State} {e : EMLatch} {w : Width} (he : t.em = some e)
    (ha : access e.uop = .store w) (hf : memFault t = none) :
    settled t =
      { regs := writeBack t.regs t.mw, dmem := writeLE t.dmem e.addr.toNat (widthBytes w) e.storeData } := by
  simp [settled, mwNext, commitStore, storeThisTick, hf, pendingAccess, he, ha, writeBack_some]

/-- The registers that a committed tick hands on are the settled ones of the state before. -/
theorem commit_settled_regs (s : State) (ex : ExOutput) :
    writeBack (commit s ex).regs (commit s ex).mw = (settled s).regs := rfl

end Sys2Proof.Machine
end

