-- ==== Sys2Proof/Laws/Execute.lean ====
section
/-! SUPPORT. What an instruction in Execute can do, said once for all of them (`40_pipeline.md` R103, R106, R140): its
payload carries its own address and micro-op, it redirects exactly when it is a taken transfer, and it raises exactly a
misaligned target. -/

namespace Sys2Proof.Machine

/-- What Execute's output can be when `i` is in it. -/
def Executes (i : Instr) (s : State) : ExOutput → Prop
  | .idle => False
  | .done e redirect diag =>
    e.pc = executePc s ∧ e.uop = i.uop ∧ e.noop = unimplemented i.uop ∧ (writesRd i.uop = false → e.rd = 0#5) ∧
    diag = (if unimplemented i.uop then some i.uop else none) ∧
    redirect = seqTarget (executePc s) i { regs := s.regs, dmem := s.dmem } ∧
    ∀ target, redirect = some target → wordAligned target = true
  | .raised err =>
    ∃ target, seqTarget (executePc s) i { regs := s.regs, dmem := s.dmem } = some target ∧
      wordAligned target = false ∧ err = .misalignedTarget target

theorem executeJump_spec {i : Instr} {u : Uop} {rd : Reg} {target : Word} {s : State} (hu : i.uop = u)
    (hn : unimplemented u = false) (hw : writesRd u = true)
    (ht : seqTarget (executePc s) i { regs := s.regs, dmem := s.dmem } = some target) :
    ∃ ex, executeJump u rd target s = runTick ex s ∧ Executes i s ex := by
  subst hu
  refine ⟨_, rfl, ?_⟩
  unfold transfer
  split
  · simp_all [Executes]
  · simp_all [Executes]

theorem executeBranch_spec {i : Instr} {u : Uop} {taken : Bool} {imm : Word} {s : State} (hu : i.uop = u)
    (hn : unimplemented u = false)
    (ht : taken = true → seqTarget (executePc s) i { regs := s.regs, dmem := s.dmem } = some (executePc s + imm))
    (hf : taken = false → seqTarget (executePc s) i { regs := s.regs, dmem := s.dmem } = none) :
    ∃ ex, executeBranch u taken imm s = runTick ex s ∧ Executes i s ex := by
  subst hu
  unfold executeBranch
  split
  · refine ⟨_, rfl, ?_⟩
    unfold transfer
    split
    · simp_all [Executes, relativeTarget]
    · simp_all [Executes, relativeTarget]
  · exact ⟨_, rfl, by simp_all [Executes]⟩

/-- Every meaning runs the tick with an output of that form. -/
theorem exec_spec (i : Instr) (s : State) : ∃ ex, exec i s = runTick ex s ∧ Executes i s ex := by
  cases i
  case jal => exact executeJump_spec rfl rfl rfl rfl
  case jalr => exact executeJump_spec rfl rfl rfl rfl
  case beq =>
    exact executeBranch_spec rfl rfl (fun h => if_pos (eq_of_beq h))
      (fun h => if_neg (ne_of_beq_false h))
  case bne =>
    exact executeBranch_spec rfl rfl (fun h => if_pos (ne_of_beq_false (by simpa [condNe, bne, State.x, Arch.x] using h)))
      (fun h => if_neg (not_not.2 (eq_of_beq (by simpa [condNe, bne, State.x, Arch.x] using h))))
  case blt =>
    exact executeBranch_spec rfl rfl (fun h => if_pos (of_decide_eq_true h))
      (fun h => if_neg (of_decide_eq_false h))
  case bge =>
    exact executeBranch_spec rfl rfl (fun h => if_pos (of_decide_eq_true h))
      (fun h => if_neg (of_decide_eq_false h))
  case bltu =>
    exact executeBranch_spec rfl rfl (fun h => if_pos (of_decide_eq_true h))
      (fun h => if_neg (of_decide_eq_false h))
  case bgeu =>
    exact executeBranch_spec rfl rfl (fun h => if_pos (of_decide_eq_true h))
      (fun h => if_neg (of_decide_eq_false h))
  all_goals exact ⟨_, rfl, by simp [Executes, Instr.uop, unimplemented, writesRd, seqTarget, openLatch, noopLatch]⟩

/-- What a step can do: run the tick, with what the instruction in Execute can do, or with nothing in Execute. -/
theorem step_spec (s : State) :
    (∃ d ex, s.de = some d ∧ step s = .next (tickWith ex s) ∧ Executes d.dec s ex) ∨
    (s.de = none ∧ step s = .next (tickWith .idle s)) := by
  unfold step
  cases h : s.de with
  | none => exact .inr ⟨rfl, rfl⟩
  | some d =>
    obtain ⟨ex, he, hs⟩ := exec_spec d.dec s
    exact .inl ⟨d, ex, rfl, he, hs⟩

/-- A step always answers a next state, a tick's. -/
theorem step_next (s : State) : ∃ ex, step s = .next (tickWith ex s) := by
  rcases step_spec s with ⟨_, ex, -, h, -⟩ | ⟨-, h⟩
  · exact ⟨ex, h⟩
  · exact ⟨.idle, h⟩

/-- A step from a running engine after which it still runs is the commit phase. -/
theorem step_running {s t : State} (h : s.halted = none) (hs : step s = .next t) (ht : t.halted = none) :
    ∃ ex, t = commit s ex ∧ oldestFault s ex = none ∧
      ((s.de = none ∧ ex = .idle) ∨ ∃ d, s.de = some d ∧ exec d.dec s = runTick ex s ∧ Executes d.dec s ex) := by
  unfold step at hs
  cases hd : s.de with
  | none =>
    simp only [hd, idleTick, runTick, Host.Outcome.next.injEq] at hs
    subst hs
    obtain ⟨h1, h2⟩ := tickWith_running h ht
    exact ⟨_, h2, h1, .inl ⟨rfl, rfl⟩⟩
  | some d =>
    obtain ⟨ex, he, hx⟩ := exec_spec d.dec s
    simp only [hd, he, runTick, Host.Outcome.next.injEq] at hs
    subst hs
    obtain ⟨h1, h2⟩ := tickWith_running h ht
    exact ⟨ex, h2, h1, .inr ⟨d, rfl, he, hx⟩⟩

end Sys2Proof.Machine
end

