-- ==== Sys2Proof/Laws/Launch.lean ====
section
/-! SUPPORT. The memories that a launch makes: canonical, inside their ranges, and what each byte of them is. -/

namespace Sys2Proof.Machine

/-- What one more cell does to a memory of `limit` bytes. -/
theorem memoryOf_append (limit : Nat) (cells : List Host.Cell) (c : Host.Cell) :
    memoryOf limit (cells ++ [c]) =
      if c.1 < limit then (memoryOf limit cells).write c.1 c.2 else memoryOf limit cells := by
  simp [memoryOf]

theorem Memory.wf_memoryOf (limit : Nat) (cells : List Host.Cell) : (memoryOf limit cells).wf = true := by
  induction cells using List.reverseRecOn with
  | nil => rfl
  | append_singleton cells c ih =>
    rw [memoryOf_append]
    split
    · exact Memory.wf_write ih _ _
    · exact ih

theorem Memory.below_memoryOf (limit : Nat) (cells : List Host.Cell) : (memoryOf limit cells).below limit = true := by
  induction cells using List.reverseRecOn with
  | nil => rfl
  | append_singleton cells c ih =>
    rw [memoryOf_append]
    split
    · exact Memory.below_write ih (by assumption) _
    · exact ih

theorem loadedBytes_length (p : Params) (image : List Byte) :
    (loadedBytes p image).length = 4 * min (image.length / 4) p.imemWords := by
  simp only [loadedBytes, List.length_take]
  omega

theorem Memory.wf_loadImage (p : Params) (image : List Byte) (imemFill : List Host.Cell) :
    (loadImage p image imemFill).wf = true :=
  Memory.wf_storeBytes (Memory.wf_memoryOf _ _) _ _

theorem Memory.below_loadImage (p : Params) (image : List Byte) (imemFill : List Host.Cell) :
    (loadImage p image imemFill).below (4 * p.imemWords) = true :=
  Memory.below_storeBytes (Memory.below_memoryOf _ _) _ _ (by rw [loadedBytes_length]; omega)

/-- What a launch answers, if it answers a state. -/
theorem launch_next {p : Params} {path : String} {image : Option (List Byte)} {dmemInit imemFill : List Host.Cell}
    {s : State} (h : launch p path image dmemInit imemFill = .next s) :
    p.wf = true ∧ ∃ bytes, image = some bytes ∧
      s = { State.reset with
        params := p
        imem := loadImage p bytes imemFill
        dmem := memoryOf p.dmemBytes dmemInit } := by
  unfold launch at h
  split at h
  · split at h
    · cases h
    · cases h
      exact ⟨by assumption, _, rfl, rfl⟩
  · cases h

end Sys2Proof.Machine
end

