-- ==== Sys2Proof/Laws/PerInstr.lean ====
section
/-! SUPPORT. Per instruction: the encoder puts the instruction's own opcode into bits [6:0] (`30_encoding.md` R61, R66). -/

namespace Sys2Proof.Laws.EncodedOpcode

/-- The opcode of the encoded word is the opcode of the instruction's row of the opcode map (R66). -/
def Statement (i : Instr) : Prop := opcodeOf (encode i) = i.opcode

theorem lui (rd : Reg) (imm : Word) : Statement (.lui rd imm) :=
  opcodeOf_encodeU _ _ _
theorem auipc (rd : Reg) (imm : Word) : Statement (.auipc rd imm) :=
  opcodeOf_encodeU _ _ _
theorem jal (rd : Reg) (imm : Word) : Statement (.jal rd imm) :=
  opcodeOf_encodeJ _ _ _
theorem jalr (rd rs1 : Reg) (imm : Word) : Statement (.jalr rd rs1 imm) :=
  opcodeOf_encodeI _ _ _ _ _
theorem beq (rs1 rs2 : Reg) (imm : Word) : Statement (.beq rs1 rs2 imm) :=
  opcodeOf_encodeB _ _ _ _ _
theorem bne (rs1 rs2 : Reg) (imm : Word) : Statement (.bne rs1 rs2 imm) :=
  opcodeOf_encodeB _ _ _ _ _
theorem blt (rs1 rs2 : Reg) (imm : Word) : Statement (.blt rs1 rs2 imm) :=
  opcodeOf_encodeB _ _ _ _ _
theorem bge (rs1 rs2 : Reg) (imm : Word) : Statement (.bge rs1 rs2 imm) :=
  opcodeOf_encodeB _ _ _ _ _
theorem bltu (rs1 rs2 : Reg) (imm : Word) : Statement (.bltu rs1 rs2 imm) :=
  opcodeOf_encodeB _ _ _ _ _
theorem bgeu (rs1 rs2 : Reg) (imm : Word) : Statement (.bgeu rs1 rs2 imm) :=
  opcodeOf_encodeB _ _ _ _ _
theorem lb (rd rs1 : Reg) (imm : Word) : Statement (.lb rd rs1 imm) :=
  opcodeOf_encodeI _ _ _ _ _
theorem lh (rd rs1 : Reg) (imm : Word) : Statement (.lh rd rs1 imm) :=
  opcodeOf_encodeI _ _ _ _ _
theorem lw (rd rs1 : Reg) (imm : Word) : Statement (.lw rd rs1 imm) :=
  opcodeOf_encodeI _ _ _ _ _
theorem lbu (rd rs1 : Reg) (imm : Word) : Statement (.lbu rd rs1 imm) :=
  opcodeOf_encodeI _ _ _ _ _
theorem lhu (rd rs1 : Reg) (imm : Word) : Statement (.lhu rd rs1 imm) :=
  opcodeOf_encodeI _ _ _ _ _
theorem sb (rs1 rs2 : Reg) (imm : Word) : Statement (.sb rs1 rs2 imm) :=
  opcodeOf_encodeS _ _ _ _ _
theorem sh (rs1 rs2 : Reg) (imm : Word) : Statement (.sh rs1 rs2 imm) :=
  opcodeOf_encodeS _ _ _ _ _
theorem sw (rs1 rs2 : Reg) (imm : Word) : Statement (.sw rs1 rs2 imm) :=
  opcodeOf_encodeS _ _ _ _ _
theorem addi (rd rs1 : Reg) (imm : Word) : Statement (.addi rd rs1 imm) :=
  opcodeOf_encodeI _ _ _ _ _
theorem slti (rd rs1 : Reg) (imm : Word) : Statement (.slti rd rs1 imm) :=
  opcodeOf_encodeI _ _ _ _ _
theorem sltiu (rd rs1 : Reg) (imm : Word) : Statement (.sltiu rd rs1 imm) :=
  opcodeOf_encodeI _ _ _ _ _
theorem xori (rd rs1 : Reg) (imm : Word) : Statement (.xori rd rs1 imm) :=
  opcodeOf_encodeI _ _ _ _ _
theorem ori (rd rs1 : Reg) (imm : Word) : Statement (.ori rd rs1 imm) :=
  opcodeOf_encodeI _ _ _ _ _
theorem andi (rd rs1 : Reg) (imm : Word) : Statement (.andi rd rs1 imm) :=
  opcodeOf_encodeI _ _ _ _ _
theorem slli (rd rs1 : Reg) (imm : Word) : Statement (.slli rd rs1 imm) :=
  opcodeOf_encodeI _ _ _ _ _
theorem srli (rd rs1 : Reg) (imm : Word) : Statement (.srli rd rs1 imm) :=
  opcodeOf_encodeI _ _ _ _ _
theorem srai (rd rs1 : Reg) (imm : Word) : Statement (.srai rd rs1 imm) :=
  opcodeOf_encodeI _ _ _ _ _
theorem add (rd rs1 rs2 : Reg) : Statement (.add rd rs1 rs2) :=
  opcodeOf_encodeR _ _ _ _ _ _
theorem sub (rd rs1 rs2 : Reg) : Statement (.sub rd rs1 rs2) :=
  opcodeOf_encodeR _ _ _ _ _ _
theorem sll (rd rs1 rs2 : Reg) : Statement (.sll rd rs1 rs2) :=
  opcodeOf_encodeR _ _ _ _ _ _
theorem slt (rd rs1 rs2 : Reg) : Statement (.slt rd rs1 rs2) :=
  opcodeOf_encodeR _ _ _ _ _ _
theorem sltu (rd rs1 rs2 : Reg) : Statement (.sltu rd rs1 rs2) :=
  opcodeOf_encodeR _ _ _ _ _ _
theorem xor (rd rs1 rs2 : Reg) : Statement (.xor rd rs1 rs2) :=
  opcodeOf_encodeR _ _ _ _ _ _
theorem srl (rd rs1 rs2 : Reg) : Statement (.srl rd rs1 rs2) :=
  opcodeOf_encodeR _ _ _ _ _ _
theorem sra (rd rs1 rs2 : Reg) : Statement (.sra rd rs1 rs2) :=
  opcodeOf_encodeR _ _ _ _ _ _
theorem or (rd rs1 rs2 : Reg) : Statement (.or rd rs1 rs2) :=
  opcodeOf_encodeR _ _ _ _ _ _
theorem and (rd rs1 rs2 : Reg) : Statement (.and rd rs1 rs2) :=
  opcodeOf_encodeR _ _ _ _ _ _
theorem fence (rd rs1 : Reg) (imm : Word) : Statement (.fence rd rs1 imm) :=
  opcodeOf_encodeI _ _ _ _ _
theorem ecall (rd rs1 : Reg) (imm : Word) : Statement (.ecall rd rs1 imm) :=
  opcodeOf_encodeI _ _ _ _ _
theorem ebreak (rd rs1 : Reg) (imm : Word) : Statement (.ebreak rd rs1 imm) :=
  opcodeOf_encodeI _ _ _ _ _
theorem mul (rd rs1 rs2 : Reg) : Statement (.mul rd rs1 rs2) :=
  opcodeOf_encodeR _ _ _ _ _ _
theorem mulh (rd rs1 rs2 : Reg) : Statement (.mulh rd rs1 rs2) :=
  opcodeOf_encodeR _ _ _ _ _ _
theorem mulhsu (rd rs1 rs2 : Reg) : Statement (.mulhsu rd rs1 rs2) :=
  opcodeOf_encodeR _ _ _ _ _ _
theorem mulhu (rd rs1 rs2 : Reg) : Statement (.mulhu rd rs1 rs2) :=
  opcodeOf_encodeR _ _ _ _ _ _
theorem div (rd rs1 rs2 : Reg) : Statement (.div rd rs1 rs2) :=
  opcodeOf_encodeR _ _ _ _ _ _
theorem divu (rd rs1 rs2 : Reg) : Statement (.divu rd rs1 rs2) :=
  opcodeOf_encodeR _ _ _ _ _ _
theorem rem (rd rs1 rs2 : Reg) : Statement (.rem rd rs1 rs2) :=
  opcodeOf_encodeR _ _ _ _ _ _
theorem remu (rd rs1 rs2 : Reg) : Statement (.remu rd rs1 rs2) :=
  opcodeOf_encodeR _ _ _ _ _ _
theorem lrW (rd rs1 rs2 : Reg) : Statement (.lrW rd rs1 rs2) :=
  opcodeOf_encodeR _ _ _ _ _ _
theorem scW (rd rs1 rs2 : Reg) : Statement (.scW rd rs1 rs2) :=
  opcodeOf_encodeR _ _ _ _ _ _
theorem amoswapW (rd rs1 rs2 : Reg) : Statement (.amoswapW rd rs1 rs2) :=
  opcodeOf_encodeR _ _ _ _ _ _
theorem amoaddW (rd rs1 rs2 : Reg) : Statement (.amoaddW rd rs1 rs2) :=
  opcodeOf_encodeR _ _ _ _ _ _
theorem amoxorW (rd rs1 rs2 : Reg) : Statement (.amoxorW rd rs1 rs2) :=
  opcodeOf_encodeR _ _ _ _ _ _
theorem amoandW (rd rs1 rs2 : Reg) : Statement (.amoandW rd rs1 rs2) :=
  opcodeOf_encodeR _ _ _ _ _ _
theorem amoorW (rd rs1 rs2 : Reg) : Statement (.amoorW rd rs1 rs2) :=
  opcodeOf_encodeR _ _ _ _ _ _
theorem amominW (rd rs1 rs2 : Reg) : Statement (.amominW rd rs1 rs2) :=
  opcodeOf_encodeR _ _ _ _ _ _
theorem amomaxW (rd rs1 rs2 : Reg) : Statement (.amomaxW rd rs1 rs2) :=
  opcodeOf_encodeR _ _ _ _ _ _
theorem amominuW (rd rs1 rs2 : Reg) : Statement (.amominuW rd rs1 rs2) :=
  opcodeOf_encodeR _ _ _ _ _ _
theorem amomaxuW (rd rs1 rs2 : Reg) : Statement (.amomaxuW rd rs1 rs2) :=
  opcodeOf_encodeR _ _ _ _ _ _

end Sys2Proof.Laws.EncodedOpcode
end

