-- ==== Sys2Proof/Laws/Run.lean ====
section
/-! SUPPORT. Runs, one tick at a time: a run that goes on starts in a running state, splits at its first and at its last
tick, and answers one state. -/

namespace Sys2Proof.Machine

theorem run_succ_eq {s s' : State} (h : step s = .next s') (n : Nat) :
    Host.Core.run Sys2Proof.core (n + 1) s = Host.Core.run Sys2Proof.core n s' := by
  simp [Host.Core.run, Sys2Proof.core, h]

@[simp] theorem runsTo_zero {s t : State} : RunsTo 0 s t ↔ t = s ∧ s.halted = none := by
  constructor
  · rintro ⟨h, ht⟩
    have : s = t := by injection h
    exact ⟨this.symm, this ▸ ht⟩
  · rintro ⟨rfl, h⟩
    exact ⟨rfl, h⟩

theorem runsTo_succ {n : Nat} {s t : State} : RunsTo (n + 1) s t ↔ ∃ s', step s = .next s' ∧ RunsTo n s' t := by
  obtain ⟨ex, h⟩ := step_next s
  constructor
  · rintro ⟨hr, ht⟩
    exact ⟨_, h, (run_succ_eq h n).symm.trans hr, ht⟩
  · rintro ⟨s', hs, hr, ht⟩
    exact ⟨(run_succ_eq hs n).trans hr, ht⟩

/-- A run that goes on ends in a running state and starts in one. -/
theorem RunsTo.running {n : Nat} {s t : State} (h : RunsTo n s t) : s.halted = none := by
  induction n generalizing s with
  | zero => exact (runsTo_zero.1 h).2
  | succ n ih =>
    obtain ⟨s', hs, hr⟩ := runsTo_succ.1 h
    have h' := ih hr
    obtain ⟨ex, he⟩ := step_next s
    rw [he] at hs
    cases hs
    rcases tickWith_cases s ex with ⟨hn, e⟩ | ⟨h0, -⟩ | ⟨h0, -⟩
    · exact absurd (e ▸ h') hn
    · exact h0
    · exact h0

/-- A run splits at its last tick. -/
theorem runsTo_succ_last {n : Nat} {s t : State} :
    RunsTo (n + 1) s t ↔ ∃ t', RunsTo n s t' ∧ step t' = .next t ∧ t.halted = none := by
  induction n generalizing s with
  | zero =>
    rw [runsTo_succ]
    constructor
    · rintro ⟨s', hs, hr⟩
      obtain ⟨rfl, h'⟩ := runsTo_zero.1 hr
      exact ⟨s, runsTo_zero.2 ⟨rfl, RunsTo.running (runsTo_succ.2 ⟨_, hs, hr⟩)⟩, hs, h'⟩
    · rintro ⟨t', hr, hs, h⟩
      obtain ⟨rfl, -⟩ := runsTo_zero.1 hr
      exact ⟨t, hs, runsTo_zero.2 ⟨rfl, h⟩⟩
  | succ n ih =>
    rw [runsTo_succ]
    constructor
    · rintro ⟨s', hs, hr⟩
      obtain ⟨t', hr', h⟩ := ih.1 hr
      exact ⟨t', runsTo_succ.2 ⟨s', hs, hr'⟩, h⟩
    · rintro ⟨t', hr, h⟩
      obtain ⟨s', hs, hr'⟩ := runsTo_succ.1 hr
      exact ⟨s', hs, ih.2 ⟨t', hr', h⟩⟩

/-- The state a run reaches is unique. -/
theorem RunsTo.unique {n : Nat} {s t u : State} (ht : RunsTo n s t) (hu : RunsTo n s u) : t = u := by
  injection ht.1.symm.trans hu.1

end Sys2Proof.Machine
end

