-- ==== Sys2Proof/Tests/Slice0.lean ====
section
/-! SUPPORT. Tests of the model and witnesses of the statements' hypotheses. Every expected result is one of the vectors of
`95_test_vectors.md` (named V-...) or was written out by hand from the rule cited; each test runs one step. -/

open Sys2Proof Sys2Proof.Machine Sys2Proof.Stated

namespace Sys2Proof.Tests

/-- A register file with the given values. -/
def regsOf (rs : List (Reg × Word)) : RegFile := rs.foldl (fun f r => writeReg f r.1 r.2) (Vector.replicate 32 0#32)

/-- `i`, fetched from `pc`, alone in Execute, with 256 bytes of DMEM as in the vectors. -/
def executing (pc : Word) (i : Instr) (rs : List (Reg × Word)) : State :=
  { State.reset with
    regs := regsOf rs
    pc := pc + 8#32
    de := some { pc := pc, dec := i }
    tick := 2
    params := { imemWords := 4096, dmemBytes := 256 } }

/-- DMEM[0x0F..0x17] of the vectors V-LS. -/
def vlsMemory : Memory := storeBytes [] 0x0F [0xFF, 0x80, 0x7F, 0x34, 0x92, 0x44, 0x33, 0x22, 0x11]

/-- A load or store in Execute over that memory. -/
def accessing (i : Instr) (rs : List (Reg × Word)) : State := { executing 0#32 i rs with dmem := vlsMemory }

/-- The state at engine start with the words loaded and a DMEM of 256 bytes. -/
def loaded (ws : List Word) : State :=
  { State.reset with
    imem := storeBytes [] 0 (ws.flatMap bytesOfWord)
    params := { imemWords := ws.length, dmemBytes := 256 } }

/-- The state a step gives. -/
def after (s : State) : State :=
  match step s with
  | .next t => t
  | .fault _ => s
  | .refused _ => s

theorem step_after (s : State) : step s = .next (after s) := by
  obtain ⟨ex, h⟩ := step_next s
  simp [after, h]

/-! ## Well-formedness: an ill-formed term for each check -/

theorem test_wf_fits12 :
    (Instr.addi 1 2 0x000007FF).wf = true ∧ (Instr.addi 1 2 0x00000800).wf = false ∧
    (Instr.lw 1 2 0xFFFFF800).wf = true ∧ (Instr.sw 1 2 0xFFFFF7FF).wf = false ∧
    (Instr.jalr 1 2 0x00001000).wf = false ∧ (Instr.fence 0 0 0x00000FF0).wf = false := by decide

theorem test_wf_fits13 :
    (Instr.beq 1 2 0x00000FFE).wf = true ∧ (Instr.beq 1 2 0x00001000).wf = false ∧
    (Instr.bltu 1 2 0xFFFFF000).wf = true ∧ (Instr.bge 1 2 3).wf = false := by decide

theorem test_wf_fits21 :
    (Instr.jal 1 0x000FFFFE).wf = true ∧ (Instr.jal 1 0x00100000).wf = false ∧
    (Instr.jal 1 0xFFF00000).wf = true ∧ (Instr.jal 1 5).wf = false := by decide

theorem test_wf_fitsUpper :
    (Instr.lui 1 0xFFFFF000).wf = true ∧ (Instr.lui 1 0xFFFFF001).wf = false ∧ (Instr.auipc 1 0x800).wf = false := by decide

theorem test_wf_fitsShift :
    (Instr.slli 1 2 31).wf = true ∧ (Instr.slli 1 2 32).wf = false ∧ (Instr.srai 1 2 0x41F).wf = true ∧
    (Instr.srai 1 2 0x1F).wf = false ∧ (Instr.srli 1 2 0x400).wf = false := by decide

/-- V-DEC-17, V-DEC-18. -/
theorem test_wf_system :
    (Instr.ecall 1 2 0).wf = true ∧ (Instr.ecall 1 2 1).wf = false ∧ (Instr.ebreak 1 2 1).wf = true ∧
    (Instr.ebreak 1 2 0).wf = false := by decide

/-! ## Decoding -/

/-- Words written out from the encodings: U and J formats (`30_encoding.md` R62, R63, R66, R72 to R82). -/
theorem test_decode_upper_and_jal :
    ∀ p ∈ ([(0b10100101110000111110_10110_0110111#32, .lui 22 0xA5C3E000),
      (0b10100101110000111110_10110_0010111#32, .auipc 22 0xA5C3E000),
      (0b1_0100101101_1_10100101_10110_1101111#32, .jal 22 0xFFFA5A5A)] : List (Word × Instr)),
      decode p.1 = .ok p.2 := by decide

/-- Words written out from the encodings: JALR and loads (`30_encoding.md` R62, R63, R66, R72 to R82). -/
theorem test_decode_jalr_and_loads :
    ∀ p ∈ ([(0b110110100101_01101_000_10110_1100111#32, .jalr 22 13 0xFFFFFDA5),
      (0b110110100101_01101_000_10110_0000011#32, .lb 22 13 0xFFFFFDA5),
      (0b110110100101_01101_001_10110_0000011#32, .lh 22 13 0xFFFFFDA5),
      (0b110110100101_01101_010_10110_0000011#32, .lw 22 13 0xFFFFFDA5),
      (0b110110100101_01101_100_10110_0000011#32, .lbu 22 13 0xFFFFFDA5),
      (0b110110100101_01101_101_10110_0000011#32, .lhu 22 13 0xFFFFFDA5)] : List (Word × Instr)),
      decode p.1 = .ok p.2 := by decide

/-- Words written out from the encodings: branches (`30_encoding.md` R62, R63, R66, R72 to R82). -/
theorem test_decode_branches :
    ∀ p ∈ ([(0b1_110010_11001_01101_000_1101_0_1100011#32, .beq 13 25 0xFFFFF65A),
      (0b1_110010_11001_01101_001_1101_0_1100011#32, .bne 13 25 0xFFFFF65A),
      (0b1_110010_11001_01101_100_1101_0_1100011#32, .blt 13 25 0xFFFFF65A),
      (0b1_110010_11001_01101_101_1101_0_1100011#32, .bge 13 25 0xFFFFF65A),
      (0b1_110010_11001_01101_110_1101_0_1100011#32, .bltu 13 25 0xFFFFF65A),
      (0b1_110010_11001_01101_111_1101_0_1100011#32, .bgeu 13 25 0xFFFFF65A)] : List (Word × Instr)),
      decode p.1 = .ok p.2 := by decide

/-- Words written out from the encodings: stores (`30_encoding.md` R62, R63, R66, R72 to R82). -/
theorem test_decode_stores :
    ∀ p ∈ ([(0b1101101_11001_01101_000_00101_0100011#32, .sb 13 25 0xFFFFFDA5),
      (0b1101101_11001_01101_001_00101_0100011#32, .sh 13 25 0xFFFFFDA5),
      (0b1101101_11001_01101_010_00101_0100011#32, .sw 13 25 0xFFFFFDA5)] : List (Word × Instr)),
      decode p.1 = .ok p.2 := by decide

/-- Words written out from the encodings: immediates (`30_encoding.md` R62, R63, R66, R72 to R82). -/
theorem test_decode_immediates :
    ∀ p ∈ ([(0b110110100101_01101_000_10110_0010011#32, .addi 22 13 0xFFFFFDA5),
      (0b110110100101_01101_010_10110_0010011#32, .slti 22 13 0xFFFFFDA5),
      (0b110110100101_01101_011_10110_0010011#32, .sltiu 22 13 0xFFFFFDA5),
      (0b110110100101_01101_100_10110_0010011#32, .xori 22 13 0xFFFFFDA5),
      (0b110110100101_01101_110_10110_0010011#32, .ori 22 13 0xFFFFFDA5),
      (0b110110100101_01101_111_10110_0010011#32, .andi 22 13 0xFFFFFDA5),
      (0b000000010110_01101_001_10110_0010011#32, .slli 22 13 0x16),
      (0b000000010110_01101_101_10110_0010011#32, .srli 22 13 0x16),
      (0b010000010110_01101_101_10110_0010011#32, .srai 22 13 0x416)] : List (Word × Instr)),
      decode p.1 = .ok p.2 := by decide

/-- Words written out from the encodings: registers (`30_encoding.md` R62, R63, R66, R72 to R82). -/
theorem test_decode_registers :
    ∀ p ∈ ([(0b0000000_11001_01101_000_10110_0110011#32, .add 22 13 25),
      (0b0100000_11001_01101_000_10110_0110011#32, .sub 22 13 25),
      (0b0000000_11001_01101_001_10110_0110011#32, .sll 22 13 25),
      (0b0000000_11001_01101_010_10110_0110011#32, .slt 22 13 25),
      (0b0000000_11001_01101_011_10110_0110011#32, .sltu 22 13 25),
      (0b0000000_11001_01101_100_10110_0110011#32, .xor 22 13 25),
      (0b0000000_11001_01101_101_10110_0110011#32, .srl 22 13 25),
      (0b0100000_11001_01101_101_10110_0110011#32, .sra 22 13 25),
      (0b0000000_11001_01101_110_10110_0110011#32, .or 22 13 25),
      (0b0000000_11001_01101_111_10110_0110011#32, .and 22 13 25)] : List (Word × Instr)),
      decode p.1 = .ok p.2 := by decide

/-- Words written out from the encodings: system (`30_encoding.md` R62, R63, R66, R72 to R82). -/
theorem test_decode_fence_and_system :
    ∀ p ∈ ([(0b110110100101_01101_000_10110_0001111#32, .fence 22 13 0xFFFFFDA5),
      (0b000000000000_01101_000_10110_1110011#32, .ecall 22 13 0),
      (0b000000000001_01101_000_10110_1110011#32, .ebreak 22 13 1)] : List (Word × Instr)),
      decode p.1 = .ok p.2 := by decide

/-- Words written out from the encodings: multiply and divide (`30_encoding.md` R62, R63, R66, R72 to R82). -/
theorem test_decode_multiply_divide :
    ∀ p ∈ ([(0b0000001_11001_01101_000_10110_0110011#32, .mul 22 13 25),
      (0b0000001_11001_01101_001_10110_0110011#32, .mulh 22 13 25),
      (0b0000001_11001_01101_010_10110_0110011#32, .mulhsu 22 13 25),
      (0b0000001_11001_01101_011_10110_0110011#32, .mulhu 22 13 25),
      (0b0000001_11001_01101_100_10110_0110011#32, .div 22 13 25),
      (0b0000001_11001_01101_101_10110_0110011#32, .divu 22 13 25),
      (0b0000001_11001_01101_110_10110_0110011#32, .rem 22 13 25),
      (0b0000001_11001_01101_111_10110_0110011#32, .remu 22 13 25)] : List (Word × Instr)),
      decode p.1 = .ok p.2 := by decide

/-- Words written out from the encodings: atomics (`30_encoding.md` R62, R63, R66, R72 to R82). -/
theorem test_decode_atomics :
    ∀ p ∈ ([(0b0001001_11001_01101_010_10110_0101111#32, .lrW 22 13 25),
      (0b0001110_11001_01101_010_10110_0101111#32, .scW 22 13 25),
      (0b0000101_11001_01101_010_10110_0101111#32, .amoswapW 22 13 25),
      (0b0000010_11001_01101_010_10110_0101111#32, .amoaddW 22 13 25),
      (0b0010001_11001_01101_010_10110_0101111#32, .amoxorW 22 13 25),
      (0b0110010_11001_01101_010_10110_0101111#32, .amoandW 22 13 25),
      (0b0100001_11001_01101_010_10110_0101111#32, .amoorW 22 13 25),
      (0b1000010_11001_01101_010_10110_0101111#32, .amominW 22 13 25),
      (0b1010001_11001_01101_010_10110_0101111#32, .amomaxW 22 13 25),
      (0b1100010_11001_01101_010_10110_0101111#32, .amominuW 22 13 25),
      (0b1110001_11001_01101_010_10110_0101111#32, .amomaxuW 22 13 25)] : List (Word × Instr)),
      decode p.1 = .ok p.2 := by decide

/-- V-DEC-21 to V-DEC-40: the words that the decoder rejects. -/
theorem test_decode_errors :
    ∀ p ∈ ([(0x00000000#32, .invalidOpcode 0x00), (0xFFFFFFFF#32, .invalidOpcode 0x7F),
      (0x00000001#32, .invalidOpcode 0x01), (0x0000007B#32, .invalidOpcode 0x7B), (0x00000007#32, .invalidOpcode 0x07),
      (0x0000005B#32, .invalidOpcode 0x5B), (0x40001033#32, .invalidFunct 0x33 1 0x20),
      (0x04000033#32, .invalidFunct 0x33 0 0x02), (0x40009013#32, .invalidFunct 0x13 1 0x20),
      (0x0200D013#32, .invalidFunct 0x13 5 0x01), (0x02001013#32, .invalidFunct 0x13 1 0x01),
      (0x00003003#32, .invalidFunct 0x03 3 0), (0x00006003#32, .invalidFunct 0x03 6 0),
      (0x00003023#32, .invalidFunct 0x23 3 0), (0x00002063#32, .invalidFunct 0x63 2 0),
      (0x00003063#32, .invalidFunct 0x63 3 0), (0x00001067#32, .invalidFunct 0x67 1 0),
      (0x0000302F#32, .invalidFunct 0x2F 3 0), (0xFFF0F0B3#32, .invalidFunct 0x33 7 0x7F),
      (0x00000080#32, .invalidOpcode 0x00), (0x0000100F#32, .invalidFunct 0x0F 1 0),
      (0xC00022F3#32, .invalidFunct 0x73 2 0x60)] : List (Word × DecodeError)),
      decode p.1 = .error p.2 := by decide

/-- V-DEC-1, read as an opcode-table word of 32 bits. -/
theorem test_decodeTableWord :
    decodeTableWord 32 0x00C58533 = some (.add 10 11 12) ∧ decodeTableWord 32 0 = none ∧
    decodeTableWord 33 0x00C58533 = none := by decide

/-! ## The ALU: V-ALU -/

theorem test_alu_flags :
    ∀ p ∈ ([(.add, 0xFFFFFFFF, 1, 0, true, false, true, false), (.add, 0x7FFFFFFF, 1, 0x80000000, false, true, false, true),
      (.add, 0x80000000, 0x80000000, 0, true, false, true, true), (.sub, 5, 5, 0, true, false, true, false),
      (.sub, 0, 1, 0xFFFFFFFF, false, true, false, false), (.sub, 0x80000000, 1, 0x7FFFFFFF, false, false, true, true),
      (.sub, 0, 0x80000000, 0x80000000, false, true, false, true), (.sll, 0x80000001, 1, 2, false, false, false, false),
      (.sra, 0x80000000, 0x1F, 0xFFFFFFFF, false, true, false, false),
      (.sltu, 0x80000000, 0x7FFFFFFF, 0, true, false, false, false)] :
        List (AluOp × Word × Word × Word × Bool × Bool × Bool × Bool)),
      match p with
      | (op, a, b, r, z, n, c, v) =>
        aluResult op a b = r ∧ (aluFlags op a b r).z = z ∧ (aluFlags op a b r).n = n ∧ (aluFlags op a b r).c = c ∧
          (aluFlags op a b r).v = v := by decide

/-! ## Instructions: the register they write, once settled -/

/-- V-CI-3, V-CI-5, V-CI-4. -/
theorem test_add :
    (settled (after (executing 0#32 (.add 3 1 2) [(1, 0x7FFFFFFF), (2, 1)]))).x 3 = 0x80000000 ∧
    (settled (after (executing 0#32 (.add 1 1 1) [(1, 0x40000000)]))).x 1 = 0x80000000 ∧
    (settled (after (executing 0#32 (.add 0 1 2) [(1, 3), (2, 4)]))).x 0 = 0 := by decide

/-- V-CI-6. -/
theorem test_sub :
    (settled (after (executing 0#32 (.sub 3 1 2) [(1, 5), (2, 7)]))).x 3 = 0xFFFFFFFE := by decide

/-- V-CI-11. -/
theorem test_sll :
    (settled (after (executing 0#32 (.sll 3 1 2) [(1, 0x12345678), (2, 0x21)]))).x 3 = 0x2468ACF0 := by decide

/-- V-CI-13. -/
theorem test_slt :
    (settled (after (executing 0#32 (.slt 3 1 2) [(1, 0x80000000), (2, 0x7FFFFFFF)]))).x 3 = 1 := by decide

/-- V-CI-15. -/
theorem test_sltu :
    (settled (after (executing 0#32 (.sltu 3 1 2) [(1, 0xFFFFFFFF), (2, 1)]))).x 3 = 0 := by decide

/-- V-CI-17. -/
theorem test_xor :
    (settled (after (executing 0#32 (.xor 3 1 2) [(1, 0xFF00FF00), (2, 0x0FF00FF0)]))).x 3 = 0xF0F0F0F0 := by decide

/-- V-CI-20. -/
theorem test_srl :
    (settled (after (executing 0#32 (.srl 3 1 2) [(1, 0x80000000), (2, 0xFFFFFFE0)]))).x 3 = 0x80000000 := by decide

/-- V-CI-21. -/
theorem test_sra :
    (settled (after (executing 0#32 (.sra 3 1 2) [(1, 0x80000000), (2, 0x1F)]))).x 3 = 0xFFFFFFFF := by decide

/-- V-CI-23. -/
theorem test_or :
    (settled (after (executing 0#32 (.or 3 1 2) [(1, 0xF0), (2, 0x0F)]))).x 3 = 0xFF := by decide

/-- V-CI-24. -/
theorem test_and :
    (settled (after (executing 0#32 (.and 3 1 2) [(1, 0xF0F0), (2, 0xFF00)]))).x 3 = 0xF000 := by decide

/-- V-CI-29. -/
theorem test_addi :
    (settled (after (executing 0#32 (.addi 2 1 0x7FF) [(1, 0xFFFFFFFF)]))).x 2 = 0x7FE := by decide

/-- V-CI-32. -/
theorem test_slti :
    (settled (after (executing 0#32 (.slti 2 1 0xFFFFF800) [(1, 0x80000000)]))).x 2 = 1 := by decide

/-- V-CI-34. -/
theorem test_sltiu :
    (settled (after (executing 0#32 (.sltiu 2 1 0xFFFFFFFF) [(1, 0xFFFFFFFE)]))).x 2 = 1 := by decide

/-- V-CI-36. -/
theorem test_xori :
    (settled (after (executing 0#32 (.xori 2 1 0xFFFFFFFF) [(1, 0x0F)]))).x 2 = 0xFFFFFFF0 := by decide

/-- V-CI-38. -/
theorem test_ori :
    (settled (after (executing 0#32 (.ori 2 1 0xFFFFF800) [(1, 0)]))).x 2 = 0xFFFFF800 := by decide

/-- V-CI-39. -/
theorem test_andi :
    (settled (after (executing 0#32 (.andi 2 1 0xFF) [(1, 0x12345678)]))).x 2 = 0x78 := by decide

/-- V-CI-42. -/
theorem test_slli :
    (settled (after (executing 0#32 (.slli 2 1 31) [(1, 0xFFFFFFFF)]))).x 2 = 0x80000000 := by decide

/-- V-CI-43. -/
theorem test_srli :
    (settled (after (executing 0#32 (.srli 2 1 4) [(1, 0x80000000)]))).x 2 = 0x08000000 := by decide

/-- V-CI-45. -/
theorem test_srai :
    (settled (after (executing 0#32 (.srai 2 1 0x404) [(1, 0x80000000)]))).x 2 = 0xF8000000 := by decide

/-- V-CI-48. -/
theorem test_lui :
    (settled (after (executing 0#32 (.lui 5 0xFFFFF000) []))).x 5 = 0xFFFFF000 := by decide

/-- V-CI-52. -/
theorem test_auipc :
    (settled (after (executing 0x2000#32 (.auipc 6 0xFFFFF000) []))).x 6 = 0x1000 := by decide

/-! ## Control transfers: the address of the next fetch, the link, the halt -/

/-- V-CT-1, V-CT-2. -/
theorem test_beq :
    (after (executing 0x20#32 (.beq 1 2 16) [(1, 7), (2, 7)])).pc = 0x30 ∧
    (after (executing 0x20#32 (.beq 1 2 16) [(1, 7), (2, 8)])).pc = 0x2C := by decide

/-- V-CT-4, V-CT-5. -/
theorem test_bne :
    (after (executing 0x20#32 (.bne 1 2 16) [(1, 1), (2, 2)])).pc = 0x30 ∧
    (after (executing 0x20#32 (.bne 1 2 16) [(1, 1), (2, 1)])).pc = 0x2C := by decide

/-- V-CT-7, V-CT-8. -/
theorem test_blt :
    (after (executing 0x20#32 (.blt 1 2 16) [(1, 0xFFFFFFFF), (2, 1)])).pc = 0x30 ∧
    (after (executing 0x20#32 (.blt 1 2 16) [(1, 0x7FFFFFFF), (2, 0x80000000)])).pc = 0x2C := by decide

/-- V-CT-11, V-CT-10. -/
theorem test_bge :
    (after (executing 0x20#32 (.bge 1 2 16) [(1, 5), (2, 5)])).pc = 0x30 ∧
    (after (executing 0x20#32 (.bge 1 2 16) [(1, 0xFFFFFFFF), (2, 1)])).pc = 0x2C := by decide

/-- V-CT-14, V-CT-13. -/
theorem test_bltu :
    (after (executing 0x20#32 (.bltu 1 2 16) [(1, 1), (2, 0xFFFFFFFF)])).pc = 0x30 ∧
    (after (executing 0x20#32 (.bltu 1 2 16) [(1, 0xFFFFFFFF), (2, 1)])).pc = 0x2C := by decide

/-- V-CT-16, V-CT-18. -/
theorem test_bgeu :
    (after (executing 0x20#32 (.bgeu 1 2 16) [(1, 0xFFFFFFFF), (2, 1)])).pc = 0x30 ∧
    (after (executing 0x20#32 (.bgeu 1 2 16) [(1, 1), (2, 2)])).pc = 0x2C := by decide

/-- V-CT-19, V-CT-20: a taken branch to a misaligned target halts, one that is not taken is not checked. -/
theorem test_branch_target :
    (after (executing 0x20#32 (.beq 0 0 6) [])).halted
      = some { error := .misalignedTarget 0x26, stage := some .execute, tick := 3, pc := some 0x20 } ∧
    (after (executing 0x20#32 (.bne 0 0 6) [])).halted = none := by decide

/-- V-CT-23, V-CT-24. -/
theorem test_jal :
    (after (executing 0x100#32 (.jal 1 0xFFFFFF00) [])).pc = 0 ∧
    (settled (after (executing 0x100#32 (.jal 1 0xFFFFFF00) []))).x 1 = 0x104 ∧
    (after (executing 0x100#32 (.jal 0 2) [])).halted
      = some { error := .misalignedTarget 0x102, stage := some .execute, tick := 3, pc := some 0x100 } := by decide

/-- V-CT-25, V-CT-26; with rd = rs1 the target is read before the link is written (R146). -/
theorem test_jalr :
    (after (executing 0x10#32 (.jalr 1 5 4) [(5, 0x201)])).pc = 0x204 ∧
    (settled (after (executing 0x10#32 (.jalr 1 5 4) [(5, 0x201)]))).x 1 = 0x14 ∧
    (after (executing 0x10#32 (.jalr 5 5 4) [(5, 0x201)])).pc = 0x204 ∧
    (after (executing 0x10#32 (.jalr 1 5 4) [(5, 0x202)])).halted
      = some { error := .misalignedTarget 0x206, stage := some .execute, tick := 3, pc := some 0x10 } := by decide

/-! ## Loads and stores: the settled state, and the error MemAccess raises in the next tick -/

/-- V-LS-1, V-LS-19. -/
theorem test_lb :
    (settled (after (accessing (.lb 5 6 0) [(6, 0x10)]))).x 5 = 0xFFFFFF80 ∧
    memFault (after (accessing (.lb 5 6 0) [(6, 0x100)])) = some ⟨.outOfBounds 0x100, .memAccess, 0⟩ := by decide

/-- V-LS-4, V-LS-20. -/
theorem test_lbu :
    (settled (after (accessing (.lbu 5 6 0xFFFFFFFF) [(6, 0x10)]))).x 5 = 0xFF ∧
    memFault (after (accessing (.lbu 5 0 0xFFFFFFFF) [])) = some ⟨.outOfBounds 0xFFFFFFFF, .memAccess, 0⟩ := by decide

/-- V-LS-5, V-LS-17. -/
theorem test_lh :
    (settled (after (accessing (.lh 5 6 2) [(6, 0x10)]))).x 5 = 0xFFFF9234 ∧
    memFault (after (accessing (.lh 5 6 0) [(6, 0xFF)])) = some ⟨.misaligned 0xFF, .memAccess, 0⟩ := by decide

/-- V-LS-8, V-LS-9. -/
theorem test_lhu :
    (settled (after (accessing (.lhu 5 6 2) [(6, 0x10)]))).x 5 = 0x9234 ∧
    memFault (after (accessing (.lhu 5 6 3) [(6, 0x10)])) = some ⟨.misaligned 0x13, .memAccess, 0⟩ := by decide

/-- V-LS-22, V-LS-21. -/
theorem test_lw :
    (settled (after (accessing (.lw 6 6 4) [(6, 0x10)]))).x 6 = 0x11223344 ∧
    memFault (after (accessing (.lw 5 6 0) [(6, 0xFFFFFFFC)])) = some ⟨.outOfBounds 0xFFFFFFFC, .memAccess, 0⟩ := by decide

/-- V-LS-23, V-LS-25; the bytes around the stored ones keep their values. -/
theorem test_sb :
    ((List.range 3).map fun k => (settled (after (accessing (.sb 6 7 0) [(6, 0x10), (7, 0x12345678)]))).dmem.read (0x0F + k)) = [0xFF, 0x78, 0x7F] ∧
    memFault (after (accessing (.sb 6 7 0) [(6, 0x100)])) = some ⟨.outOfBounds 0x100, .memAccess, 0⟩ := by decide

/-- V-LS-26, V-LS-27; the bytes around the stored ones keep their values. -/
theorem test_sh :
    ((List.range 4).map fun k => (settled (after (accessing (.sh 6 7 2) [(6, 0x10), (7, 0x12345678)]))).dmem.read (0x11 + k)) = [0x7F, 0x78, 0x56, 0x44] ∧
    memFault (after (accessing (.sh 6 7 1) [(6, 0x10)])) = some ⟨.misaligned 0x11, .memAccess, 0⟩ := by decide

/-- V-LS-33, V-LS-31; the bytes around the stored ones keep their values. -/
theorem test_sw :
    ((List.range 6).map fun k => (settled (after (accessing (.sw 6 7 0xFFFFFFFC) [(6, 0x14), (7, 0xCAFEF00D)]))).dmem.read (0x0F + k)) = [0xFF, 0x0D, 0xF0, 0xFE, 0xCA, 0x44] ∧
    memFault (after (accessing (.sw 6 7 0) [(6, 0xFE)])) = some ⟨.misaligned 0xFE, .memAccess, 0⟩ := by decide

/-! ## FENCE, system, RV32M, RV32A -/

/-- V-SYS-2: no diagnostic and no register written, whatever the fields. -/
theorem test_fence :
    (after (executing 8#32 (.fence 1 2 0x33) [(1, 5)])).diags = [] ∧
    (settled (after (executing 8#32 (.fence 1 2 0x33) [(1, 5)]))).x 1 = 5 := by decide

/-- V-SYS-8, V-SYS-9. -/
theorem test_ecall_ebreak :
    (after (executing 8#32 (.ecall 1 0 0) [(1, 5)])).diags = [{ uop := .ecall, pc := 8, tick := 3 }] ∧
    (settled (after (executing 8#32 (.ecall 1 0 0) [(1, 5)]))).x 1 = 5 ∧
    (after (executing 8#32 (.ebreak 0 0 1) [])).diags = [{ uop := .ebreak, pc := 8, tick := 3 }] := by decide

/-- V-RSV: each records its diagnostic and leaves x3 alone, divisions by zero included. -/
theorem test_multiply_divide :
    ∀ i ∈ ([.mul 3 1 2, .mulh 3 1 2, .mulhsu 3 1 2, .mulhu 3 1 2, .div 3 1 0, .divu 3 1 0, .rem 3 1 0, .remu 3 1 0] :
        List Instr),
      (after (executing 8#32 i [(1, 7), (2, 9), (3, 0xAA)])).diags = [{ uop := i.uop, pc := 8, tick := 3 }] ∧
      (settled (after (executing 8#32 i [(1, 7), (2, 9), (3, 0xAA)]))).x 3 = 0xAA := by decide

/-- V-RSV: each records its diagnostic and leaves x5 and DMEM alone, at a misaligned address too. -/
theorem test_atomics :
    ∀ i ∈ ([.lrW 5 6 0, .scW 5 6 7, .amoswapW 5 6 7, .amoaddW 5 6 7, .amoxorW 5 6 7, .amoandW 5 6 7, .amoorW 5 6 7,
        .amominW 5 6 7, .amomaxW 5 6 7, .amominuW 5 6 7, .amomaxuW 5 6 7] : List Instr),
      (after (accessing i [(5, 0xAA), (6, 0x11), (7, 9)])).diags = [{ uop := i.uop, pc := 0, tick := 3 }] ∧
      (settled (after (accessing i [(5, 0xAA), (6, 0x11), (7, 9)]))).x 5 = 0xAA ∧
      (settled (after (accessing i [(5, 0xAA), (6, 0x11), (7, 9)]))).dmem = vlsMemory := by decide

/-! ## The engine -/

/-- Program P1 of the vectors, up to its second shadow: `addi x1, x0, 5`, `addi x2, x1, 1`, `nop`, `addi x3, x1, 1`, `nop`s. -/
def programP1 : State :=
  loaded [0x00500093#32, 0x00108113#32, 0x00000013#32, 0x00108193#32, 0x00000013#32, 0x00000013#32, 0x00000013#32,
    0x00000000#32]

/-- V-TIM-1, tick 1: the word at 0 is fetched. -/
theorem test_first_tick :
    (after programP1).fd = some { pc := 0, word := 0x00500093 } ∧ (after programP1).pc = 4 ∧ (after programP1).tick = 1 := by
  decide

/-- V-SYS-11, at Decode: MRET halts. -/
theorem test_decode_halt :
    (after { executing 0#32 (.fence 0 0 0) [] with fd := some { pc := 4, word := 0x30200073 } }).halted
      = some { error := .decode (.invalidFunct 0x73 0 0x18), stage := some .decode, tick := 3, pc := some 4 } := by decide

/-- V-EXC-6: a fetch past IMEM_WORDS. -/
theorem test_fetch_halt :
    (after { loaded [0x00000013#32] with pc := 4 }).halted
      = some { error := .outOfBounds 4, stage := some .fetch, tick := 1, pc := some 4 } := by decide

/-- A state in which MemAccess, Execute, Decode and Fetch all raise a fatal error, and Writeback has a write (V-EXC-1). -/
def allStagesFail : State :=
  { executing 0x20#32 (.jal 1 2) [] with
    pc := 0x4000
    fd := some { pc := 0x24, word := 0 }
    em := some { pc := 0x1C, uop := .sw, rd := 0, result := 0, flags := zeroFlags, addr := 0x11, storeData := 0xAB,
                 noop := false }
    mw := some { pc := 0x18, rd := 7, value := 0x77, we := true } }

/-- V-EXC-1: the oldest stage's error is recorded and Writeback's write commits. -/
theorem test_oldest_error :
    (after allStagesFail).halted
      = some { error := .misaligned 0x11, stage := some .memAccess, tick := 3, pc := some 0x1C } ∧
    (after allStagesFail).x 7 = 0x77 ∧ (after allStagesFail).dmem = [] ∧ (after allStagesFail).pc = 0x4000 := by decide

/-- V-EXC-2: a store in MemAccess commits while Decode halts. -/
theorem test_older_store_commits :
    (after { executing 0x20#32 (.fence 0 0 0) [] with
        fd := some { pc := 0x24, word := 0 }
        em := some { pc := 0x1C, uop := .sb, rd := 0, result := 0, flags := zeroFlags, addr := 0x10, storeData := 0xAB,
                     noop := false } }).dmem = [(0x10, 0xAB)] := by decide

/-- R193: a trailing part of a word is not loaded, and words past IMEM_WORDS are not either. -/
theorem test_loader :
    loadImage { imemWords := 2, dmemBytes := 0 } [0x93, 0x00, 0x50, 0x00, 0x11, 0x22] []
      = [(0, 0x93), (2, 0x50)] ∧
    loadImage { imemWords := 1, dmemBytes := 0 } [1, 2, 3, 4, 5, 6, 7, 8] [(4, 9), (3, 9)] = [(0, 1), (1, 2), (2, 3), (3, 4)] := by
  decide

/-- R43, R49, log 15: the last pair for a byte counts, and a pair outside the memory does not. -/
theorem test_memoryOf : memoryOf 2 [(0, 9), (1, 7), (0, 8), (2, 5)] = [(0, 8), (1, 7)] := by decide

/-- R179, R8. -/
theorem test_launch_refused :
    launch { imemWords := 1, dmemBytes := 0 } "p" none [] [] = .refused (.imageUnreadable "p") ∧
    launch { imemWords := 0, dmemBytes := 0 } "p" (some []) [] []
      = .refused (.paramsOutOfRange { imemWords := 0, dmemBytes := 0 }) := ⟨rfl, rfl⟩

/-! ## Witnesses: states and operands that meet the hypotheses of each statement -/

/-- What the statements of one instruction ask for, for every instruction (`Ready`): RegisterInstructionsCompute,
ImmediateInstructionsCompute, UpperImmediateInstructionsCompute, FenceHasNoEffect, EnvironmentInstructionsAreNoops,
MultiplyDivideInstructionsAreNoops, AtomicInstructionsAreNoops. -/
theorem witness_Ready (i : Instr) : Ready i 0x20#32 (executing 0x20#32 i []) :=
  ⟨⟨rfl, rfl, rfl,
    (fetchFault_congr (s := executing 0x20#32 i []) (t := executing 0x20#32 (.ecall 0 0 0) []) rfl rfl rfl).trans
      (by decide)⟩, rfl⟩

theorem witness_DecodeOfEncodeIsTheInstruction :
    ∀ i ∈ ([.lui 31 0xFFFFF000, .auipc 0 0, .jal 1 0xFFF00000, .jal 0 0xFFFFE, .beq 31 30 0xFFFFF000, .bgeu 1 2 0xFFE,
        .jalr 31 1 0xFFFFF800, .lhu 1 2 0x7FF, .sw 3 4 0xFFFFF800, .slli 5 6 31, .srai 5 6 0x400, .amomaxuW 1 2 3] : List Instr),
      i.wf = true := by decide

theorem witness_DecodedInstructionsAreWellFormed : decode 0x80000063#32 = .ok (.beq 0 0 0xFFFFF000) := by decide

/-- An AMO word with `aq` and `rl` set, and a word of another opcode. -/
theorem witness_EncodeOfDecodeIsTheWord :
    decode 0x0672A52F#32 = .ok (.amoaddW 10 5 7) ∧ (Instr.amoaddW 10 5 7).opcode = 0x2F#7 ∧
    decode 0x00C58533#32 = .ok (.add 10 11 12) := by decide

theorem witness_UnknownOpcodesAreInvalidOpcode :
    (opcodeOf 0x00000080#32 ∉ knownOpcodes) ∧ decode 0xFFFFFFFF#32 = .error (.invalidOpcode 0x7F#7) := by decide

theorem witness_InvalidFunctCarriesTheWordsFields :
    decode 0xFFF0F0B3#32 = .error (.invalidFunct 0x33#7 7#3 0x7F#7) := by decide

/-- Each clause with every untested bit set. -/
theorem witness_UntestedBitsDoNotChangeTheMicroOp :
    0xFFFF8F8F#32 &&& 0x0000707F#32 = 0x0000000F#32 ∧ 0x000F8FF3#32 &&& 0xFFF0707F#32 = 0x00000073#32 ∧
    0x001F8FF3#32 &&& 0xFFF0707F#32 = 0x00100073#32 ∧ 0x17FFAFAF#32 &&& 0xF800707F#32 = 0x1000202F#32 ∧
    0xE7FFAFAF#32 &&& 0x0000007F#32 = 0x0000002F#32 ∧ decode 0xE7FFAFAF#32 = .ok (.amomaxuW 31 31 31) := by decide

theorem witness_StepExecutesTheDecodedInstruction :
    iMemRead programP1 programP1.pc = .ok 0x00500093#32 ∧ decode 0x00500093#32 = .ok (.addi 1 0 5) ∧
    programP1.halted = none ∧ step programP1 = .next (after programP1) ∧ (after programP1).halted = none ∧
    step (after programP1) = .next (after (after programP1)) ∧ (after (after programP1)).halted = none ∧
    programP1.de = none := by
  refine ⟨by decide, by decide, rfl, step_after _, by decide, step_after _, by decide, rfl⟩

theorem witness_HaltedTickChangesNothing : (after allStagesFail).halted ≠ none := by decide

theorem witness_TickCounterCountsPerformedTicks :
    (programP1.halted = none ∧ step programP1 = .next (after programP1)) ∧
    ((after allStagesFail).halted ≠ none ∧ step (after allStagesFail) = .next (after (after allStagesFail))) :=
  ⟨⟨rfl, step_after _⟩, by decide, step_after _⟩

/-- Every latch full: an instruction in each stage, none of which raises an error. The instruction in Execute reads no register
that the two before it write. -/
def allStagesBusy : State :=
  { executing 0x20#32 (.add 3 1 2) [(1, 7), (2, 9)] with
    fd := some { pc := 0x24, word := 0x00000013 }
    em := some { pc := 0x1C, uop := .addi, rd := 6, result := 0x66, flags := zeroFlags, addr := 0, storeData := 0,
                 noop := false }
    mw := some { pc := 0x18, rd := 7, value := 0x77, we := true } }

theorem witness_LatchesAdvanceOneStage :
    (allStagesBusy.halted = none ∧ step allStagesBusy = .next (after allStagesBusy) ∧ (after allStagesBusy).halted = none ∧
      allStagesBusy.fd ≠ none ∧ allStagesBusy.de ≠ none ∧ allStagesBusy.em ≠ none) ∧
    (programP1.halted = none ∧ step programP1 = .next (after programP1) ∧ (after programP1).halted = none ∧
      programP1.fd = none ∧ programP1.de = none ∧ programP1.em = none) :=
  ⟨⟨rfl, step_after _, by decide, by decide, by decide, by decide⟩, rfl, step_after _, by decide, rfl, rfl, rfl⟩

/-- Four errors at once, one alone, none. -/
theorem witness_OldestFatalErrorHalts :
    (allStagesFail.halted = none ∧ step allStagesFail = .next (after allStagesFail) ∧ (fatalErrors allStagesFail).length = 4) ∧
    fatalErrors { programP1 with pc := 0x20 } = [⟨.outOfBounds 0x20, .fetch, 0x20⟩] ∧
    (programP1.halted = none ∧ step programP1 = .next (after programP1) ∧ fatalErrors programP1 = []) :=
  ⟨⟨rfl, step_after _, by decide⟩, by decide, rfl, step_after _, by decide⟩

theorem witness_ShutdownDrainsAndStops : allStagesBusy.halted = none := rfl

theorem witness_EveryTickKeepsInvariant : Inv allStagesBusy ∧ step allStagesBusy = .next (after allStagesBusy) := by
  refine ⟨?_, step_after _⟩
  constructor <;> simp [allStagesBusy, executing] <;> decide

theorem witness_ProgramCounterStaysAligned :
    (allStagesBusy.pc.toNat % 4 = 0 ∧ step allStagesBusy = .next (after allStagesBusy)) ∧
    ((executing 0x20#32 (.jal 1 2) []).halted = none ∧
      seqTarget 0x20#32 (.jal 1 2) { regs := (executing 0x20#32 (.jal 1 2) []).regs, dmem := [] } = some 0x22#32 ∧
      (0x22#32).toNat % 4 ≠ 0 ∧ memFault (executing 0x20#32 (.jal 1 2) []) = none) :=
  ⟨⟨by decide, step_after _⟩, rfl, by decide, by decide, rfl⟩

/-- A store to the last word of DMEM in MemAccess. -/
def storing : State :=
  { executing 0x20#32 (.lw 5 6 0) [(6, 0xFC)] with
    em := some { pc := 0x1C, uop := .sw, rd := 0, result := 0, flags := zeroFlags, addr := 0xFC, storeData := 1,
                 noop := false } }

/-- A tick with a register write and one with a store; in each, one register or byte that the premises single out. -/
theorem witness_InstructionTickFrame :
    (∃ t, exec (.add 3 1 2) allStagesBusy = .next t) ∧ wbThisTick allStagesBusy.mw = some (7, 0x77) ∧
    storeThisTick storing = some (0xFC, 4, 1) := ⟨⟨_, rfl⟩, by decide, by decide⟩

theorem witness_RegisterZeroIsHardWired : step allStagesBusy = .next (after allStagesBusy) := step_after _

/-- Two ticks of program P1 from engine start. -/
theorem witness_SettledStateArrives :
    programP1.halted = none ∧ step programP1 = .next (after programP1) ∧ (after programP1).halted = none ∧
    step (after programP1) = .next (after (after programP1)) ∧ (after (after programP1)).halted = none :=
  ⟨rfl, step_after _, by decide, step_after _, by decide⟩

/-- Program P1 one tick before its first instruction is in Execute, and the same state with another one there. -/
def beforeExecute : State := after (after programP1)

theorem witness_ResultsAreSeenThreeSlotsLater :
    (beforeExecute.halted = none ∧ step beforeExecute = .next (after beforeExecute) ∧ (after beforeExecute).halted = none ∧
      step (after beforeExecute) = .next (after (after beforeExecute)) ∧ (after (after beforeExecute)).halted = none ∧
      step (after (after beforeExecute)) = .next (after (after (after beforeExecute))) ∧
      (after (after (after beforeExecute))).halted = none) ∧
    (step { beforeExecute with de := none } = .next (after { beforeExecute with de := none }) ∧
      (after { beforeExecute with de := none }).halted = none ∧
      step (after { beforeExecute with de := none }) = .next (after (after { beforeExecute with de := none })) ∧
      (after (after { beforeExecute with de := none })).halted = none) :=
  ⟨⟨by decide, step_after _, by decide, step_after _, by decide, step_after _, by decide⟩,
    step_after _, by decide, step_after _, by decide⟩

/-- Writes still pending from both instructions before it, a taken transfer, and an empty DE. -/
theorem witness_TickRefinesSequentialExecution :
    (allStagesBusy.halted = none ∧ allStagesBusy.de = some { pc := 0x20, dec := .add 3 1 2 } ∧
      pendingRegs allStagesBusy = [7, 6] ∧ hazardFree allStagesBusy (.add 3 1 2) = true ∧
      step allStagesBusy = .next (after allStagesBusy) ∧ (after allStagesBusy).halted = none ∧
      memFault (after allStagesBusy) = none) ∧
    (seqTarget 0x20 (.jal 1 0x10) (settled (executing 0x20#32 (.jal 1 0x10) [])) = some 0x30 ∧
      hazardFree (executing 0x20#32 (.jal 1 0x10) []) (.jal 1 0x10) = true ∧
      (after (executing 0x20#32 (.jal 1 0x10) [])).halted = none ∧
      memFault (after (executing 0x20#32 (.jal 1 0x10) [])) = none) ∧
    (programP1.halted = none ∧ programP1.de = none ∧ (after programP1).halted = none) :=
  ⟨⟨rfl, rfl, by decide, by decide, step_after _, by decide, by decide⟩,
    ⟨by decide, by decide, by decide, by decide⟩, rfl, rfl, by decide⟩

/-- An SB to 0x13 in MemAccess and an LH from 0x12 in Execute. -/
def storedByte : State :=
  { accessing (.lh 5 6 0) [(6, 0x12)] with
    pc := 0x28
    de := some { pc := 0x20, dec := .lh 5 6 0 }
    em := some { pc := 0x1C, uop := .sb, rd := 0, result := 0, flags := zeroFlags, addr := 0x13, storeData := 0xAB,
                 noop := false } }

/-- The state after `n` steps. -/
def afterN : Nat → State → State
  | 0, s => s
  | n + 1, s => after (afterN n s)

theorem runsTo_afterN {n : Nat} {s : State} (h : ∀ j, j ≤ n → (afterN j s).halted = none) : RunsTo n s (afterN n s) := by
  induction n with
  | zero => exact runsTo_zero.2 ⟨rfl, h 0 (Nat.le_refl 0)⟩
  | succ n ih =>
    exact runsTo_succ_last.2 ⟨_, ih fun j hj => h j (by omega), step_after _, h (n + 1) (Nat.le_refl _)⟩

/-- The shortest program of the convention of R196: three NOPs and the word 0x00000000. -/
def shortestImage : List Byte := [0x13, 0, 0, 0, 0x13, 0, 0, 0, 0x13, 0, 0, 0, 0, 0, 0, 0]

def shortest : State := { State.reset with
  params := { imemWords := 4, dmemBytes := 256 }
  imem := loadImage { imemWords := 4, dmemBytes := 256 } shortestImage []
  dmem := memoryOf 256 [] }

theorem shortest_runs : ∀ j, j ≤ 4 → (afterN j shortest).halted = none := by decide

theorem shortest_nops : ∀ j, 3 - 3 ≤ j → j < 3 → iMemRead shortest (wordAddress j) = .ok 0x00000013#32 := by
  intro j _ h
  match j, h with
  | 0, _ => decide
  | 1, _ => decide
  | 2, _ => decide

theorem witness_ConventionalProgramsEnd : ConventionalEnd shortest 3 0 where
  room := Nat.le_refl 3
  range := by decide
  nops := shortest_nops
  last := by decide
  fetched := by
    intro j hj
    refine ⟨afterN j shortest, ?_, ?_⟩
    · rw [Nat.zero_add]
      exact runsTo_afterN fun i hi => shortest_runs i (by omega)
    · match j, hj with
      | 0, _ => decide
      | 1, _ => decide
      | 2, _ => decide
      | 3, _ => decide

/-- V-TIM-3: for the word index 3 the halt is in tick 5, after four ticks that go on. -/
theorem witness_EndStateIsTheHaltingTicks :
    (HaltsAfter 4 shortest (afterN 5 shortest) ∧ (afterN 5 shortest).tick = 5) ∧
    ShutDownAfter 4 shortest (shutdown (afterN 4 shortest)) :=
  ⟨⟨⟨_, runsTo_afterN shortest_runs, step_after _, by decide⟩, by decide⟩, _, runsTo_afterN shortest_runs, rfl⟩

theorem witness_StraightLineProgramsHaltInTickKPlusTwo :
    launch { imemWords := 4, dmemBytes := 256 } "p" (some shortestImage) [] [] = .next shortest ∧
    RunsTo 3 shortest (afterN 3 shortest) ∧
    ∀ j t d, j < 3 → RunsTo j shortest t → t.de = some d →
      seqTarget d.pc d.dec { regs := t.regs, dmem := t.dmem } = none := by
  refine ⟨rfl, runsTo_afterN fun i hi => shortest_runs i (by omega), ?_⟩
  intro j t d hj ht hd
  have h := ht.unique (runsTo_afterN fun i hi => shortest_runs i (by omega))
  subst h
  match j, hj with
  | 0, _ => exact absurd hd (by simp [show (afterN 0 shortest).de = none by decide])
  | 1, _ => exact absurd hd (by simp [show (afterN 1 shortest).de = none by decide])
  | 2, _ =>
    have h : (afterN 2 shortest).de = some { pc := 0, dec := .addi 0 0 0 } := by decide
    rw [h, Option.some.injEq] at hd
    subst hd
    rfl

/-- R196: another word than 0x00000000 with the same error at Decode (V-DEC-40) is no conventional end. -/
theorem test_no_conventional_end :
    (after { executing 0#32 (.fence 0 0 0) [] with fd := some { pc := 4, word := 0x00000080 } }).halted
      = some { error := .decode (.invalidOpcode 0), stage := some .decode, tick := 3, pc := some 4 } ∧
    iMemRead (loaded [0x13#32, 0x13#32, 0x13#32, 0x80#32]) (wordAddress 3) ≠ .ok 0#32 := by decide

/-- A launch with inputs for both memories, in their ranges. -/
theorem witness_EngineStartSatisfiesInvariant :
    (∃ s, launch { imemWords := 2, dmemBytes := 1 } "p" (some [1, 2, 3, 4, 5]) [(0, 9), (1, 9)] [(4, 8)] = .next s) ∧
    Inv allStagesBusy := ⟨⟨_, rfl⟩, witness_EveryTickKeepsInvariant.1⟩

/-- Program P1 from its third tick on, for one tick with an instruction in Execute. -/
theorem witness_HazardFreeRunsAreSequential :
    beforeExecute.em = none ∧ beforeExecute.mw = none ∧ HazardFreeRun 1 beforeExecute ∧
    executed 1 beforeExecute = [(0x0, .addi 1 0 5)] ∧
    RunsTo 2 beforeExecute (after (after beforeExecute)) ∧
    RunsTo 3 beforeExecute (after (after (after beforeExecute))) := by
  have h3 : ∀ j, j ≤ 3 → (afterN j beforeExecute).halted = none := by decide
  refine ⟨by decide, by decide, ⟨?_, fun t _ => trivial⟩, ?_, runsTo_afterN fun j hj => h3 j (by omega), runsTo_afterN h3⟩
  · intro d hd
    have h : beforeExecute.de = some { pc := 0, dec := .addi 1 0 5 } := by decide
    rw [h, Option.some.injEq] at hd
    subst hd
    decide
  · have h : beforeExecute.de = some { pc := 0, dec := .addi 1 0 5 } := by decide
    simp [executed, h, step_after]

/-- 4096 words: misaligned, the first word outside, the last word inside. -/
theorem witness_InstructionMemoryRead :
    iMemRead { executing 0#32 (.ecall 0 0 0) [] with pc := 0x4000#32 } 0x4000#32 = .error (.outOfBounds 0x4000#32) ∧
    (0x4001#32).toNat % 4 ≠ 0 ∧
    ((0x4000#32).toNat % 4 = 0 ∧ (executing 0#32 (.ecall 0 0 0) []).params.imemWords ≤ (0x4000#32).toNat / 4) ∧
    ((0x3FFC#32).toNat % 4 = 0 ∧ (0x3FFC#32).toNat / 4 < (executing 0#32 (.ecall 0 0 0) []).params.imemWords) := by decide

theorem witness_StoredBytesReadBack : vlsMemory.wf = true ∧ (0 : Nat) < 4 ∧ 0x13 < 0x14 := by decide

/-- 256 bytes: misaligned even out of bounds, the first word outside, the last word inside, the top of the address space. -/
theorem witness_AccessIsCheckedForAlignmentThenBounds :
    checkAccess { imemWords := 1, dmemBytes := 256 } 0xFF#32 .half = some (.misaligned 0xFF#32) ∧
    checkAccess { imemWords := 1, dmemBytes := 256 } 0x100#32 .word = some (.outOfBounds 0x100#32) ∧
    checkAccess { imemWords := 1, dmemBytes := 256 } 0xFC#32 .word = none ∧
    checkAccess { imemWords := 1, dmemBytes := 2 ^ 32 } 0xFFFFFFFC#32 .word = none := by decide

/-- An illegal word in FD behind a store that commits. -/
theorem witness_DecodeErrorHalts :
    ∃ s : State, s.halted = none ∧ s.fd = some { pc := 4, word := 0x30200073 } ∧
      decode 0x30200073#32 = .error (.invalidFunct 0x73 0 0x18) ∧ memFault s = none ∧ executeFault s = none :=
  ⟨{ executing 0#32 (.fence 0 0 0) [] with fd := some { pc := 4, word := 0x30200073 } },
    rfl, rfl, by decide, rfl, by decide⟩

theorem witness_FetchOutOfBoundsHalts :
    ∃ s : State, s.halted = none ∧ s.pc.toNat % 4 = 0 ∧ s.params.imemWords ≤ s.pc.toNat / 4 ∧ memFault s = none ∧
      executeFault s = none ∧ decodeFault s = none :=
  ⟨{ loaded [0x00000013#32] with pc := 4 }, rfl, by decide, by decide, rfl, rfl, rfl⟩

/-- Seven bytes: one whole word is loaded, and the bytes from 4 on are those of `imem_fill`. -/
theorem witness_LaunchLoadsTheImage :
    (∃ s, launch { imemWords := 2, dmemBytes := 1 } "p" (some [1, 2, 3, 4, 5, 6, 7]) [(0, 9)] [(4, 8)] = .next s) ∧
    4 * 0 + 3 < ([1, 2, 3, 4, 5, 6, 7] : List Byte).length ∧ 0 < 2 ∧ 4 * min (7 / 4) 2 ≤ 4 := ⟨⟨_, rfl⟩, by decide⟩

/-- The smallest and the largest sizes. -/
theorem witness_LaunchIsRefusedExactlyForAnUnreadableImage :
    ({ imemWords := 1, dmemBytes := 0 } : Params).wf = true ∧
    ({ imemWords := 2 ^ 30, dmemBytes := 2 ^ 32 } : Params).wf = true := by decide

theorem witness_PlacedInstructionRunsInTheNextStep :
    decodeTableWord 32 0x00C58533 = some (.add 10 11 12) ∧ fetchFault State.reset = none := by decide

/-- Rejected words: a shift, a FENCE.I, an AMO with another funct3 and one with another funct5. -/
theorem witness_RejectedFields :
    ((0x01#7 : BitVec 7) ≠ 0x00#7 ∧ (0x01#7 : BitVec 7) ≠ 0x20#7) ∧ (1#3 : BitVec 3) ≠ 0#3 ∧ (3#3 : BitVec 3) ≠ 2#3 ∧
    (0b0010100#7).extractLsb' 2 5 ∉ Stated.knownFunct5 := by decide

/-- Aligned and misaligned targets of both jumps; JALR's with an odd sum, whose bit 0 is cleared. -/
theorem witness_JumpsLinkAndRedirect :
    (Ready (.jal 1 4) 0x20#32 (executing 0x20#32 (.jal 1 4) []) ∧ (0x20#32 + 4#32).toNat % 4 = 0 ∧
      (0x20#32 + 2#32).toNat % 4 ≠ 0) ∧
    (((executing 0x20#32 (.jalr 1 5 4) [(5, 0x201)]).x 5 + 4#32) &&& 0xFFFFFFFE#32).toNat % 4 = 0 ∧
    (((executing 0x20#32 (.jalr 1 5 4) [(5, 0x202)]).x 5 + 4#32) &&& 0xFFFFFFFE#32).toNat % 4 ≠ 0 ∧
    memFault (executing 0x20#32 (.jalr 1 5 4) [(5, 0x202)]) = none ∧ fits21 0xFFF00000 = true :=
  ⟨⟨witness_Ready _, by decide, by decide⟩, by decide, by decide, rfl, by decide⟩

/-- Each condition holds at a boundary and fails beside it; both kinds of target. -/
theorem witness_BranchesRedirectWhenTaken :
    (0xFFFFFFFF#32 = 0xFFFFFFFF#32 ∧ 0#32 ≠ 0x80000000#32) ∧
    ((0x80000000#32).toInt < (0x7FFFFFFF#32).toInt ∧ ¬(5#32).toInt < (5#32).toInt) ∧
    ((0xFFFFFFFF#32).toInt ≥ (0xFFFFFFFF#32).toInt ∧ ¬(0x80000000#32).toInt ≥ (0x7FFFFFFF#32).toInt) ∧
    ((0x7FFFFFFF#32).toNat < (0x80000000#32).toNat ∧ ¬(0xFFFFFFFF#32).toNat < (0#32).toNat) ∧
    ((0x80000000#32).toNat ≥ (0x7FFFFFFF#32).toNat ∧ ¬(0#32).toNat ≥ (1#32).toNat) ∧
    ((0x20#32 + 0xFFFFF000#32).toNat % 4 = 0 ∧ (0x20#32 + 0xFFE#32).toNat % 4 ≠ 0) ∧
    fits13 0xFFFFF000 = true ∧ fits13 0xFFE = true := by decide

/-- Of the branch statement's clauses: a taken and a not taken branch in Execute, and a taken one with a misaligned target. -/
theorem witness_BranchesInExecute :
    (executing 0x20#32 (.bltu 1 2 16) [(1, 1), (2, 0xFFFFFFFF)]).x 1 = 1 ∧
    (executing 0x20#32 (.bltu 1 2 16) [(1, 1), (2, 0xFFFFFFFF)]).x 2 = 0xFFFFFFFF ∧
    Quiet (executing 0x20#32 (.bltu 1 2 16) [(1, 1), (2, 0xFFFFFFFF)]) ∧
    Quiet (executing 0x20#32 (.bne 1 1 6) [(1, 1)]) ∧ memFault (executing 0x20#32 (.beq 1 1 6) [(1, 1)]) = none :=
  ⟨by decide, by decide, ⟨rfl, rfl, rfl, by decide⟩, ⟨rfl, rfl, rfl, by decide⟩, rfl⟩

/-- A JAL in Execute with its two shadow slots in Decode and Fetch. -/
def shadowed : State :=
  { loaded [0x0100006F#32, 0x00000013#32, 0x00000013#32, 0x00000013#32, 0x00000013#32, 0x00000013#32] with
    pc := 8
    fd := some { pc := 4, word := 0x00000013 }
    de := some { pc := 0, dec := .jal 0 0x10 } }

theorem witness_ShadowSlotsExecute :
    shadowed.halted = none ∧ seqTarget 0 (.jal 0 0x10) { regs := shadowed.regs, dmem := shadowed.dmem } = some 0x10 ∧
    step shadowed = .next (after shadowed) ∧ (after shadowed).halted = none ∧
    step (after shadowed) = .next (after (after shadowed)) ∧ (after (after shadowed)).halted = none :=
  ⟨rfl, by decide, step_after _, by decide, step_after _, by decide⟩

/-- The three ends of an access of 1, 2 and 4 bytes with 256 bytes of DMEM: the last address inside, a misaligned one and the
first one outside. -/
theorem witness_LoadsReadAndExtend :
    (0xFF#32).toNat % 1 = 0 ∧ (0xFF#32).toNat + 1 ≤ (executing 0#32 (.lb 5 6 0) [(6, 0xFF)]).params.dmemBytes ∧
    (0xFE#32).toNat % 2 = 0 ∧ (0xFE#32).toNat + 2 ≤ 256 ∧ (0xFF#32).toNat % 2 ≠ 0 ∧
    (0xFC#32).toNat % 4 = 0 ∧ (0xFC#32).toNat + 4 ≤ 256 ∧ (0xFE#32).toNat % 4 ≠ 0 ∧
    (0x100#32).toNat % 4 = 0 ∧ 256 < (0x100#32).toNat + 4 ∧ 256 < (0x100#32).toNat + 1 ∧ 256 < (0x100#32).toNat + 2 := by
  decide

/-- A store ready in Execute whose address is the last word of DMEM, and one whose address lies outside. -/
theorem witness_StoresWriteTheirBytes :
    Ready (.sw 6 7 0xFFFFFFFC) 0#32 (executing 0#32 (.sw 6 7 0xFFFFFFFC) [(6, 0x100), (7, 1)]) ∧
    ((executing 0#32 (.sw 6 7 0xFFFFFFFC) [(6, 0x100), (7, 1)]).x 6 + 0xFFFFFFFC#32) = 0xFC ∧
    ((executing 0#32 (.sw 6 7 0) [(6, 0x100), (7, 1)]).x 6 + 0#32) = 0x100 ∧ fits12 0xFFFFF800 = true :=
  ⟨⟨⟨rfl, rfl, rfl, by decide⟩, rfl⟩, by decide, by decide, by decide⟩

/-- A load of two bytes in Execute right behind a store of one of them, over memory that holds the other. -/
theorem witness_LoadSeesTheStoreBeforeIt :
    vlsMemory.wf = true ∧ RunsTo 0 storedByte storedByte ∧ Ready (.lh 5 6 0) 0x20#32 storedByte ∧
    (storedByte.x 6 + 0#32).toNat % 2 = 0 ∧ (storedByte.x 6 + 0#32).toNat + 2 ≤ storedByte.params.dmemBytes ∧
    storesDuring 1 storedByte = [(0x13, 1, 0xAB)] := by
  refine ⟨by decide, runsTo_zero.2 ⟨rfl, rfl⟩, ⟨⟨rfl, by decide, rfl, by decide⟩, rfl⟩, by decide, by decide, ?_⟩
  simp only [storesDuring, step_after]
  decide

/-- R55, R46: the byte stored right before it and the byte that was there, in one halfword: 0x34 at 0x12, 0xAB at 0x13. -/
theorem test_load_sees_store : (settled (after storedByte)).x 5 = 0xFFFFAB34 := by decide

theorem witness_UnimplementedInstructionsReadNoOperands :
    unimplemented (Instr.div 3 1 2).uop = true ∧ (Instr.div 3 1 2).uop = (Instr.div 0 31 30).uop := by decide

end Sys2Proof.Tests
end

section
/-! PROOFS. The state of the core (`10_state.md`): what the engine starts with, and what every tick does to the tick counter,
to x0 and to PC. -/

namespace Sys2Proof.Machine

/-- The step, inverted: the tick it runs, and what Execute hands to it. -/
theorem step_inv {s t : State} (hs : step s = .next t) :
    ∃ ex, t = tickWith ex s ∧ ((s.de = none ∧ ex = .idle) ∨ ∃ d, s.de = some d ∧ Executes d.dec s ex) := by
  rcases step_spec s with ⟨d, ex, hd, he, hx⟩ | ⟨hd, he⟩
  · exact ⟨ex, Host.Outcome.next.inj (hs.symm.trans he), .inr ⟨d, hd, hx⟩⟩
  · exact ⟨.idle, Host.Outcome.next.inj (hs.symm.trans he), .inl ⟨hd, rfl⟩⟩

/-! The tick counter and x0. -/

theorem tickWith_tick {s : State} (h : s.halted = none) (ex : ExOutput) : (tickWith ex s).tick = s.tick + 1 := by
  rcases tickWith_cases s ex with ⟨hh, -⟩ | ⟨-, -, ht⟩ | ⟨-, f, -, ht⟩
  · exact absurd h hh
  · rw [ht, commit_tick]
  · rw [ht, fatalCommit_tick]

theorem tickWith_slot_zero (s : State) (ex : ExOutput) : (tickWith ex s).regs[0] = s.regs[0] := by
  rcases tickWith_cases s ex with ⟨-, ht⟩ | ⟨-, -, ht⟩ | ⟨-, f, -, ht⟩
  · rw [ht]
  · simpa only [ht, commit_regs] using writeBack_slot_zero s.regs s.mw
  · simpa only [ht, fatalCommit_regs] using writeBack_slot_zero s.regs s.mw

@[simp] theorem State.x_zero (s : State) : s.x 0#5 = 0#32 := readReg_zero s.regs

/-! The alignment of PC. -/

/-- Execute redirects to aligned targets only: any other target is an error instead (R140). -/
theorem Executes.redirect_aligned {i : Instr} {s : State} {ex : ExOutput} (hx : Executes i s ex) {target : Word}
    (h : redirectThisTick ex = some target) : wordAligned target = true := by
  cases ex with
  | idle => exact hx.elim
  | done e redirect diag =>
    obtain ⟨-, -, -, -, -, -, haligned⟩ := hx
    exact haligned target h
  | raised err => simp at h

theorem Executes.raises_misalignedTarget {i : Instr} {s : State} {ex : ExOutput} (hx : Executes i s ex) {target : Word}
    (ht : seqTarget (executePc s) i { regs := s.regs, dmem := s.dmem } = some target)
    (hm : wordAligned target = false) : ex = .raised (.misalignedTarget target) := by
  cases ex with
  | idle => exact hx.elim
  | done e redirect diag =>
    obtain ⟨-, -, -, -, -, hr, haligned⟩ := hx
    simp [haligned target (hr.trans ht)] at hm
  | raised err =>
    obtain ⟨target', ht', -, rfl⟩ := hx
    rw [Option.some.inj (ht.symm.trans ht')]

theorem pcNext_aligned {s : State} {ex : ExOutput} (hpc : wordAligned s.pc = true)
    (hr : ∀ target, redirectThisTick ex = some target → wordAligned target = true) :
    wordAligned (pcNext s ex) = true := by
  unfold pcNext
  split
  next target h => exact hr target h
  next => exact wordAligned_add_four hpc

/-- The step case of the invariant of R24. -/
theorem step_keeps_pc_aligned {s t : State} (hpc : wordAligned s.pc = true) (hs : step s = .next t) :
    wordAligned t.pc = true := by
  obtain ⟨ex, rfl, hex⟩ := step_inv hs
  have hr : ∀ target, redirectThisTick ex = some target → wordAligned target = true := by
    rcases hex with ⟨-, rfl⟩ | ⟨d, -, hx⟩
    · simp
    · exact fun _ => hx.redirect_aligned
  rcases tickWith_cases s ex with ⟨-, ht⟩ | ⟨-, -, ht⟩ | ⟨-, f, -, ht⟩
  · rwa [ht]
  · rw [ht, commit_pc]
    exact pcNext_aligned hpc hr
  · rwa [ht, fatalCommit_pc]

theorem iMemRead_ne_misaligned {s : State} {a : Word} (h : wordAligned a = true) :
    iMemRead s a ≠ .error (.misaligned a) := by
  simp only [iMemRead, h, Bool.not_true, Bool.false_eq_true, if_false]
  split <;> simp

/-- An error of Execute is the oldest one of its tick unless MemAccess has one too, which is older (R180). -/
theorem oldestFault_raised (s : State) (err : CoreError) :
    oldestFault s (.raised err) = some ((memFault s).getD ⟨err, .execute, executePc s⟩) := by
  unfold oldestFault
  cases memFault s <;> rfl

theorem step_misalignedTarget {s t : State} {d : DELatch} {target : Word} (hrun : s.halted = none) (hd : s.de = some d)
    (htarget : seqTarget d.pc d.dec { regs := s.regs, dmem := s.dmem } = some target)
    (hm : wordAligned target = false) (hs : step s = .next t) :
    t = fatalCommit s (.raised (.misalignedTarget target))
      ((memFault s).getD ⟨.misalignedTarget target, .execute, d.pc⟩) := by
  have hpc : executePc s = d.pc := by simp [executePc, hd]
  obtain ⟨ex, rfl, ⟨hd', -⟩ | ⟨d', hd', hx⟩⟩ := step_inv hs
  · simp [hd] at hd'
  · obtain rfl : d = d' := Option.some.inj (hd.symm.trans hd')
    obtain rfl := hx.raises_misalignedTarget (hpc ▸ htarget) hm
    rw [tickWith_fatal hrun (oldestFault_raised s _), hpc]

end Sys2Proof.Machine

namespace Sys2Proof.Proofs

open Sys2Proof.Machine

/-- Settles O18: the redirects that Execute sends are aligned, and a transfer to any other target is FatalCommit, which keeps
PC. -/
theorem programCounterStaysAligned : Obligations.ProgramCounterStaysAligned := by
  refine ⟨rfl, fun s hpc => ?_, fun s t d target hrun hd htarget hm hs => ?_⟩
  · rw [← wordAligned_iff] at hpc
    exact ⟨(wordAligned_iff _).1 (wordAligned_add_four hpc), fun t hs => (wordAligned_iff _).1 (step_keeps_pc_aligned hpc hs),
      iMemRead_ne_misaligned hpc⟩
  · have hmis : wordAligned target = false := by rwa [← Bool.not_eq_true, wordAligned_iff]
    obtain rfl := step_misalignedTarget hrun hd htarget hmis hs
    exact ⟨by simp, fatalCommit_pc _ _ _, fun hmem => by simp [hmem]⟩

/-- Settles O11: both phases that end a running engine's tick add 1, and a halted engine's tick is no change. -/
theorem tickCounterCountsPerformedTicks : Obligations.TickCounterCountsPerformedTicks := by
  refine ⟨reset_tick, fun s t hs => ?_⟩
  obtain ⟨ex, rfl, -⟩ := step_inv hs
  exact ⟨fun hrun => tickWith_tick hrun ex, fun hhalted => by rw [tickWith_halted hhalted]⟩

/-- Settles O15, field by field. -/
theorem engineStartState : Obligations.EngineStartState :=
  ⟨reset_pc, reset_fd, reset_de, reset_em, reset_mw, reset_halted, reset_tick, State.x_zero _⟩

/-- Settles O20: the only register write of a tick is Writeback's, which leaves x0's slot. -/
theorem registerZeroIsHardWired : Obligations.RegisterZeroIsHardWired := by
  intro s t hs
  obtain ⟨ex, rfl, -⟩ := step_inv hs
  exact ⟨State.x_zero _, tickWith_slot_zero s ex, fun f v => ⟨writeReg_zero f v, readReg_zero f⟩⟩

end Sys2Proof.Proofs
end

section
/-! PROOFS. The memories (`20_memory.md`): the bytes of little-endian reads and writes, the fetch, the checks of an access,
and what a load sees of the stores before it. -/

namespace Sys2Proof.Machine

/-! The bytes of a read and of a write (R44 to R46). -/

/-- A little-endian read, bit by bit: byte k of the value is the byte at the k-th address. -/
theorem getLsbD_readLE (m : Memory) (a n i : Nat) :
    (readLE m a n).getLsbD i = (decide (i < 8 * n) && decide (i < 32) && (m.read (a + i / 8)).getLsbD (i % 8)) := by
  induction n generalizing a i with
  | zero => simp [readLE]
  | succ n ih =>
    simp only [readLE, BitVec.getLsbD_or, BitVec.getLsbD_setWidth, BitVec.getLsbD_shiftLeft, ih]
    by_cases hi : i < 8
    · simp [hi, show i < 8 * (n + 1) by omega, show i / 8 = 0 by omega, show i % 8 = i by omega]
    · have hbyte : (m.read a).getLsbD i = false := BitVec.getLsbD_of_ge _ _ (by omega)
      have haddr : a + 1 + (i - 8) / 8 = a + i / 8 := by omega
      have hbit : (i - 8) % 8 = i % 8 := by omega
      rw [hbyte, haddr, hbit]
      by_cases h32 : i < 32
      · simp [hi, h32, show i - 8 < 8 * n ↔ i < 8 * (n + 1) by omega, show i - 8 < 32 by omega]
      · simp [h32]

/-- Byte k of a read of a word or less. -/
theorem extractLsb'_readLE (m : Memory) (a : Nat) {n k : Nat} (hk : k < n) (hn : n ≤ 4) :
    (readLE m a n).extractLsb' (8 * k) 8 = m.read (a + k) := by
  refine BitVec.eq_of_getLsbD_eq fun i hi => ?_
  have hdiv : (8 * k + i) / 8 = k := by omega
  have hmod : (8 * k + i) % 8 = i := by omega
  rw [BitVec.getLsbD_extractLsb', getLsbD_readLE, hdiv, hmod]
  simp [hi, show 8 * k + i < 8 * n by omega, show 8 * k + i < 32 by omega]

theorem getElem_leBytes (n : Nat) (v : Word) {k : Nat} (h : k < (leBytes n v).length) :
    (leBytes n v)[k] = v.extractLsb' (8 * k) 8 := by
  induction n generalizing v k with
  | zero => simp at h
  | succ n ih =>
    cases k with
    | zero => rfl
    | succ k =>
      simp only [leBytes, List.getElem_cons_succ, ih]
      refine BitVec.eq_of_getLsbD_eq fun i _ => ?_
      simp [show 8 * (k + 1) + i = 8 + (8 * k + i) by omega]

theorem read_writeLE_inside {m : Memory} (hw : m.wf = true) (a : Nat) {n k : Nat} (v : Word) (hk : k < n) :
    (writeLE m a n v).read (a + k) = v.extractLsb' (8 * k) 8 := by
  rw [writeLE, Memory.read_storeBytes_inside hw _ (by simpa using hk), getElem_leBytes]

/-- A read-back, bit by bit: bit i is in byte `i / 8`, which holds bits of the written word (R46). -/
theorem toNat_readLE_writeLE {m : Memory} (hw : m.wf = true) (a n : Nat) (v : Word) :
    (readLE (writeLE m a n v) a n).toNat = v.toNat % 2 ^ (8 * n) := by
  refine Nat.eq_of_testBit_eq fun i => ?_
  rw [Nat.testBit_mod_two_pow, BitVec.testBit_toNat, BitVec.testBit_toNat, getLsbD_readLE]
  by_cases hi : i < 8 * n
  · have hbit : 8 * (i / 8) + i % 8 = i := by omega
    rw [read_writeLE_inside hw a v (show i / 8 < n by omega)]
    by_cases h32 : i < 32
    · simp [hi, h32, hbit, show i % 8 < 8 by omega]
    · simp [hi, h32, BitVec.getLsbD_of_ge v i (by omega)]
  · simp [hi]

/-- The two rules of a write as one case split, the one that `lastStored` makes. -/
theorem read_writeLE {m : Memory} (hw : m.wf = true) (a n c : Nat) (v : Word) :
    (writeLE m a n v).read c = if a ≤ c ∧ c < a + n then v.extractLsb' (8 * (c - a)) 8 else m.read c := by
  split
  next h =>
    obtain ⟨k, rfl⟩ := Nat.exists_eq_add_of_le h.1
    rw [Nat.add_sub_cancel_left, read_writeLE_inside hw a v (by omega)]
  next h => exact read_writeLE_outside m v (by omega)

/-! The fetch (R41). -/

theorem wordOfBytes_extractLsb' (w : Word) :
    wordOfBytes (w.extractLsb' 0 8) (w.extractLsb' 8 8) (w.extractLsb' 16 8) (w.extractLsb' 24 8) = w := by
  rw [wordOfBytes, BitVec.extractLsb'_append_extractLsb'_eq_extractLsb' (show 24 = 16 + 8 from rfl),
    BitVec.extractLsb'_append_extractLsb'_eq_extractLsb' (show 16 = 8 + 8 from rfl),
    BitVec.extractLsb'_append_extractLsb'_eq_extractLsb' (show 8 = 0 + 8 from rfl), BitVec.extractLsb'_eq_self]

theorem readLE_four (m : Memory) (a : Nat) :
    readLE m a 4 = wordOfBytes (m.read a) (m.read (a + 1)) (m.read (a + 2)) (m.read (a + 3)) := by
  have hbyte := fun k hk => extractLsb'_readLE m a (n := 4) (k := k) hk (Nat.le_refl 4)
  rw [← wordOfBytes_extractLsb' (readLE m a 4)]
  exact congr (congr (congr (congrArg wordOfBytes (hbyte 0 (by decide))) (hbyte 1 (by decide))) (hbyte 2 (by decide)))
    (hbyte 3 (by decide))

/-- The word index `a[31:2]`. -/
theorem toNat_wordIndex (a : Word) : (a >>> 2).toNat = a.toNat / 4 := by
  rw [BitVec.toNat_ushiftRight, Nat.shiftRight_eq_div_pow]

theorem iMemRead_misaligned (s : State) {a : Word} (h : a.toNat % 4 ≠ 0) : iMemRead s a = .error (.misaligned a) := by
  simp [iMemRead, mt (wordAligned_iff a).1 h]

theorem iMemRead_aligned (s : State) {a : Word} (h : a.toNat % 4 = 0) :
    iMemRead s a =
      if s.params.imemWords ≤ a.toNat / 4 then .error (.outOfBounds a) else .ok (readLE s.imem a.toNat 4) := by
  have haddr : 4 * (a.toNat / 4) = a.toNat := by omega
  rw [iMemRead, (wordAligned_iff a).2 h, toNat_wordIndex, haddr]
  rfl

theorem fetchFault_of_iMemRead {s : State} {err : CoreError} (h : iMemRead s s.pc = .error err) :
    fetchFault s = some ⟨err, .fetch, s.pc⟩ := by
  simp [fetchFault, h]

/-! The checks of a data access (R47, R48). -/

/-- The alignment is checked first: it alone decides on `misaligned`. -/
theorem checkAccess_misaligned {p : Params} {addr : Word} {w : Width} :
    checkAccess p addr w = some (.misaligned addr) ↔ addr.toNat % widthBytes w ≠ 0 := by
  unfold checkAccess
  split
  next halign => exact iff_of_true rfl halign
  next halign => split <;> simpa using halign

/-- The bounds are checked on aligned addresses only. -/
theorem checkAccess_outOfBounds {p : Params} {addr : Word} {w : Width} :
    checkAccess p addr w = some (.outOfBounds addr) ↔
      addr.toNat % widthBytes w = 0 ∧ p.dmemBytes < addr.toNat + widthBytes w := by
  unfold checkAccess
  split
  next halign => simp [halign]
  next halign =>
    split
    next hbounds => exact iff_of_true rfl ⟨not_not.1 halign, hbounds⟩
    next hbounds => simp [hbounds]

/-! The stores of a run (R55). -/

theorem lastStored_append (a : Nat) (xs ys : List (Nat × Nat × Word)) (b : Byte) :
    lastStored a (xs ++ ys) b = lastStored a ys (lastStored a xs b) :=
  List.foldl_append

theorem Memory.wf_commitStore {s : State} (h : s.dmem.wf = true) : (commitStore s).wf = true := by
  unfold commitStore
  split
  · exact h
  · exact Memory.wf_writeLE h ..

/-- A byte of DMEM after MemAccess's commit: the store of the tick, if it covers the byte. -/
theorem read_commitStore {s : State} (h : s.dmem.wf = true) (c : Nat) :
    (commitStore s).read c = lastStored c (storeThisTick s).toList (s.dmem.read c) := by
  unfold commitStore
  split
  next hs => simp [hs, lastStored]
  next a n v hs => simpa [hs, lastStored] using read_writeLE h a n c v

theorem storesDuring_succ {s t : State} (hs : step s = .next t) (n : Nat) :
    storesDuring (n + 1) s = (storeThisTick s).toList ++ storesDuring n t := by
  simp [storesDuring, hs]

theorem storesDuring_one (s : State) : storesDuring 1 s = (storeThisTick s).toList := by
  obtain ⟨ex, hs⟩ := step_next s
  rw [storesDuring_succ hs, storesDuring, List.append_nil]

theorem step_running_dmem {s t : State} (h : s.halted = none) (hs : step s = .next t) (ht : t.halted = none) :
    t.dmem = commitStore s := by
  obtain ⟨ex, rfl, -⟩ := step_running h hs ht
  rfl

/-- DMEM after a run and the store of the tick behind it, byte by byte. -/
theorem RunsTo.read_commitStore {m : Nat} {s t : State} (hr : RunsTo m s t) (hw : s.dmem.wf = true) (c : Nat) :
    (commitStore t).read c = lastStored c (storesDuring (m + 1) s) (s.dmem.read c) := by
  induction m generalizing s with
  | zero =>
    obtain ⟨rfl, -⟩ := runsTo_zero.1 hr
    rw [storesDuring_one, Machine.read_commitStore hw]
  | succ m ih =>
    obtain ⟨s', hs, hr'⟩ := runsTo_succ.1 hr
    have hd : s'.dmem = commitStore s := step_running_dmem hr.running hs hr'.running
    rw [ih hr' (hd ▸ Memory.wf_commitStore hw), storesDuring_succ hs, lastStored_append, hd, Machine.read_commitStore hw]

/-! A load in Execute (R54, R154). -/

/-- In a tick in which no other stage fails, an output without an error commits. -/
theorem runTick_done {s : State} (hq : Quiet s) (e : EMLatch) (r : Option Word) (d : Option Uop) :
    runTick (.done e r d) s = .next (commit s (.done e r d)) := by
  have hf : oldestFault s (.done e r d) = none := oldestFault_none.2 ⟨hq.memAccess, rfl, hq.decode, hq.fetch⟩
  rw [runTick, tickWith_commit hq.running hf]

/-- Once a load that the memory takes is in EM, it settles to the value at its address in the settled DMEM. -/
theorem settled_commit_load {s : State} {e : EMLatch} {r : Option Word} {d : Option Uop} {w : Width} {sg : Bool}
    (ha : access e.uop = .load w sg) (hc : checkAccess s.params e.addr w = none) :
    settled (commit s (.done e r d)) =
      (settled s).setX e.rd (extendLoad w sg (readLE (settled s).dmem e.addr.toNat (widthBytes w))) := by
  have he : (commit s (.done e r d)).em = some e := rfl
  have hf : memFault (commit s (.done e r d)) = none := by simp [memFault_access he, ha, hc]
  rw [settled_load he ha hf, commit_settled_regs]
  rfl

end Sys2Proof.Machine

namespace Sys2Proof.Proofs

open Sys2Proof.Machine Sys2Proof.Stated

/-- The load reads the settled DMEM of its Execute tick, whose bytes are the last ones stored. -/
theorem loadSeesLastStores {mk : Reg → Reg → Word → Instr} {u : Uop} {w : Width} {sg : Bool}
    (hexec : ∀ rd rs1 imm s, exec (mk rd rs1 imm) s = executeLoad u rd (s.x rs1) imm s)
    (ha : access u = .load w sg) : LoadSeesLastStores mk (widthBytes w) (extendLoad w sg) := by
  intro m s t pc rd rs1 imm hw hr hready halign hbounds
  have hn : widthBytes w ≤ 4 := by cases w <;> decide
  refine ⟨_, readLE (settled t).dmem (t.x rs1 + imm).toNat (widthBytes w),
    (hexec rd rs1 imm t).trans (runTick_done hready.quiet _ none none), ?_, fun k hk => ?_⟩
  · exact settled_commit_load ha (checkAccess_none.2 ⟨halign, hbounds⟩)
  · rw [extractLsb'_readLE _ _ hk hn, settled_dmem, hr.read_commitStore hw]

/-- Settles O44: one argument for the five loads. -/
theorem loadSeesTheStoreBeforeIt : Obligations.LoadSeesTheStoreBeforeIt :=
  ⟨loadSeesLastStores (w := .byte) (sg := true) (fun _ _ _ _ => rfl) rfl,
    loadSeesLastStores (w := .half) (sg := true) (fun _ _ _ _ => rfl) rfl,
    loadSeesLastStores (w := .word) (sg := true) (fun _ _ _ _ => rfl) rfl,
    loadSeesLastStores (w := .byte) (sg := false) (fun _ _ _ _ => rfl) rfl,
    loadSeesLastStores (w := .half) (sg := false) (fun _ _ _ _ => rfl) rfl⟩

/-- Settles O26: what a write does to a byte inside and outside of it, and the read of the bytes inside. -/
theorem storedBytesReadBack : Obligations.StoredBytesReadBack :=
  fun _ a n v hw _ => ⟨Memory.wf_writeLE hw a n v, fun _ => read_writeLE_inside hw a v,
    fun _ => read_writeLE_outside _ v, toNat_readLE_writeLE hw a n v⟩

/-- Settles O25: the three ends of a fetch, and what Fetch makes of an error. -/
theorem instructionMemoryRead : Obligations.InstructionMemoryRead :=
  ⟨fun _ _ => fetchFault_of_iMemRead, fun s a => ⟨iMemRead_misaligned s,
    fun h hb => (iMemRead_aligned s h).trans (if_pos hb),
    fun h hb => readLE_four s.imem a.toNat ▸ (iMemRead_aligned s h).trans (if_neg (Nat.not_le.2 hb))⟩⟩

/-- Settles O27: one lemma for each answer of the check. -/
theorem accessIsCheckedForAlignmentThenBounds : Obligations.AccessIsCheckedForAlignmentThenBounds :=
  fun _ _ _ => ⟨checkAccess_misaligned, checkAccess_outOfBounds, checkAccess_none⟩

end Sys2Proof.Proofs
end

section
/-! PROOFS. The encoding (`30_encoding.md`): what the decoder makes of words written out bit by bit. -/

namespace Sys2Proof.Proofs

/-- Settles O7: each word is closed, so the decoder is evaluated on it, first on the legal words by format (R62), then on the
rejected ones by error (R69, R83). -/
theorem workedWordsDecode : Obligations.WorkedWordsDecode := by
  refine ⟨?add, ?addi, ?lui, ?jal, ?bne, ?lw, ?sw, ?fence, ?ebreak, ?mul, ?lrW, ?zeros, ?ones, ?system⟩
  -- R-type: OP, RV32M and AMO.
  case add | mul | lrW => rfl
  -- I-type: OP-IMM, LOAD, MISC-MEM and SYSTEM.
  case addi | lw | fence | ebreak => rfl
  -- The formats whose immediate is split or shifted: S, B, U and J.
  case sw | bne | lui | jal => rfl
  -- Unknown opcodes, then a SYSTEM word that no row resolves.
  case zeros | ones => rfl
  case system => rfl

end Sys2Proof.Proofs
end

section
/-! PROOFS. The pipeline (`40_pipeline.md`): every tick's next state, the advance of the latches, the oldest fatal error, what
a tick leaves unchanged, the shutdown, and the instruction in Execute. -/

namespace Sys2Proof.Machine

open Sys2Proof.Stated

/-! The step and the meanings it calls (R103, R107, R111). -/

theorem step_of_de {s : State} {d : DELatch} (h : s.de = some d) : step s = exec d.dec s := by
  simp only [step, h]

theorem step_of_bubble {s : State} (h : s.de = none) : step s = idleTick s := by
  simp only [step, h]

/-- A meaning, inverted: the tick it runs, and what Execute hands to it. -/
theorem exec_inv {i : Instr} {s t : State} (h : exec i s = .next t) : ∃ ex, t = tickWith ex s ∧ Executes i s ex := by
  obtain ⟨ex, he, hx⟩ := exec_spec i s
  exact ⟨ex, Host.Outcome.next.inj (h.symm.trans he), hx⟩

theorem exec_halted {s : State} (h : s.halted ≠ none) (i : Instr) : exec i s = .next s := by
  obtain ⟨ex, he, -⟩ := exec_spec i s
  rw [he, runTick, tickWith_halted h]

theorem step_halted {s : State} (h : s.halted ≠ none) : step s = .next s := by
  obtain ⟨ex, he⟩ := step_next s
  rw [he, tickWith_halted h]

/-- The micro-op alone says what an Unimplemented instruction does (R110). -/
theorem exec_unimplemented {i : Instr} (h : unimplemented i.uop = true) (s : State) :
    exec i s = executeUnimplemented i.uop s := by
  cases i
  case ecall | ebreak => rfl
  case mul | mulh | mulhsu | mulhu | div | divu | rem | remu => rfl
  case lrW | scW | amoswapW | amoaddW | amoxorW | amoandW | amoorW => rfl
  case amominW | amomaxW | amominuW | amomaxuW => rfl
  all_goals cases h

/-! What each stage hands on (R101 to R104). -/

theorem fdNext_of_iMemRead {s : State} {w : Word} (h : iMemRead s s.pc = .ok w) :
    fdNext s = some { pc := s.pc, word := w } := by
  simp only [fdNext, h]

theorem deNext_of_decode {s : State} {f : FDLatch} {i : Instr} (hf : s.fd = some f) (hd : decode f.word = .ok i) :
    deNext s = some { pc := f.pc, dec := i } := by
  simp only [deNext, hf, hd]

/-- Without an error of Execute, the instruction in it goes on to EM. -/
theorem Executes.emNext_of_no_fault {i : Instr} {s : State} {ex : ExOutput} (hx : Executes i s ex)
    (hf : exFault s ex = none) : ∃ e, emNext ex = some e ∧ e.pc = executePc s ∧ e.uop = i.uop := by
  cases ex with
  | idle => exact hx.elim
  | done e redirect diag =>
    obtain ⟨hpc, huop, -⟩ := hx
    exact ⟨e, rfl, hpc, huop⟩
  | raised err => simp at hf

/-- Without an error of MemAccess, the instruction in it goes on to MW, whatever its access is. -/
theorem mwNext_of_em {s : State} {e : EMLatch} (he : s.em = some e) (hf : memFault s = none) :
    ∃ m, mwNext s = some m ∧ m.pc = e.pc := by
  simp only [mwNext, hf, pendingAccess, he]
  cases access e.uop with
  | load w signed => exact ⟨_, rfl, rfl⟩
  | store w => exact ⟨_, rfl, rfl⟩
  | none => exact ⟨_, rfl, rfl⟩

/-! The oldest fatal error (R109, R180). -/

/-- The statements' account of Execute's error, by the target of the transfer in Execute, is the tick's own. -/
theorem Executes.exFault_eq {d : DELatch} {s : State} {ex : ExOutput} (hd : s.de = some d) (hx : Executes d.dec s ex) :
    exFault s ex = executeFault s := by
  have hpc : executePc s = d.pc := by simp only [executePc, hd]
  cases ex with
  | idle => exact hx.elim
  | done e redirect diag =>
    obtain ⟨-, -, -, -, -, hr, haligned⟩ := hx
    rw [hpc] at hr
    cases redirect with
    | none => simp [executeFault, hd, ← hr]
    | some target => simp [executeFault, hd, ← hr, (wordAligned_iff target).1 (haligned target rfl)]
  | raised err =>
    obtain ⟨target, ht, hm, rfl⟩ := hx
    rw [hpc] at ht
    have hm' : target.toNat % 4 ≠ 0 := by rwa [← Bool.not_eq_true, wordAligned_iff] at hm
    simp [executeFault, hd, ht, hm', hpc]

/-- The tick that a step runs takes the first of its fatal errors. -/
theorem step_oldestFault {s t : State} (hs : step s = .next t) :
    ∃ ex, t = tickWith ex s ∧ oldestFault s ex = (fatalErrors s).head? := by
  obtain ⟨ex, ht, hex⟩ := step_inv hs
  have hfault : exFault s ex = executeFault s := by
    rcases hex with ⟨hd, rfl⟩ | ⟨d, hd, hx⟩
    · simp [executeFault, hd]
    · exact hx.exFault_eq hd
  exact ⟨ex, ht, by simp [oldestFault, fatalErrors, hfault, List.head?_append]⟩

theorem exFault_stage {s : State} {ex : ExOutput} {f : Fatal} (h : exFault s ex = some f) : f.stage = .execute := by
  cases ex with
  | idle => simp at h
  | done e redirect diag => simp at h
  | raised err =>
    obtain rfl := Option.some.inj h
    rfl

/-- An error that names MemAccess is MemAccess's own, so no store commits with it. -/
theorem commitStore_of_memAccess_oldest {s : State} {ex : ExOutput} {f : Fatal} (h : oldestFault s ex = some f)
    (hstage : f.stage = .memAccess) : commitStore s = s.dmem := by
  simp only [oldestFault, Option.or_eq_some_iff] at h
  rcases h with hmem | ⟨-, hexec | ⟨-, hdec | ⟨-, hfetch⟩⟩⟩
  · exact commitStore_fault hmem
  · simp [exFault_stage hexec] at hstage
  · simp [decodeFault_stage hdec] at hstage
  · simp [fetchFault_stage hfetch] at hstage

theorem fatalCommit_halts {s : State} {ex : ExOutput} {f : Fatal} (h : oldestFault s ex = some f) :
    Halts s (fatalCommit s ex f) f.error f.stage f.pc (if f.stage = .memAccess then s.dmem else commitStore s) where
  record := rfl
  regs := rfl
  dmem := by
    split
    next hstage => exact commitStore_of_memAccess_oldest h hstage
    next => rfl
  fd := rfl
  de := rfl
  em := rfl
  mw := rfl
  pc := rfl
  tick := rfl
  imem := rfl
  params := rfl

/-! What a tick leaves unchanged (R93). -/

/-- The registers and DMEM after a tick: as before once halted, and otherwise with the tick's one write and one store. -/
theorem tickWith_regs_dmem (s : State) (ex : ExOutput) :
    ((tickWith ex s).regs = s.regs ∧ (tickWith ex s).dmem = s.dmem) ∨
    ((tickWith ex s).regs = writeBack s.regs s.mw ∧ (tickWith ex s).dmem = commitStore s) := by
  rcases tickWith_cases s ex with ⟨-, ht⟩ | ⟨-, -, ht⟩ | ⟨-, f, -, ht⟩ <;> rw [ht]
  · exact .inl ⟨rfl, rfl⟩
  · exact .inr ⟨rfl, rfl⟩
  · exact .inr ⟨rfl, rfl⟩

theorem readReg_writeBack_other {mw : Option MWLatch} {r : Reg} (h : ∀ v, wbThisTick mw ≠ some (r, v)) (f : RegFile) :
    readReg (writeBack f mw) r = readReg f r := by
  unfold writeBack
  cases hw : wbThisTick mw with
  | none => rfl
  | some write =>
    obtain ⟨q, v⟩ := write
    exact readReg_writeReg_other (by rintro rfl; exact h v hw) f v

theorem read_commitStore_outside {s : State} {a : Nat}
    (h : ∀ p n v, storeThisTick s = some (p, n, v) → a < p ∨ p + n ≤ a) : (commitStore s).read a = s.dmem.read a := by
  unfold commitStore
  split
  next => rfl
  next p n v hs => exact read_writeLE_outside s.dmem v (h p n v hs)

/-! The host's actions (R112; log 10). -/

theorem shutdown_running {s : State} (h : s.halted = none) :
    shutdown s = { s with
      fd := none
      de := none
      em := none
      mw := none
      halted := some { error := .shutdown, stage := none, tick := s.tick, pc := none } } := by
  simp only [shutdown, h]

/-- A table word's bytes, put together again, are the word. -/
theorem decode_of_decodeTableWord {nbits w : Nat} {i : Instr} (h : decodeTableWord nbits w = some i) :
    decode (tableWord nbits w) = .ok i := by
  unfold decodeTableWord at h
  split at h
  · cases h
  · simp only [bytesOfWord, decodeBytes, wordOfBytes_extractLsb'] at h
    split at h
    next heq => rw [(Prod.mk.inj (Option.some.inj heq)).1, Option.some.inj h]
    next => cases h

theorem placeWord_of_decode {s : State} {w : Word} {i : Instr} (h : decode w = .ok i) :
    placeWord s w = { s with fd := none, de := some { pc := s.pc, dec := i }, em := none, mw := none, halted := none } := by
  simp only [placeWord, h]

end Sys2Proof.Machine

namespace Sys2Proof.Proofs

open Sys2Proof.Machine Sys2Proof.Stated

/-- Settles O13: the first of the fatal errors is the one that the tick takes, by FatalCommit. -/
theorem oldestFatalErrorHalts : Obligations.OldestFatalErrorHalts := by
  intro s t hrun hs
  obtain ⟨ex, rfl, hhead⟩ := step_oldestFault hs
  refine ⟨fun f rest hf => ?_, fun hf => ?_⟩
  · have hold : oldestFault s ex = some f := by rw [hhead, hf, List.head?_cons]
    rw [tickWith_fatal hrun hold]
    exact fatalCommit_halts hold
  · have hold : oldestFault s ex = none := by rw [hhead, hf, List.head?_nil]
    rw [tickWith_commit hrun hold, commit_halted, hrun]

/-- Settles O12: the tick is the commit phase, and no stage has an error, so each hands on what its input latch holds. -/
theorem latchesAdvanceOneStage : Obligations.LatchesAdvanceOneStage := by
  intro s t hrun hs ht
  obtain ⟨ex, rfl, hold, hex⟩ := step_running hrun hs ht
  obtain ⟨hmem, hexec, hdec, hfetch⟩ := oldestFault_none.1 hold
  refine ⟨fdNext_of_fetch hfetch, deNext_bubble, fun f hf => deNext_of_fd hf hdec, fun hd => ?_, fun d hd => ?_,
    mwNext_bubble, fun e he => mwNext_of_em he hmem⟩
  · rcases hex with ⟨-, rfl⟩ | ⟨d, hd', -⟩
    · exact emNext_idle
    · simp [hd] at hd'
  · rcases hex with ⟨hd', -⟩ | ⟨d', hd', -, hx⟩
    · simp [hd] at hd'
    · obtain rfl : d = d' := Option.some.inj (hd.symm.trans hd')
      simpa only [executePc, hd, commit_em] using hx.emNext_of_no_fault hexec

/-- Settles O19: a tick's one register write is Writeback's and its one store MemAccess's. -/
theorem instructionTickFrame : Obligations.InstructionTickFrame := by
  intro i s t h
  obtain ⟨ex, rfl, -⟩ := exec_inv h
  refine ⟨tickWith_imem s ex, tickWith_params s ex, fun r hr => ?_, fun a ha => ?_⟩
  · rcases tickWith_regs_dmem s ex with ⟨hregs, -⟩ | ⟨hregs, -⟩
    · rw [State.x, hregs, State.x]
    · rw [State.x, hregs, readReg_writeBack_other hr, State.x]
  · rcases tickWith_regs_dmem s ex with ⟨-, hdmem⟩ | ⟨-, hdmem⟩
    · rw [hdmem]
    · rw [hdmem, read_commitStore_outside ha]

/-- Settles O21: the first tick commits the store and hands the last register write on to MW, the second commits it. -/
theorem settledStateArrives : Obligations.SettledStateArrives := by
  intro s t u hs hst ht htu hu
  obtain ⟨ex, rfl, -⟩ := step_running hs hst ht
  obtain ⟨ex', rfl, -⟩ := step_running ht htu hu
  exact ⟨commit_dmem s ex, (commit_regs _ ex').trans (commit_settled_regs s ex)⟩

/-- Settles O49: the meaning of each is a function of its micro-op. -/
theorem unimplementedInstructionsReadNoOperands : Obligations.UnimplementedInstructionsReadNoOperands := by
  intro i j s hi huop
  rw [exec_unimplemented hi, exec_unimplemented (huop ▸ hi), huop]

/-- Settles O8: two commits take the word at PC through FD into DE, and the step is the meaning of what DE holds. -/
theorem stepExecutesTheDecodedInstruction : Obligations.StepExecutesTheDecodedInstruction := by
  refine ⟨fun s s1 s2 w i hw hi hrun hs1 hrun1 hs2 hrun2 => ?_, fun s pc i hd => step_of_de hd, fun s => step_of_bubble⟩
  obtain ⟨ex, rfl, -⟩ := step_running hrun hs1 hrun1
  obtain ⟨ex', rfl, -⟩ := step_running hrun1 hs2 hrun2
  have hfd : (commit s ex).fd = some { pc := s.pc, word := w } := fdNext_of_iMemRead hw
  have hde : (commit (commit s ex) ex').de = some { pc := s.pc, dec := i } := deNext_of_decode hfd hi
  exact ⟨hfd, hde, step_of_de hde⟩

/-- Settles O9: every meaning runs the tick, and so does every step. -/
theorem everyTickHasANextState : Obligations.EveryTickHasANextState := by
  refine ⟨fun i s => ?_, fun s => ?_⟩
  · obtain ⟨ex, he, -⟩ := exec_spec i s
    exact ⟨tickWith ex s, he⟩
  · obtain ⟨ex, he⟩ := step_next s
    exact ⟨tickWith ex s, he⟩

/-- Settles O10: every meaning and every step run the tick, which is no change once halted. -/
theorem haltedTickChangesNothing : Obligations.HaltedTickChangesNothing :=
  fun _ h => ⟨step_halted h, exec_halted h⟩

/-- Settles O14: the shutdown leaves a halted engine, which no tick changes. -/
theorem shutdownDrainsAndStops : Obligations.ShutdownDrainsAndStops :=
  fun _ h => ⟨shutdown_running h, step_halted (by simp [shutdown_running h])⟩

/-- Settles O32: placing empties the latches of the other stages, and the fetch depends on nothing that it changes. -/
theorem placedInstructionRunsInTheNextStep : Obligations.PlacedInstructionRunsInTheNextStep := by
  intro s nbits w i hi hfetch
  rw [State.withFetchWord, placeWord_of_decode (decode_of_decodeTableWord hi)]
  exact ⟨rfl, { running := rfl, memAccess := memFault_bubble rfl, decode := rfl, fetch := hfetch },
    step_of_de (d := { pc := s.pc, dec := i }) rfl⟩

end Sys2Proof.Proofs
end

section
/-! PROOFS. The integer computational instructions (`41_integer_computational.md`): the results and flags of the ALU, the words
of OP, OP-IMM, LUI and AUIPC, and the tick in which one of these instructions is in Execute. -/

namespace Sys2Proof

/-! The words of the computational instructions (`30_encoding.md` R62, R63, R72, R73). -/

@[simp] theorem extractLsb'_signExtend_self (imm12 : BitVec 12) : (imm12.signExtend 32).extractLsb' 0 12 = imm12 := by
  rw [extractLsb'_signExtend imm12 (by decide) (by decide), BitVec.extractLsb'_eq_self]

/-- An I-type word written out around its 12-bit immediate. -/
theorem encodeI_signExtend (o : BitVec 7) (f3 : BitVec 3) (rd rs1 : Reg) (imm12 : BitVec 12) :
    encodeI o f3 rd rs1 (imm12.signExtend 32) = imm12 ++ rs1 ++ f3 ++ rd ++ o := by
  rw [encodeI, extractLsb'_signExtend_self]

@[simp] theorem extractLsb'_append_zero (imm20 : BitVec 20) : (imm20 ++ 0#12 : Word).extractLsb' 12 20 = imm20 :=
  BitVec.extractLsb'_append_eq_left

/-- A U-type word written out around its 20-bit immediate. -/
theorem encodeU_append (o : BitVec 7) (rd : Reg) (imm20 : BitVec 20) :
    encodeU o rd (imm20 ++ 0#12) = imm20 ++ rd ++ o := by
  rw [encodeU, extractLsb'_append_zero]

theorem fitsShift_append (f7 : BitVec 7) (shamt : BitVec 5) : fitsShift f7 ((f7 ++ shamt).signExtend 32) = true := by
  rw [fitsShift, fits12_signExtend, extractLsb'_signExtend _ (by decide) (by decide), BitVec.extractLsb'_append_eq_left]
  simp

theorem decode_of_op {w : Word} (h : opcodeOf w = 0x33#7) : decode w = decodeOp w := by
  simp only [decode, h]

theorem decode_of_opImm {w : Word} (h : opcodeOf w = 0x13#7) : decode w = decodeOpImm w := by
  simp only [decode, h]

/-- The rows of OP (R72), RV32M's among them. -/
theorem decode_encode_op {i : Instr} (h : i.opcode = 0x33#7) : decode (encode i) = .ok i := by
  cases i
  case add | sub | sll | slt | sltu | xor | srl | sra | or | and | mul | mulh | mulhsu | mulhu | div | divu | rem | remu =>
    simp [encode, decode_of_op, decodeOp]
  all_goals cases h

/-- The rows of OP-IMM (R73). -/
theorem decode_encode_opImm {i : Instr} (h : i.opcode = 0x13#7) (hwf : i.wf = true) : decode (encode i) = .ok i := by
  cases i
  case addi | slti | sltiu | xori | ori | andi =>
    simp [encode, decode_of_opImm, decodeOpImm, fits12_eq hwf]
  case slli | srli | srai =>
    obtain ⟨h12, h7⟩ := Bool.and_eq_true_iff.1 hwf
    simp [encode, decode_of_opImm, decodeOpImm, fits12_eq h12, eq_of_beq h7]
  all_goals cases h

theorem decode_lui (rd : Reg) (imm20 : BitVec 20) :
    decode (imm20 ++ rd ++ 0x37#7) = .ok (.lui rd (imm20 ++ 0#12)) := by
  rw [← encodeU_append]
  simp [decode]

theorem decode_auipc (rd : Reg) (imm20 : BitVec 20) :
    decode (imm20 ++ rd ++ 0x17#7) = .ok (.auipc rd (imm20 ++ 0#12)) := by
  rw [← encodeU_append]
  simp [decode]

/-- SLLI's row has one funct7 (R73): `h` rules it out, and the match falls through to the rejection. -/
theorem decode_slli_invalid {f7 : BitVec 7} (h : f7 ≠ 0x00#7) (rd rs1 rs2 : Reg) :
    decode (encodeR 0x13#7 1#3 f7 rd rs1 rs2) = .error (.invalidFunct 0x13#7 1#3 f7) := by
  rw [decode_of_opImm (opcodeOf_encodeR ..)]
  simp [decodeOpImm, invalidFunct]

/-- The row of SRLI and SRAI has two (R73), which `h` and `h'` rule out. -/
theorem decode_shiftRight_invalid {f7 : BitVec 7} (h : f7 ≠ 0x00#7) (h' : f7 ≠ 0x20#7) (rd rs1 rs2 : Reg) :
    decode (encodeR 0x13#7 5#3 f7 rd rs1 rs2) = .error (.invalidFunct 0x13#7 5#3 f7) := by
  rw [decode_of_opImm (opcodeOf_encodeR ..)]
  simp [decodeOpImm, invalidFunct]

end Sys2Proof

namespace Sys2Proof.Machine

open Sys2Proof.Stated

/-! The ALU's results and flags, operation by operation (R114, R115). -/

/-- ALU(`op`, a, b) is `res a b`, with the flags `c a b` and `v a b`. -/
structure AluComputes (op : AluOp) (res : Word → Word → Word) (c v : Word → Word → Bool) : Prop where
  result : ∀ a b, aluResult op a b = res a b
  carry : ∀ a b, carryFlag op a b = c a b
  overflow : ∀ a b, overflowFlag op a b (aluResult op a b) = v a b

theorem addOverflow_eq (a b : Word) : addOverflow a b (a + b) = addV a b := by
  rw [Bool.eq_iff_iff]
  simp [addOverflow, addV, BitVec.msb_eq_getLsbD_last]

theorem subOverflow_eq (a b : Word) : subOverflow a b (a - b) = subV a b := by
  rw [Bool.eq_iff_iff]
  simp [subOverflow, subV, BitVec.msb_eq_getLsbD_last]

theorem carryFlag_other {op : AluOp} (hadd : op ≠ .add) (hsub : op ≠ .sub) (a b : Word) : carryFlag op a b = false := by
  cases op
  case add | sub => contradiction
  all_goals rfl

theorem overflowFlag_other {op : AluOp} (hadd : op ≠ .add) (hsub : op ≠ .sub) (a b r : Word) :
    overflowFlag op a b r = false := by
  cases op
  case add | sub => contradiction
  all_goals rfl

theorem shiftAmount_eq (b : Word) : shiftAmount b = b.toNat % 32 := by
  rw [shiftAmount, BitVec.extractLsb'_toNat, Nat.shiftRight_zero]

theorem boolWord_decide (p : Prop) [Decidable p] : boolWord (decide p) = if p then 1#32 else 0#32 := by
  simp only [boolWord, decide_eq_true_eq]

theorem aluComputes_add : AluComputes .add (fun a b => a + b) addC addV :=
  ⟨fun _ _ => rfl, fun _ _ => rfl, addOverflow_eq⟩

theorem aluComputes_sub : AluComputes .sub (fun a b => a - b) subC subV :=
  ⟨fun _ _ => rfl, fun _ _ => rfl, subOverflow_eq⟩

/-- An operation other than ADD and SUB clears C and V (D23). -/
theorem aluComputes_clear {op : AluOp} {res : Word → Word → Word} (h : ∀ a b, aluResult op a b = res a b)
    (hadd : op ≠ .add := by decide) (hsub : op ≠ .sub := by decide) : AluComputes op res clear clear :=
  ⟨h, carryFlag_other hadd hsub, fun a b => overflowFlag_other hadd hsub a b _⟩

theorem aluComputes_sll : AluComputes .sll (fun a b => a <<< (b.toNat % 32)) clear clear :=
  aluComputes_clear fun a b => congrArg (a <<< ·) (shiftAmount_eq b)

theorem aluComputes_srl : AluComputes .srl (fun a b => a >>> (b.toNat % 32)) clear clear :=
  aluComputes_clear fun a b => congrArg (a >>> ·) (shiftAmount_eq b)

theorem aluComputes_sra : AluComputes .sra (fun a b => a.sshiftRight (b.toNat % 32)) clear clear :=
  aluComputes_clear fun a b => congrArg a.sshiftRight (shiftAmount_eq b)

theorem aluComputes_slt : AluComputes .slt (fun a b => if a.toInt < b.toInt then 1#32 else 0#32) clear clear :=
  aluComputes_clear fun _ _ => boolWord_decide _

theorem aluComputes_sltu : AluComputes .sltu (fun a b => if a.toNat < b.toNat then 1#32 else 0#32) clear clear :=
  aluComputes_clear fun _ _ => boolWord_decide _

theorem aluComputes_xor : AluComputes .xor (fun a b => a ^^^ b) clear clear := aluComputes_clear fun _ _ => rfl

theorem aluComputes_or : AluComputes .or (fun a b => a ||| b) clear clear := aluComputes_clear fun _ _ => rfl

theorem aluComputes_and : AluComputes .and (fun a b => a &&& b) clear clear := aluComputes_clear fun _ _ => rfl

/-! What the flags mean (R115). -/

/-- The sum exceeds the largest word: the addition carries out of bit 31. -/
theorem addCarry_iff (a b : Word) : addCarry a b = true ↔ 2 ^ 32 ≤ a.toNat + b.toNat := by
  have hb := b.isLt
  rw [addCarry, decide_eq_true_eq]
  omega

theorem subCarry_iff (a b : Word) : subCarry a b = true ↔ b.toNat ≤ a.toNat := decide_eq_true_iff

/-- R115's sign rule for ADD is the library's signed overflow. -/
theorem addOverflow_eq_saddOverflow (a b : Word) : addOverflow a b (a + b) = a.saddOverflow b :=
  (BitVec.saddOverflow_eq a b).symm

/-- R115's sign rule for SUB is the library's signed overflow. -/
theorem subOverflow_eq_ssubOverflow (a b : Word) : subOverflow a b (a - b) = a.ssubOverflow b := by
  rw [BitVec.ssubOverflow_eq, subOverflow]
  cases a.msb <;> simp

/-- A sum that leaves the signed range is not the integer that the result word stands for, which never leaves it. -/
theorem addOverflow_iff (a b : Word) : addOverflow a b (a + b) = true ↔ (a + b).toInt ≠ a.toInt + b.toInt := by
  rw [addOverflow_eq_saddOverflow]
  refine ⟨fun h heq => ?_, fun h => by_contra fun hno => h (BitVec.toInt_add_of_not_saddOverflow hno)⟩
  have hlo := BitVec.le_toInt (a + b)
  have hhi := (a + b).toInt_lt
  simp only [BitVec.saddOverflow, Bool.or_eq_true, decide_eq_true_eq, ← heq] at h
  omega

theorem subOverflow_iff (a b : Word) : subOverflow a b (a - b) = true ↔ (a - b).toInt ≠ a.toInt - b.toInt := by
  rw [subOverflow_eq_ssubOverflow]
  refine ⟨fun h heq => ?_, fun h => by_contra fun hno => h (BitVec.toInt_sub_of_not_ssubOverflow hno)⟩
  have hlo := BitVec.le_toInt (a - b)
  have hhi := (a - b).toInt_lt
  simp only [BitVec.ssubOverflow, Bool.or_eq_true, decide_eq_true_eq, ← heq] at h
  omega

theorem msb_iff_toInt_neg (r : Word) : r.msb = true ↔ r.toInt < 0 := by
  rw [BitVec.msb_eq_toInt, decide_eq_true_eq]

/-- LUI adds to 0, which neither carries nor overflows. -/
theorem addC_zero (b : Word) : addC 0#32 b = false := by
  simp [addC]

theorem addV_zero (b : Word) : addV 0#32 b = false := by
  rw [addV, BitVec.zero_add]
  simp +contextual

/-! A computational instruction in Execute (R103, R113). -/

theorem aluFlags_eq {op : AluOp} {res : Word → Word → Word} {c v : Word → Word → Bool} (hop : AluComputes op res c v)
    (a b : Word) :
    aluFlags op a b (aluResult op a b) =
      { z := decide (res a b = 0#32), n := (res a b).getLsbD 31, c := c a b, v := v a b,
        p := Config.aluParity (res a b) } := by
  rw [aluFlags, hop.carry, hop.overflow, hop.result, BitVec.msb_eq_getLsbD_last]
  rfl

/-- What a tick without a fatal error does beside Execute's own work. -/
theorem commit_advances {s : State} (h : s.halted = none) (e : EMLatch) (r : Option Word) (d : Option Uop) :
    Advances s (commit s (.done e r d)) (r.getD (s.pc + 4#32)) where
  running := h
  regs := rfl
  dmem := rfl
  fd := rfl
  de := rfl
  mw := rfl
  pc := by cases r <;> rfl
  tick := rfl
  imem := rfl
  params := rfl

/-- Once a result is in EM, it settles to a write of `rd`. -/
theorem settled_commit_result {s : State} {e : EMLatch} {r : Option Word} {d : Option Uop} (ha : access e.uop = .none)
    (hw : writesRd e.uop = true) (hn : e.noop = false) :
    settled (commit s (.done e r d)) = (settled s).setX e.rd e.result := by
  have he : (commit s (.done e r d)).em = some e := rfl
  rw [settled_result he ha hw hn, commit_settled_regs]
  rfl

/-- The meaning of `i` is ALU(`op`, a, b) with destination `rd`, of which MemAccess and Writeback make a register write. -/
structure RunsAlu (i : Instr) (op : AluOp) (rd : Reg) (a b : State → Word) : Prop where
  exec_eq : ∀ s, exec i s = executeAlu i.uop op rd (a s) (b s) s
  access_eq : access i.uop = .none
  writesRd_eq : writesRd i.uop = true

theorem executePc_of_ready {i : Instr} {pc : Word} {s : State} (h : Ready i pc s) : executePc s = pc := by
  simp only [executePc, h.inExecute]

/-- Such an instruction computes what its ALU operation computes. -/
theorem RunsAlu.computes {i : Instr} {op : AluOp} {rd : Reg} {a b : State → Word} {pc : Word} {s : State}
    {res : Word → Word → Word} {c v : Word → Word → Bool} (hi : RunsAlu i op rd a b) (hop : AluComputes op res c v)
    (h : Ready i pc s) : Computes i pc s rd (res (a s) (b s)) (c (a s) (b s)) (v (a s) (b s)) := by
  refine ⟨_, _, (hi.exec_eq s).trans (runTick_done h.quiet _ none none), commit_advances h.quiet.running _ none none,
    List.append_nil _, rfl, executePc_of_ready h, rfl, rfl, hop.result _ _, rfl, aluFlags_eq hop _ _, ?_⟩
  rw [← hop.result]
  exact settled_commit_result hi.access_eq hi.writesRd_eq rfl

end Sys2Proof.Machine

namespace Sys2Proof.Proofs

open Sys2Proof.Machine Sys2Proof.Stated

/-! The rules of the statements. What a rule asks of each instruction it is about (its row of the opcode map, its encoding, its
arm of `exec`) holds by unfolding; what its ALU operation computes is the one premise that is given. -/

/-- The register-register instructions: rows of OP, the operation on two registers. -/
theorem registerRule {funct7 : BitVec 7} {funct3 : BitVec 3} {mk : Reg → Reg → Reg → Instr} {op : AluOp}
    {res : Word → Word → Word} {c v : Word → Word → Bool} (hop : AluComputes op res c v)
    (hopcode : ∀ rd rs1 rs2, (mk rd rs1 rs2).opcode = 0x33#7 := by intros; rfl)
    (hencode : ∀ rd rs1 rs2, encode (mk rd rs1 rs2) = encodeR 0x33#7 funct3 funct7 rd rs1 rs2 := by intros; rfl)
    (hruns : ∀ rd rs1 rs2, RunsAlu (mk rd rs1 rs2) op rd (·.x rs1) (·.x rs2) := by
      intros; exact ⟨fun _ => rfl, rfl, rfl⟩) :
    RegisterRule funct7 funct3 mk res c v := by
  refine fun rd rs1 rs2 => ⟨?_, fun pc s => (hruns rd rs1 rs2).computes hop⟩
  rw [← hencode]
  exact decode_encode_op (hopcode rd rs1 rs2)

/-- The register-immediate instructions that are no shifts: rows of OP-IMM, the operation on a register and the immediate. -/
theorem immediateRule {funct3 : BitVec 3} {mk : Reg → Reg → Word → Instr} {op : AluOp} {res : Word → Word → Word}
    {c v : Word → Word → Bool} (hop : AluComputes op res c v)
    (hopcode : ∀ rd rs1 imm, (mk rd rs1 imm).opcode = 0x13#7 := by intros; rfl)
    (hwf : ∀ rd rs1 imm, (mk rd rs1 imm).wf = fits12 imm := by intros; rfl)
    (hencode : ∀ rd rs1 imm, encode (mk rd rs1 imm) = encodeI 0x13#7 funct3 rd rs1 imm := by intros; rfl)
    (hruns : ∀ rd rs1 imm, RunsAlu (mk rd rs1 imm) op rd (·.x rs1) (fun _ => imm) := by
      intros; exact ⟨fun _ => rfl, rfl, rfl⟩) :
    ImmediateRule funct3 mk res c v := by
  refine fun rd rs1 => ⟨fun imm12 => ?_, fun imm pc s => (hruns rd rs1 imm).computes hop⟩
  rw [← encodeI_signExtend, ← hencode]
  exact decode_encode_opImm (hopcode ..) ((hwf ..).trans (fits12_signExtend imm12))

/-- The shifts by an immediate: their funct7 stands above the amount, of which the operation takes the low five bits. -/
theorem shiftRule {funct7 : BitVec 7} {funct3 : BitVec 3} {mk : Reg → Reg → Word → Instr} {op : AluOp}
    {res : Word → Nat → Word} (hop : AluComputes op (fun a b => res a (b.toNat % 32)) clear clear)
    (hopcode : ∀ rd rs1 imm, (mk rd rs1 imm).opcode = 0x13#7 := by intros; rfl)
    (hwf : ∀ rd rs1 imm, (mk rd rs1 imm).wf = fitsShift funct7 imm := by intros; rfl)
    (hencode : ∀ rd rs1 imm, encode (mk rd rs1 imm) = encodeI 0x13#7 funct3 rd rs1 imm := by intros; rfl)
    (hruns : ∀ rd rs1 imm, RunsAlu (mk rd rs1 imm) op rd (·.x rs1) (fun _ => imm) := by
      intros; exact ⟨fun _ => rfl, rfl, rfl⟩) :
    ShiftRule funct7 funct3 mk res := by
  refine fun rd rs1 => ⟨fun shamt => ?_, fun imm pc s => (hruns rd rs1 imm).computes hop⟩
  rw [← encodeI_signExtend, ← hencode]
  exact decode_encode_opImm (hopcode ..) ((hwf ..).trans (fitsShift_append funct7 shamt))

/-- Settles O33: each rule by what its ALU operation computes. -/
theorem registerInstructionsCompute : Obligations.RegisterInstructionsCompute :=
  ⟨registerRule aluComputes_add, registerRule aluComputes_sub, registerRule aluComputes_sll,
    registerRule aluComputes_slt, registerRule aluComputes_sltu, registerRule aluComputes_xor,
    registerRule aluComputes_srl, registerRule aluComputes_sra, registerRule aluComputes_or,
    registerRule aluComputes_and⟩

/-- Settles O34: the rules by the same ALU operations, and the shift words that no row of R73 resolves. -/
theorem immediateInstructionsCompute : Obligations.ImmediateInstructionsCompute :=
  ⟨immediateRule aluComputes_add, immediateRule aluComputes_slt, immediateRule aluComputes_sltu,
    immediateRule aluComputes_xor, immediateRule aluComputes_or, immediateRule aluComputes_and,
    shiftRule aluComputes_sll, shiftRule aluComputes_srl, shiftRule aluComputes_sra, fun _ rs2 rs1 rd =>
    ⟨fun h => decode_slli_invalid h rd rs1 rs2, fun h h' => decode_shiftRight_invalid h h' rd rs1 rs2⟩⟩

/-- Settles O35: both are ADD, of 0 and of the instruction's own fetch address; adding to 0 sets neither C nor V. -/
theorem upperImmediateInstructionsCompute : Obligations.UpperImmediateInstructionsCompute := by
  refine fun rd imm20 => ⟨decode_lui rd imm20, decode_auipc rd imm20, fun imm pc s => ⟨fun h => ?_, fun h => ?_⟩⟩
  · have hlui : RunsAlu (.lui rd imm) .add rd (fun _ => 0#32) (fun _ => imm) := ⟨fun _ => rfl, rfl, rfl⟩
    simpa only [BitVec.zero_add, addC_zero, addV_zero] using hlui.computes aluComputes_add h
  · have hauipc : RunsAlu (.auipc rd imm) .add rd executePc (fun _ => imm) := ⟨fun _ => rfl, rfl, rfl⟩
    simpa only [executePc_of_ready h] using hauipc.computes aluComputes_add h

/-- Settles O36: R115's definitions, each against the exact integer result. -/
theorem aluFlagsAreExact : Obligations.AluFlagsAreExact :=
  fun a b => ⟨addCarry_iff a b, addOverflow_iff a b, subCarry_iff a b, subOverflow_iff a b, fun op =>
    ⟨beq_iff_eq, msb_iff_toInt_neg (aluResult op a b), fun hadd hsub =>
      ⟨carryFlag_other hadd hsub a b, overflowFlag_other hadd hsub a b _⟩⟩⟩

/-- Settles O37 operation by operation; a difference of two words is above -2^32, so adding 2^32 once makes it a natural
number. -/
theorem aluLawsHold : Obligations.AluLawsHold := by
  intro a b
  refine ⟨fun op hop => ?_, BitVec.toNat_add a b, ?_⟩
  · rcases hop with rfl | rfl | rfl | rfl
    · exact BitVec.add_comm a b
    · exact BitVec.and_comm a b
    · exact BitVec.or_comm a b
    · exact BitVec.xor_comm a b
  · have ha := a.isLt
    have hb := b.isLt
    rw [aluResult, BitVec.toNat_sub]
    omega

end Sys2Proof.Proofs
end

section
/-! PROOFS. Control transfer (`42_control_transfer.md`): the words of JAL, JALR and the branches, the branch conditions as flags
of SUB, and the tick in which a transfer is in Execute. -/

namespace Sys2Proof

/-! The words of the control transfers (`30_encoding.md` R76 to R78). -/

theorem decode_of_branch {w : Word} (h : opcodeOf w = 0x63#7) : decode w = decodeBranch w := by
  simp only [decode, h]

/-- The rows of BRANCH (R76). -/
theorem decode_encode_branch {i : Instr} (h : i.opcode = 0x63#7) (hwf : i.wf = true) : decode (encode i) = .ok i := by
  cases i
  case beq | bne | blt | bge | bltu | bgeu =>
    obtain ⟨himm, heven⟩ := fits13_eq hwf
    simp [encode, decode_of_branch, decodeBranch, immB_encodeB _ _ _ _ heven, himm]
  all_goals cases h

theorem decode_jal (rd : Reg) {imm : Word} (h : fits21 imm = true) :
    decode (encodeJ 0x6F#7 rd imm) = .ok (.jal rd imm) := by
  obtain ⟨himm, heven⟩ := fits21_eq h
  simp [decode, immJ_encodeJ _ _ heven, himm]

theorem decode_jalr (rd rs1 : Reg) (imm12 : BitVec 12) :
    decode (imm12 ++ rs1 ++ 0#3 ++ rd ++ 0x67#7) = .ok (.jalr rd rs1 (imm12.signExtend 32)) := by
  rw [← encodeI_signExtend]
  simp [decode, decodeJalr]

end Sys2Proof

namespace Sys2Proof.Machine

open Sys2Proof.Stated

/-! The branch conditions as flags of SUB (R144, R115). -/

theorem eq_iff_sub_zeroFlag (a b : Word) : a = b ↔ (a - b == 0) = true := by
  rw [beq_iff_eq, sub_eq_zero]

/-- The difference wraps to the other sign exactly when it overflows. -/
theorem toInt_lt_iff_sub_msb_ne_overflow (a b : Word) :
    a.toInt < b.toInt ↔ (a - b).msb ≠ subOverflow a b (a - b) := by
  have hwrap : (a - b).toInt = (a.toInt - b.toInt).bmod (2 ^ 32) := BitVec.toInt_sub
  have halo := BitVec.le_toInt a
  have hahi := a.toInt_lt
  have hblo := BitVec.le_toInt b
  have hbhi := b.toInt_lt
  rw [ne_eq, Bool.eq_iff_iff, msb_iff_toInt_neg, subOverflow_iff, hwrap, Int.bmod]
  omega

/-! A control transfer in Execute (R103, R106, R140). -/

/-- A taken transfer to a misaligned target is FatalCommit at Execute, unless MemAccess has an older error. -/
theorem targetHalts {i : Instr} {pc target : Word} {s : State} (hd : s.de = some { pc := pc, dec := i })
    (hrun : s.halted = none) (hmem : memFault s = none)
    (htarget : seqTarget pc i { regs := s.regs, dmem := s.dmem } = some target) (hm : target.toNat % 4 ≠ 0) :
    TargetHalts i pc s target := by
  have hmis : wordAligned target = false := by rwa [← Bool.not_eq_true, wordAligned_iff]
  obtain ⟨ex, hs⟩ := step_next s
  have hfatal := step_misalignedTarget hrun hd htarget hmis hs
  have hold := oldestFault_raised s (.misalignedTarget target)
  have hpc : executePc s = pc := by simp only [executePc, hd]
  rw [hmem, Option.getD_none] at hfatal hold
  rw [hpc] at hold
  exact ⟨_, (step_of_de hd).symm.trans (hs.trans (congrArg _ hfatal)), fatalCommit_halts hold⟩

theorem transfer_aligned (e : EMLatch) {target : Word} (h : target.toNat % 4 = 0) :
    transfer e target = .done e (some target) none :=
  if_pos ((wordAligned_iff target).2 h)

/-- A jump to an aligned target commits: its link settles into `rd`, and the next fetch is from the target. -/
theorem redirects_of_jump {i : Instr} {rd : Reg} {pc target : Word} {s : State} (h : Ready i pc s)
    (hexec : exec i s = executeJump i.uop rd target s) (ha : access i.uop = .none) (hw : writesRd i.uop = true)
    (ht : target.toNat % 4 = 0) :
    Redirects i pc s rd (some (pc + 4#32)) target ((settled s).setX rd (pc + 4#32)) := by
  obtain rfl := executePc_of_ready h
  rw [executeJump, transfer_aligned _ ht, runTick_done h.quiet] at hexec
  exact ⟨_, _, hexec, commit_advances h.quiet.running _ _ none, List.append_nil _, rfl, rfl, rfl, rfl,
    fun v hv => Option.some.inj hv, rfl, settled_commit_result ha hw rfl⟩

/-- What writes no register and accesses no memory leaves the settled state. -/
theorem settled_commit_silent {s : State} {e : EMLatch} {r : Option Word} {d : Option Uop} (ha : access e.uop = .none)
    (hw : writesRd e.uop = false) : settled (commit s (.done e r d)) = settled s := by
  have he : (commit s (.done e r d)).em = some e := rfl
  rw [settled_silent he ha hw, commit_settled_regs]
  rfl

/-- An instruction without a result, whose target is aligned if it has one, commits: the next fetch is from the target or
from PC + 4, and nothing is written. -/
theorem redirects_of_silent {i : Instr} {pc : Word} {s : State} (h : Ready i pc s) (ha : access i.uop = .none)
    (hw : writesRd i.uop = false) (hu : unimplemented i.uop = false)
    (haligned : ∀ target, seqTarget pc i { regs := s.regs, dmem := s.dmem } = some target → target.toNat % 4 = 0) :
    Redirects i pc s 0#5 none ((seqTarget pc i { regs := s.regs, dmem := s.dmem }).getD (s.pc + 4#32)) (settled s) := by
  obtain rfl := executePc_of_ready h
  obtain ⟨ex, hexec, hx⟩ := exec_spec i s
  cases ex with
  | idle => exact hx.elim
  | done e redirect diag =>
    obtain ⟨hpc, huop, hnoop, hrd, hdiag, rfl, -⟩ := hx
    obtain rfl : diag = none := by simpa [hu] using hdiag
    exact ⟨_, e, hexec.trans (runTick_done h.quiet e _ none), commit_advances h.quiet.running e _ none,
      List.append_nil _, rfl, hpc, huop, hrd hw, nofun, hnoop.trans hu,
      settled_commit_silent (huop ▸ ha) (huop ▸ hw)⟩
  | raised err =>
    obtain ⟨target, htarget, hmis, -⟩ := hx
    simp [(wordAligned_iff target).2 (haligned target htarget)] at hmis

/-- The micro-ops of BRANCH access no memory, write no register, and are implemented (R71, R104). -/
theorem branch_silent {u : Uop} (h : u.opcode = 0x63#7) :
    access u = .none ∧ writesRd u = false ∧ unimplemented u = false := by
  cases u
  case beq | bne | blt | bge | bltu | bgeu => exact ⟨rfl, rfl, rfl⟩
  all_goals cases h

/-- The fetch behind a tick that redirects is from the target, in the same IMEM. -/
theorem step_running_redirect {s t : State} {d : DELatch} {target : Word} (hrun : s.halted = none) (hd : s.de = some d)
    (htarget : seqTarget d.pc d.dec { regs := s.regs, dmem := s.dmem } = some target) (hs : step s = .next t)
    (ht : t.halted = none) : t.pc = target ∧ ∀ a, iMemRead t a = iMemRead s a := by
  obtain ⟨ex, rfl, hold, ⟨hd', -⟩ | ⟨d', hd', -, hx⟩⟩ := step_running hrun hs ht
  · simp [hd] at hd'
  · obtain rfl : d = d' := Option.some.inj (hd.symm.trans hd')
    refine ⟨?_, fun _ => rfl⟩
    cases ex with
    | idle => exact hx.elim
    | done e redirect diag =>
      obtain ⟨-, -, -, -, -, hr, -⟩ := hx
      simp only [executePc, hd, htarget] at hr
      simp [pcNext, hr]
    | raised err => simp [oldestFault_raised] at hold

end Sys2Proof.Machine

namespace Sys2Proof.Proofs

open Sys2Proof.Machine Sys2Proof.Stated

/-! The rules of the statements. The instruction's arm of `exec` and its target in the sequential semantics hold by
unfolding. -/

theorem jumpRule {i : Instr} {rd : Reg} {target : Word → State → Word}
    (hexec : ∀ s, exec i s = executeJump i.uop rd (target (executePc s) s) s := by intros; rfl)
    (hseq : ∀ pc s, seqTarget pc i { regs := s.regs, dmem := s.dmem } = some (target pc s) := by intros; rfl)
    (ha : access i.uop = .none := by rfl) (hw : writesRd i.uop = true := by rfl) : JumpRule i rd target := by
  refine fun pc s hd => ⟨fun hq ht => ?_, fun hrun hmem hm => targetHalts hd hrun hmem (hseq pc s) hm⟩
  have hready : Ready i pc s := ⟨hq, hd⟩
  exact redirects_of_jump hready (executePc_of_ready hready ▸ hexec s) ha hw ht

theorem branchRule {funct3 : BitVec 3} {mk : Reg → Reg → Word → Instr} {cond : Word → Word → Prop}
    [∀ a b, Decidable (cond a b)]
    (hopcode : ∀ rs1 rs2 imm, (mk rs1 rs2 imm).opcode = 0x63#7 := by intros; rfl)
    (hwf : ∀ rs1 rs2 imm, (mk rs1 rs2 imm).wf = fits13 imm := by intros; rfl)
    (hencode : ∀ rs1 rs2 imm, encode (mk rs1 rs2 imm) = encodeB 0x63#7 funct3 rs1 rs2 imm := by intros; rfl)
    (hseq : ∀ pc rs1 rs2 imm (s : State), seqTarget pc (mk rs1 rs2 imm) { regs := s.regs, dmem := s.dmem } =
      if cond (s.x rs1) (s.x rs2) then some (pc + imm) else none := by intros; rfl) :
    BranchRule funct3 mk cond := by
  refine fun rs1 rs2 => ⟨fun imm h => ?_, fun imm pc s hd => ?_⟩
  · rw [← hencode]
    exact decode_encode_branch (hopcode ..) ((hwf ..).trans h)
  · obtain ⟨ha, hw, hu⟩ := branch_silent (hopcode rs1 rs2 imm)
    have hsilent := fun hq => redirects_of_silent (pc := pc) (s := s) ⟨hq, hd⟩ ha hw hu
    rw [hseq] at hsilent
    refine ⟨fun hq hc ht => ?taken, fun hq hc => ?notTaken, fun hrun hmem hc hm => ?misaligned⟩
    case taken =>
      rw [if_pos hc] at hsilent
      exact hsilent hq fun target htarget => Option.some.inj htarget ▸ ht
    case notTaken => simpa [hc] using hsilent hq
    case misaligned => exact targetHalts hd hrun hmem ((hseq ..).trans (if_pos hc)) hm

/-- Settles O38: the words by their fields, the two jumps by one rule. -/
theorem jumpsLinkAndRedirect : Obligations.JumpsLinkAndRedirect :=
  ⟨fun rd _ => decode_jal rd, decode_jalr, fun _ _ => jumpRule, fun _ _ _ => jumpRule⟩

/-- Settles O39: one rule for the six branches, whose conditions are those of the sequential semantics. -/
theorem branchesRedirectWhenTaken : Obligations.BranchesRedirectWhenTaken :=
  ⟨branchRule, branchRule, branchRule, branchRule, branchRule, branchRule⟩

/-- Settles O40: each condition is its comparison, and the flags Z, N ≠ V and C of SUB are a = b, a < b signed and a ≥ b
unsigned; the other three conditions are the negations of these. -/
theorem branchConditionsAreSubFlags : Obligations.BranchConditionsAreSubFlags := by
  rintro a b f rfl
  have hz : a = b ↔ (aluFlags .sub a b (a - b)).z = true := eq_iff_sub_zeroFlag a b
  have hnv : a.toInt < b.toInt ↔ (aluFlags .sub a b (a - b)).n ≠ (aluFlags .sub a b (a - b)).v :=
    toInt_lt_iff_sub_msb_ne_overflow a b
  have hc : a.toNat ≥ b.toNat ↔ (aluFlags .sub a b (a - b)).c = true := (subCarry_iff a b).symm
  have hne : a ≠ b ↔ (aluFlags .sub a b (a - b)).z = false := by rw [ne_eq, hz, Bool.not_eq_true]
  have hge : a.toInt ≥ b.toInt ↔ (aluFlags .sub a b (a - b)).n = (aluFlags .sub a b (a - b)).v := by
    rw [ge_iff_le, ← not_lt, hnv, not_not]
  have hltu : a.toNat < b.toNat ↔ (aluFlags .sub a b (a - b)).c = false := by
    rw [← not_le, ← ge_iff_le, hc, Bool.not_eq_true]
  exact ⟨beq_iff_eq, hz, bne_iff_ne, hne, decide_eq_true_iff, hnv, decide_eq_true_iff, hge, decide_eq_true_iff, hltu,
    decide_eq_true_iff, hc⟩

/-- Settles O41: both ticks hand on what the latches hold, and the second one fetches at the target. -/
theorem shadowSlotsExecute : Obligations.ShadowSlotsExecute := by
  intro s t u d f target hrun hd hf htarget hs hrunt hst hrunu
  obtain ⟨⟨w, hw, htfd⟩, -, hde, -⟩ := latchesAdvanceOneStage s t hrun hs hrunt
  obtain ⟨⟨w', hw', hufd⟩, -, hde', -⟩ := latchesAdvanceOneStage t u hrunt hst hrunu
  obtain ⟨hpc, himem⟩ := step_running_redirect hrun hd htarget hs hrunt
  obtain ⟨i, hi, htde⟩ := hde f hf
  obtain ⟨j, hj, hude⟩ := hde' _ htfd
  rw [himem, hpc] at hw'
  rw [hpc] at hufd
  exact ⟨⟨i, hi, htde, step_of_de htde⟩, ⟨w, j, hw, hj, hude⟩, ⟨w', hw', hufd⟩⟩

end Sys2Proof.Proofs
end

section
/-! PROOFS. Loads and stores (`43_load_store.md`): the words of LOAD and STORE, the tick in which one of these instructions is
in Execute, and the tick behind it, in which MemAccess takes or rejects its address. -/

namespace Sys2Proof

/-- The width of an access, which is all that its check looks at beside the address. -/
def Access.width : Access → Option Width
  | .load w _ => some w
  | .store w => some w
  | .none => .none

/-! The words of the loads and stores (`30_encoding.md` R74, R75). -/

theorem decode_of_load {w : Word} (h : opcodeOf w = 0x03#7) : decode w = decodeLoad w := by
  simp only [decode, h]

theorem decode_of_store {w : Word} (h : opcodeOf w = 0x23#7) : decode w = decodeStore w := by
  simp only [decode, h]

/-- The rows of LOAD (R74). -/
theorem decode_encode_load {i : Instr} (h : i.opcode = 0x03#7) (hwf : i.wf = true) : decode (encode i) = .ok i := by
  cases i
  case lb | lh | lw | lbu | lhu => simp [encode, decode_of_load, decodeLoad, fits12_eq hwf]
  all_goals cases h

/-- The rows of STORE (R75). -/
theorem decode_encode_store {i : Instr} (h : i.opcode = 0x23#7) (hwf : i.wf = true) : decode (encode i) = .ok i := by
  cases i
  case sb | sh | sw => simp [encode, decode_of_store, decodeStore, fits12_eq hwf]
  all_goals cases h

end Sys2Proof

namespace Sys2Proof.Machine

open Sys2Proof.Stated

/-! A load or store in MemAccess (R47, R48, R104, R178). -/

/-- Loads and stores are checked alike. -/
theorem memFault_width {s : State} {e : EMLatch} {w : Width} (he : s.em = some e)
    (hw : (access e.uop).width = some w) :
    memFault s = (checkAccess s.params e.addr w).map fun err => ⟨err, .memAccess, e.pc⟩ := by
  rw [memFault_access he]
  revert hw
  cases access e.uop with
  | load w' signed => rintro ⟨⟩; rfl
  | store w' => rintro ⟨⟩; rfl
  | none => nofun

/-- The check in the tick behind a commit, which keeps the sizes. -/
theorem memFault_commit {e : EMLatch} {w : Width} (hw : (access e.uop).width = some w) (s : State) (r : Option Word)
    (d : Option Uop) :
    memFault (commit s (.done e r d)) = (checkAccess s.params e.addr w).map fun err => ⟨err, .memAccess, e.pc⟩ :=
  memFault_width (commit_em ..) hw

/-- MemAccess is the oldest stage that can fail, so its error is the one that the tick takes, whatever is in Execute. -/
theorem step_memFault {s : State} {f : Fatal} (hrun : s.halted = none) (hf : memFault s = some f) :
    ∃ t, step s = .next t ∧ Halts s t f.error .memAccess f.pc s.dmem := by
  obtain ⟨ex, hs⟩ := step_next s
  have hold : oldestFault s ex = some f := by rw [oldestFault, hf, Option.some_or]
  have hhalts := fatalCommit_halts hold
  rw [memFault_stage hf, if_pos rfl] at hhalts
  exact ⟨_, hs.trans (congrArg _ (tickWith_fatal hrun hold)), hhalts⟩

/-- Once a store that the memory takes is in EM, it settles to its bytes in the settled DMEM. -/
theorem settled_commit_store {s : State} {e : EMLatch} {r : Option Word} {d : Option Uop} {w : Width}
    (ha : access e.uop = .store w) (hc : checkAccess s.params e.addr w = none) :
    settled (commit s (.done e r d)) =
      { settled s with dmem := writeLE (settled s).dmem e.addr.toNat (widthBytes w) e.storeData } := by
  have he : (commit s (.done e r d)).em = some e := rfl
  have hf : memFault (commit s (.done e r d)) = none := by
    rw [memFault_commit (congrArg Access.width ha), hc, Option.map_none]
  rw [settled_store he ha hf, commit_settled_regs]
  rfl

/-! A load or store in Execute (R103, R153 to R155). -/

/-- A load or store that commits with an address that the check rejects halts one tick later. -/
theorem accessHalts_of_exec {i : Instr} {s : State} {e : EMLatch} {w : Width} {err : CoreError} (hrun : s.halted = none)
    (hexec : exec i s = .next (commit s (.done e none none))) (hw : (access e.uop).width = some w)
    (hc : checkAccess s.params e.addr w = some err) : AccessHalts i e.pc s err := by
  have hadv := commit_advances hrun e none none
  have hfault := memFault_commit hw s none none
  rw [hc, Option.map_some] at hfault
  obtain ⟨u, hstep, hhalts⟩ := step_memFault hadv.running hfault
  exact ⟨_, u, hexec, hadv, hstep, hhalts⟩

/-- The payload that Execute hands on decides how the access ends: Execute itself never fails, and the check in the next tick
has the three answers of R47 and R48. -/
theorem accessEnds_of_exec {i : Instr} {pc : Word} {s : State} {e : EMLatch} {w : Width} {rd : Reg} {addr v : Word}
    {data : Option Word} {a : Arch} (h : Ready i pc s) (hexec : exec i s = runTick (.done e none none) s)
    (he : e = { openLatch i.uop s with rd := rd, addr := addr, storeData := v })
    (hw : (access i.uop).width = some w) (hdata : ∀ x, data = some x → v = x)
    (hsettled : checkAccess s.params addr w = none → settled (commit s (.done e none none)) = a) :
    AccessEnds i pc s rd addr data (widthBytes w) a := by
  obtain rfl := executePc_of_ready h
  subst he
  rw [runTick_done h.quiet] at hexec
  have hhalts := fun err => accessHalts_of_exec (err := err) h.quiet.running hexec hw
  refine ⟨fun halign hbounds => ?completes, fun hmis => ?misaligned, fun halign hout => ?outOfBounds⟩
  case completes =>
    exact ⟨_, _, hexec, commit_advances h.quiet.running _ none none, List.append_nil _, rfl, rfl, rfl, rfl, rfl, hdata,
      rfl, hsettled (checkAccess_none.2 ⟨halign, hbounds⟩)⟩
  case misaligned => exact hhalts _ (checkAccess_misaligned.2 hmis)
  case outOfBounds => exact hhalts _ (checkAccess_outOfBounds.2 ⟨halign, hout⟩)

end Sys2Proof.Machine

namespace Sys2Proof.Proofs

open Sys2Proof.Machine Sys2Proof.Stated

/-! The rules of the statements. What a rule asks of each instruction it is about (its row of the opcode map, its encoding, its
arm of `exec`, its class in MemAccess) holds by unfolding. -/

theorem loadRule {funct3 : BitVec 3} {mk : Reg → Reg → Word → Instr} {w : Width} {sg : Bool}
    (ha : ∀ rd rs1 imm, access (mk rd rs1 imm).uop = .load w sg)
    (hopcode : ∀ rd rs1 imm, (mk rd rs1 imm).opcode = 0x03#7 := by intros; rfl)
    (hwf : ∀ rd rs1 imm, (mk rd rs1 imm).wf = fits12 imm := by intros; rfl)
    (hencode : ∀ rd rs1 imm, encode (mk rd rs1 imm) = encodeI 0x03#7 funct3 rd rs1 imm := by intros; rfl)
    (hexec : ∀ rd rs1 imm s, exec (mk rd rs1 imm) s = executeLoad (mk rd rs1 imm).uop rd (s.x rs1) imm s := by
      intros; rfl) :
    LoadRule funct3 mk (widthBytes w) (extendLoad w sg) := by
  refine fun rd rs1 => ⟨fun imm12 => ?_, fun imm pc s h => ?_⟩
  · rw [← encodeI_signExtend, ← hencode]
    exact decode_encode_load (hopcode ..) ((hwf ..).trans (fits12_signExtend imm12))
  · exact accessEnds_of_exec h (hexec rd rs1 imm s) rfl (congrArg Access.width (ha rd rs1 imm)) nofun
      fun hc => settled_commit_load (ha rd rs1 imm) hc

theorem storeRule {funct3 : BitVec 3} {mk : Reg → Reg → Word → Instr} {w : Width}
    (ha : ∀ rs1 rs2 imm, access (mk rs1 rs2 imm).uop = .store w)
    (hopcode : ∀ rs1 rs2 imm, (mk rs1 rs2 imm).opcode = 0x23#7 := by intros; rfl)
    (hwf : ∀ rs1 rs2 imm, (mk rs1 rs2 imm).wf = fits12 imm := by intros; rfl)
    (hencode : ∀ rs1 rs2 imm, encode (mk rs1 rs2 imm) = encodeS 0x23#7 funct3 rs1 rs2 imm := by intros; rfl)
    (hexec : ∀ rs1 rs2 imm s,
      exec (mk rs1 rs2 imm) s = executeStore (mk rs1 rs2 imm).uop (s.x rs1) (s.x rs2) imm s := by intros; rfl) :
    StoreRule funct3 mk (widthBytes w) := by
  refine fun rs1 rs2 => ⟨fun imm h => ?_, fun imm pc s h => ?_⟩
  · rw [← hencode]
    exact decode_encode_store (hopcode ..) ((hwf ..).trans h)
  · exact accessEnds_of_exec h (hexec rs1 rs2 imm s) rfl (congrArg Access.width (ha rs1 rs2 imm))
      (fun _ => Option.some.inj) fun hc => settled_commit_store (ha rs1 rs2 imm) hc

/-- Settles O42: one rule for the five loads, each with its width and extension. -/
theorem loadsReadAndExtend : Obligations.LoadsReadAndExtend :=
  ⟨loadRule (w := .byte) (sg := true) fun _ _ _ => rfl, loadRule (w := .half) (sg := true) fun _ _ _ => rfl,
    loadRule (w := .word) (sg := true) fun _ _ _ => rfl, loadRule (w := .byte) (sg := false) fun _ _ _ => rfl,
    loadRule (w := .half) (sg := false) fun _ _ _ => rfl⟩

/-- Settles O43: one rule for the three stores, each with its width. -/
theorem storesWriteTheirBytes : Obligations.StoresWriteTheirBytes :=
  ⟨storeRule (w := .byte) fun _ _ _ => rfl, storeRule (w := .half) fun _ _ _ => rfl,
    storeRule (w := .word) fun _ _ _ => rfl⟩

end Sys2Proof.Proofs
end

section
/-! PROOFS. FENCE and the system instructions (`44_fence_system.md`): the words of MISC-MEM and SYSTEM, and the tick in which an
Unimplemented instruction is in Execute. -/

namespace Sys2Proof

/-! The words of FENCE, ECALL and EBREAK (`30_encoding.md` R80, R81, R83). -/

theorem decode_of_miscMem {w : Word} (h : opcodeOf w = 0x0F#7) : decode w = decodeMiscMem w := by
  simp only [decode, h]

theorem decode_of_system {w : Word} (h : opcodeOf w = 0x73#7) : decode w = decodeSystem w := by
  simp only [decode, h]

theorem decode_fence (rd rs1 : Reg) (imm12 : BitVec 12) :
    decode (imm12 ++ rs1 ++ 0#3 ++ rd ++ 0x0F#7) = .ok (.fence rd rs1 (imm12.signExtend 32)) := by
  rw [← encodeI_signExtend, decode_of_miscMem (opcodeOf_encodeI ..)]
  simp [decodeMiscMem]

/-- MISC-MEM's row has one funct3 (R80): `h` rules it out, and the match falls through to the rejection. -/
theorem decode_miscMem_invalid {f3 : BitVec 3} (h : f3 ≠ 0#3) (rd rs1 : Reg) (imm12 : BitVec 12) :
    decode (imm12 ++ rs1 ++ f3 ++ rd ++ 0x0F#7) = .error (.invalidFunct 0x0F#7 f3 (imm12.extractLsb' 5 7)) := by
  rw [← encodeI_signExtend, decode_of_miscMem (opcodeOf_encodeI ..)]
  simp [decodeMiscMem, invalidFunct, extractLsb'_signExtend imm12]

/-- The rows of SYSTEM (R81). -/
theorem decode_encode_system {i : Instr} (h : i.opcode = 0x73#7) (hwf : i.wf = true) : decode (encode i) = .ok i := by
  cases i
  case ecall | ebreak =>
    obtain rfl := eq_of_beq hwf
    simp [encode, decode_of_system, decodeSystem]
  all_goals cases h

end Sys2Proof

namespace Sys2Proof.Machine

open Sys2Proof.Stated

/-! An Unimplemented instruction in Execute (R103, R110, R169). -/

/-- The Unimplemented micro-ops access no memory and write no register (R104, R105). -/
theorem unimplemented_silent {u : Uop} (h : unimplemented u = true) : access u = .none ∧ writesRd u = false := by
  cases u
  case ecall | ebreak => exact ⟨rfl, rfl⟩
  case mul | mulh | mulhsu | mulhu | div | divu | rem | remu => exact ⟨rfl, rfl⟩
  case lrW | scW | amoswapW | amoaddW | amoxorW | amoandW | amoorW => exact ⟨rfl, rfl⟩
  case amominW | amomaxW | amominuW | amomaxuW => exact ⟨rfl, rfl⟩
  all_goals cases h

/-- Every Unimplemented instruction commits the no-op payload with its diagnostic, and nothing of it settles. -/
theorem noopRule_of_unimplemented {i : Instr} (h : unimplemented i.uop = true) : NoopRule i := by
  intro pc s hready
  obtain rfl := executePc_of_ready hready
  obtain ⟨ha, hw⟩ := unimplemented_silent h
  have hexec : exec i s = .next (commit s (.done (noopLatch i.uop s) none (some i.uop))) :=
    (exec_unimplemented h s).trans (runTick_done hready.quiet ..)
  exact ⟨_, hexec, commit_advances hready.quiet.running .., rfl, rfl, settled_commit_silent ha hw⟩

end Sys2Proof.Machine

namespace Sys2Proof.Proofs

open Sys2Proof.Machine Sys2Proof.Stated

/-- Settles O45: the words by their fields; in Execute, FENCE is an implemented instruction without a result and without a
target, so it redirects nowhere. -/
theorem fenceHasNoEffect : Obligations.FenceHasNoEffect := by
  intro rd rs1
  refine ⟨decode_fence rd rs1, fun imm12 _ h => decode_miscMem_invalid h rd rs1 imm12, fun imm pc s hready => ?_⟩
  obtain ⟨t, e, hexec, hadv, hdiags, hem, hpc, huop, hrd, -, hnoop, hsettled⟩ :=
    redirects_of_silent hready rfl rfl rfl nofun
  exact ⟨t, e, hexec, hadv, hdiags, hem, hpc, huop, hrd, hnoop, hsettled⟩

/-- Settles O46: both words are encodings of well-formed instructions, and both micro-ops are Unimplemented. -/
theorem environmentInstructionsAreNoops : Obligations.EnvironmentInstructionsAreNoops := by
  intro rd rs1
  have hecall : decode (encode (.ecall rd rs1 0#32)) = .ok (.ecall rd rs1 0#32) := decode_encode_system rfl rfl
  have hebreak : decode (encode (.ebreak rd rs1 1#32)) = .ok (.ebreak rd rs1 1#32) := decode_encode_system rfl rfl
  exact ⟨hecall, hebreak, fun _ => ⟨noopRule_of_unimplemented rfl, noopRule_of_unimplemented rfl⟩⟩

end Sys2Proof.Proofs
end

section
/-! PROOFS. RV32M and RV32A (`45_reserved_m_a.md`): the words of AMO, and the nineteen instructions as recoverable no-ops. -/

namespace Sys2Proof

open Sys2Proof.Stated

/-! The words of AMO (`30_encoding.md` R82): funct5 and funct3 select the row, `aq` and `rl` are not tested. -/

theorem decode_of_amo {w : Word} (h : opcodeOf w = 0x2F#7) : decode w = decodeAmo w := by
  simp only [decode, h]

/-- The rows of AMO: a word is resolved by its encoding but for `aq` and `rl`, which the mask clears. -/
theorem decode_amo_of_mask {i : Instr} (h : i.opcode = 0x2F#7) {w : Word} (hw : w &&& 0xF9FFFFFF#32 = encode i) :
    decode w = .ok i := by
  rw [← encodeR_fields_amo] at hw
  have hopcode : opcodeOf w = opcodeOf (encode i) := by rw [← hw, opcodeOf_encodeR]
  have hfunct3 : funct3Of w = funct3Of (encode i) := by rw [← hw, funct3Of_encodeR]
  have hfunct5 : funct5Of w = funct5Of (encode i) := by
    rw [← hw, funct5Of_encodeR, BitVec.extractLsb'_append_eq_left]
  have hrd : rdOf w = rdOf (encode i) := by rw [← hw, rdOf_encodeR]
  have hrs1 : rs1Of w = rs1Of (encode i) := by rw [← hw, rs1Of_encodeR]
  have hrs2 : rs2Of w = rs2Of (encode i) := by rw [← hw, rs2Of_encodeR]
  cases i
  case lrW | scW | amoswapW | amoaddW | amoxorW | amoandW | amoorW | amominW | amomaxW | amominuW | amomaxuW =>
    simp [encode, decode_of_amo, decodeAmo, hopcode, hfunct3, hfunct5, hrd, hrs1, hrs2]
  all_goals cases h

/-- The mask clears exactly `aq` and `rl` of an AMO word. -/
theorem encodeR_amo_and_mask (o : BitVec 7) (f3 : BitVec 3) (f5 : BitVec 5) (aq rl : BitVec 1) (rd rs1 rs2 : Reg) :
    encodeR o f3 (f5 ++ aq ++ rl) rd rs1 rs2 &&& 0xF9FFFFFF#32 = encodeR o f3 (f5 ++ 0#2) rd rs1 rs2 := by
  have h5 : (f5 ++ aq ++ rl).extractLsb' 2 5 = f5 := by
    rw [BitVec.append_assoc]
    exact BitVec.extractLsb'_append_eq_left
  rw [← encodeR_fields_amo, opcodeOf_encodeR, funct3Of_encodeR, funct5Of_encodeR, rdOf_encodeR, rs1Of_encodeR,
    rs2Of_encodeR, h5]

/-- All rows of AMO have funct3 2 and one of eleven funct5 codes: `h` rules them out, and the match falls through to the
rejection. -/
theorem decode_amo_invalid {f3 : BitVec 3} {f7 : BitVec 7} (h : f3 ≠ 2#3 ∨ f7.extractLsb' 2 5 ∉ knownFunct5)
    (rd rs1 rs2 : Reg) : decode (encodeR 0x2F#7 f3 f7 rd rs1 rs2) = .error (.invalidFunct 0x2F#7 f3 f7) := by
  rw [decode_of_amo (opcodeOf_encodeR ..)]
  obtain h | h := h
  · simp [decodeAmo, invalidFunct, h]
  · simp only [knownFunct5, List.mem_cons, List.not_mem_nil, not_or] at h
    simp [decodeAmo, invalidFunct, h]

end Sys2Proof

namespace Sys2Proof.Proofs

open Sys2Proof.Machine Sys2Proof.Stated

/-! The rules of the statements. What a rule asks of each instruction it is about (its row of the opcode map, its encoding, that
its micro-op is Unimplemented) holds by unfolding. -/

/-- RV32M: rows of OP. -/
theorem mulDivRule {funct3 : BitVec 3} {mk : Reg → Reg → Reg → Instr}
    (hopcode : ∀ rd rs1 rs2, (mk rd rs1 rs2).opcode = 0x33#7 := by intros; rfl)
    (hencode : ∀ rd rs1 rs2, encode (mk rd rs1 rs2) = encodeR 0x33#7 funct3 0x01#7 rd rs1 rs2 := by intros; rfl)
    (hunimplemented : ∀ rd rs1 rs2, unimplemented (mk rd rs1 rs2).uop = true := by intros; rfl) :
    MulDivRule funct3 mk := by
  refine fun rd rs1 rs2 => ⟨?_, noopRule_of_unimplemented (hunimplemented rd rs1 rs2)⟩
  rw [← hencode]
  exact decode_encode_op (hopcode rd rs1 rs2)

/-- RV32A: rows of AMO. -/
theorem atomicRule {funct5 : BitVec 5} {mk : Reg → Reg → Reg → Instr}
    (hopcode : ∀ rd rs1 rs2, (mk rd rs1 rs2).opcode = 0x2F#7 := by intros; rfl)
    (hencode : ∀ rd rs1 rs2, encode (mk rd rs1 rs2) = encodeR 0x2F#7 2#3 (funct5 ++ 0#2) rd rs1 rs2 := by intros; rfl)
    (hunimplemented : ∀ rd rs1 rs2, unimplemented (mk rd rs1 rs2).uop = true := by intros; rfl) :
    AtomicRule funct5 mk := by
  refine fun rd rs1 rs2 => ⟨fun aq rl => ?_, noopRule_of_unimplemented (hunimplemented rd rs1 rs2)⟩
  refine decode_amo_of_mask (hopcode rd rs1 rs2) ?_
  rw [hencode, encodeR_amo_and_mask]

/-- Settles O47: one rule for the eight instructions, each with its funct3. -/
theorem multiplyDivideInstructionsAreNoops : Obligations.MultiplyDivideInstructionsAreNoops :=
  ⟨mulDivRule, mulDivRule, mulDivRule, mulDivRule, mulDivRule, mulDivRule, mulDivRule, mulDivRule⟩

/-- Settles O48: one rule for the eleven instructions, each with its funct5, and the words that no row of R82 resolves. -/
theorem atomicInstructionsAreNoops : Obligations.AtomicInstructionsAreNoops :=
  ⟨atomicRule, atomicRule, atomicRule, atomicRule, atomicRule, atomicRule, atomicRule, atomicRule, atomicRule,
    atomicRule, atomicRule, fun _ _ rs2 rs1 rd h => decode_amo_invalid h rd rs1 rs2⟩

end Sys2Proof.Proofs
end

section
/-! PROOFS. The exceptions (`60_exceptions.md`): the fatal errors of Decode and Fetch, and the launch that is refused. -/

namespace Sys2Proof.Machine

open Sys2Proof.Stated

/-! The fatal errors of the younger stages (R175, R178). -/

theorem decodeFault_of_decode {s : State} {f : FDLatch} {e : DecodeError} (hf : s.fd = some f)
    (hd : decode f.word = .error e) : decodeFault s = some ⟨.decode e, .decode, f.pc⟩ := by
  simp only [decodeFault, hf, hd]

theorem fetchFault_outOfBounds {s : State} (haligned : s.pc.toNat % 4 = 0) (hbound : s.params.imemWords ≤ s.pc.toNat / 4) :
    fetchFault s = some ⟨.outOfBounds s.pc, .fetch, s.pc⟩ :=
  fetchFault_of_iMemRead ((iMemRead_aligned s haligned).trans (if_pos hbound))

/-- Without an error of MemAccess and of Execute, a tick's fatal errors are those of the two younger stages (R180). -/
theorem fatalErrors_of_no_older {s : State} (hmem : memFault s = none) (hexec : executeFault s = none) :
    fatalErrors s = (decodeFault s).toList ++ (fetchFault s).toList := by
  simp only [fatalErrors, hmem, hexec, Option.toList_none, List.nil_append]

/-! The launch with sizes in their ranges (`00_scope.md` R8), with and without an image (R179, R193). -/

theorem launch_without_image {p : Params} (hwf : p.wf = true) (path : String) (dmemInit imemFill : List Host.Cell) :
    launch p path none dmemInit imemFill = .refused (.imageUnreadable path) :=
  if_pos hwf

theorem launch_with_image {p : Params} (hwf : p.wf = true) (path : String) (image : List Byte)
    (dmemInit imemFill : List Host.Cell) :
    launch p path (some image) dmemInit imemFill = .next { State.reset with
      params := p
      imem := loadImage p image imemFill
      dmem := memoryOf p.dmemBytes dmemInit } :=
  if_pos hwf

end Sys2Proof.Machine

namespace Sys2Proof.Proofs

open Sys2Proof.Machine Sys2Proof.Stated

/-- The first fatal error of a tick halts the engine; MemAccess's store commits when it is a younger stage's (R109). -/
theorem step_halts_of_younger_stage {s : State} {f : Fatal} {rest : List Fatal} (hrun : s.halted = none)
    (hfirst : fatalErrors s = f :: rest) (hyounger : f.stage ≠ .memAccess) :
    ∃ t, step s = .next t ∧ Halts s t f.error f.stage f.pc (commitStore s) := by
  obtain ⟨ex, hs⟩ := step_next s
  have hhalts := (oldestFatalErrorHalts s _ hrun hs).1 f rest hfirst
  rw [if_neg hyounger] at hhalts
  exact ⟨_, hs, hhalts⟩

/-- Settles O28: Decode's error comes first, whatever Fetch does. -/
theorem decodeErrorHalts : Obligations.DecodeErrorHalts := by
  intro s f e hrun hf hd hmem hexec
  have hfirst : fatalErrors s = ⟨.decode e, .decode, f.pc⟩ :: (fetchFault s).toList := by
    rw [fatalErrors_of_no_older hmem hexec, decodeFault_of_decode hf hd]
    rfl
  exact step_halts_of_younger_stage hrun hfirst nofun

/-- Settles O29: no older stage has an error, so Fetch's is the only one of the tick. -/
theorem fetchOutOfBoundsHalts : Obligations.FetchOutOfBoundsHalts := by
  intro s hrun haligned hbound hmem hexec hdec
  have hfirst : fatalErrors s = [⟨.outOfBounds s.pc, .fetch, s.pc⟩] := by
    rw [fatalErrors_of_no_older hmem hexec, hdec, fetchFault_outOfBounds haligned hbound]
    rfl
  exact step_halts_of_younger_stage hrun hfirst nofun

/-- Settles O31: with sizes in their ranges, only the image decides. -/
theorem launchIsRefusedExactlyForAnUnreadableImage : Obligations.LaunchIsRefusedExactlyForAnUnreadableImage :=
  fun _ path dmemInit imemFill hwf => ⟨launch_without_image hwf path dmemInit imemFill,
    fun image => ⟨_, launch_with_image hwf path image dmemInit imemFill⟩⟩

end Sys2Proof.Proofs
end

section
/-! PROOFS. Engine start (`70_reset_and_hazards.md` sections 1 and 2): the memories that the loader makes, byte by byte, and the
invariant at engine start and under a shutdown. -/

namespace Sys2Proof.Machine

open Sys2Proof.Stated

/-! The bytes of a launched memory (R43, R49, R193). -/

theorem launchByte_outside {limit a : Nat} (h : limit ≤ a) (cells : List Host.Cell) :
    launchByte limit cells a = Memory.unlisted :=
  if_neg (Nat.not_lt.2 h)

theorem launchByte_append_same {limit : Nat} {c : Host.Cell} (h : c.1 < limit) (cells : List Host.Cell) :
    launchByte limit (cells ++ [c]) c.1 = c.2 := by
  simp [launchByte, h]

theorem launchByte_append_other {a : Nat} {c : Host.Cell} (h : c.1 ≠ a) (limit : Nat) (cells : List Host.Cell) :
    launchByte limit (cells ++ [c]) a = launchByte limit cells a := by
  simp [launchByte, h]

/-- The last cell for a byte counts. -/
theorem read_memoryOf (limit : Nat) (cells : List Host.Cell) (a : Nat) :
    (memoryOf limit cells).read a = launchByte limit cells a := by
  induction cells using List.reverseRecOn with
  | nil => simp [memoryOf, launchByte]
  | append_singleton cells c ih =>
    rw [memoryOf_append]
    by_cases ha : c.1 = a
    · subst ha
      split
      next hlt => rw [launchByte_append_same hlt, Memory.read_write_same (Memory.wf_memoryOf ..)]
      next hge => rw [ih, launchByte_outside (Nat.not_lt.1 hge), launchByte_outside (Nat.not_lt.1 hge)]
    · rw [launchByte_append_other ha, ← ih]
      split
      · exact Memory.read_write_other (Ne.symm ha) ..
      · rfl

theorem read_loadImage_inside (p : Params) {image : List Byte} (imemFill : List Host.Cell) {a : Nat}
    (h : a < 4 * min (image.length / 4) p.imemWords) :
    (loadImage p image imemFill).read a = image[a]'(by omega) := by
  have hlen : a < (loadedBytes p image).length := (loadedBytes_length p image).symm ▸ h
  have hread := Memory.read_storeBytes_inside (Memory.wf_memoryOf (4 * p.imemWords) imemFill) (a := 0) _ hlen
  rw [Nat.zero_add] at hread
  exact hread.trans List.getElem_take

theorem read_loadImage_outside {p : Params} {image : List Byte} (imemFill : List Host.Cell) {a : Nat}
    (h : 4 * min (image.length / 4) p.imemWords ≤ a) :
    (loadImage p image imemFill).read a = launchByte (4 * p.imemWords) imemFill a := by
  rw [loadImage, Memory.read_storeBytes_outside _ _ (by rw [loadedBytes_length]; omega), read_memoryOf]

theorem toNat_ofNat_word {p : Params} (hp : p.wf = true) {i : Nat} (h : i < p.imemWords) :
    (BitVec.ofNat 32 (4 * i)).toNat = 4 * i := by
  simp only [Params.wf, Bool.and_eq_true, decide_eq_true_eq] at hp
  rw [BitVec.toNat_ofNat]
  omega

/-! The invariant (R192, R195). -/

/-- At engine start, only the sizes and the memories differ from launch to launch. -/
theorem inv_engineStart {p : Params} {imem dmem : Memory} (hp : p.wf = true) (himem : imem.wf = true)
    (himem' : imem.below (4 * p.imemWords) = true) (hdmem : dmem.wf = true) (hdmem' : dmem.below p.dmemBytes = true) :
    Inv { State.reset with params := p, imem := imem, dmem := dmem } where
  params := hp
  imem_wf := himem
  imem_range := himem'
  dmem_wf := hdmem
  dmem_range := hdmem'
  x0 := rfl
  pc_aligned := rfl
  fd := nofun
  de := nofun
  em := nofun
  mw := nofun
  halted := nofun
  diags := nofun

theorem inv_reset : Inv State.reset :=
  inv_engineStart (p := Config.resetParams) (imem := []) (dmem := []) (by decide) rfl rfl rfl rfl

theorem inv_launch {p : Params} {path : String} {image : Option (List Byte)} {dmemInit imemFill : List Host.Cell}
    {s : State} (h : launch p path image dmemInit imemFill = .next s) : Inv s := by
  obtain ⟨hp, bytes, -, rfl⟩ := launch_next h
  exact inv_engineStart hp (Memory.wf_loadImage ..) (Memory.below_loadImage ..) (Memory.wf_memoryOf ..)
    (Memory.below_memoryOf ..)

/-- A shutdown empties the latches and records its own tick, which is the last one performed (R112). -/
theorem inv_shutdown {s : State} (h : Inv s) : Inv (shutdown s) := by
  cases hh : s.halted with
  | some r => simpa only [shutdown, hh] using h
  | none =>
    rw [shutdown_running hh]
    exact { h with
      fd := nofun
      de := nofun
      em := nofun
      mw := nofun
      halted := by rintro _ ⟨⟩; exact ⟨rfl, rfl, rfl, rfl, rfl⟩ }

end Sys2Proof.Machine

namespace Sys2Proof.Proofs

open Sys2Proof.Machine Sys2Proof.Stated

/-- Settles O16: the loader's memories are canonical and in range, and everything else is as at reset. -/
theorem engineStartSatisfiesInvariant : Obligations.EngineStartSatisfiesInvariant :=
  ⟨inv_reset, fun _ _ _ _ _ _ => inv_launch, fun _ => inv_shutdown⟩

/-- Settles O30: the image is stored over `imem_fill`, so a fetch inside of it assembles its bytes. -/
theorem launchLoadsTheImage : Obligations.LaunchLoadsTheImage := by
  intro p path image dmemInit imemFill s h
  obtain ⟨hp, bytes, hbytes, rfl⟩ := launch_next h
  obtain rfl := Option.some.inj hbytes
  refine ⟨fun i hlen hi => ?_, fun a => read_loadImage_outside imemFill, read_memoryOf p.dmemBytes dmemInit, rfl,
    Memory.wf_loadImage .., Memory.wf_memoryOf ..⟩
  have haddr := toNat_ofNat_word hp hi
  have hbyte : ∀ a, (ha : a ≤ 4 * i + 3) → (loadImage p image imemFill).read a = image[a] :=
    fun a ha => read_loadImage_inside p imemFill (by omega)
  rw [iMemRead_aligned _ (by omega), haddr, if_neg (Nat.not_le.2 (by simpa using hi)), readLE_four]
  simp only [hbyte (4 * i) (by omega), hbyte (4 * i + 1) (by omega), hbyte (4 * i + 2) (by omega),
    hbyte (4 * i + 3) (by omega)]

end Sys2Proof.Proofs
end

section
/-! PROOFS. Hazards (`70_reset_and_hazards.md` section 4): when a register is settled for the instruction in Execute, what each
shape of instruction settles to, and the simulation of the sequential semantics by a tick and by a hazard-free run. -/

namespace Sys2Proof.Machine

open Sys2Proof.Stated

/-! The operands of a hazard-free instruction (R197). -/

theorem settled_x_of_hazardFree {s : State} {i : Instr} (h : hazardFree s i = true) {r : Reg} (hr : r ∈ sources i) :
    (settled s).x r = s.x r := by
  have hpending : r ∉ pendingRegs s := by simpa using List.all_eq_true.1 h r hr
  simp only [pendingRegs, List.mem_map, List.mem_append, Option.mem_toList] at hpending
  have hmw : ∀ v, wbThisTick s.mw ≠ some (r, v) := fun v hv => hpending ⟨(r, v), .inl hv, rfl⟩
  have hem : ∀ v, wbThisTick (mwNext s) ≠ some (r, v) := fun v hv => hpending ⟨(r, v), .inr hv, rfl⟩
  exact (readReg_writeBack_other hem _).trans (readReg_writeBack_other hmw _)

/-- The target of a transfer depends on the registers that it reads alone. -/
theorem seqTarget_congr {i : Instr} {a b : Arch} (h : ∀ r ∈ sources i, a.x r = b.x r) (pc : Word) :
    seqTarget pc i a = seqTarget pc i b := by
  cases i
  case jalr | beq | bne | blt | bge | bltu | bgeu =>
    simp only [sources, List.forall_mem_cons] at h
    simp only [seqTarget, h]
  all_goals rfl

/-! One tick, by the shape of the instruction in Execute: what its payload settles to. -/

theorem quiet_of_step_running {s t : State} (hrun : s.halted = none) (hs : step s = .next t) (ht : t.halted = none) :
    Quiet s := by
  obtain ⟨ex, -, hold, -⟩ := step_running hrun hs ht
  obtain ⟨hmem, -, hdec, hfetch⟩ := oldestFault_none.1 hold
  exact ⟨hrun, hmem, hdec, hfetch⟩

theorem settled_executeAlu {u : Uop} {op : AluOp} {rd : Reg} {a b : Word} {s t : State} (hq : Quiet s)
    (h : executeAlu u op rd a b s = .next t) (ha : access u = .none) (hw : writesRd u = true) :
    settled t = (settled s).setX rd (aluResult op a b) := by
  obtain rfl := Host.Outcome.next.inj ((runTick_done hq ..).symm.trans h)
  exact settled_commit_result ha hw rfl

/-- A jump after which the engine still runs went to an aligned target: it links. -/
theorem settled_executeJump {u : Uop} {rd : Reg} {target : Word} {s t : State} (hq : Quiet s)
    (h : executeJump u rd target s = .next t) (ht : t.halted = none) (ha : access u = .none) (hw : writesRd u = true) :
    settled t = (settled s).setX rd (executePc s + 4#32) := by
  unfold executeJump transfer at h
  split at h
  next =>
    obtain rfl := Host.Outcome.next.inj ((runTick_done hq ..).symm.trans h)
    exact settled_commit_result ha hw rfl
  next =>
    obtain rfl := Host.Outcome.next.inj h
    simp [tickWith_fatal hq.running (oldestFault_raised s _)] at ht

theorem settled_executeLoad {u : Uop} {rd : Reg} {base imm : Word} {w : Width} {sg : Bool} {s t : State} (hq : Quiet s)
    (h : executeLoad u rd base imm s = .next t) (hm : memFault t = none) (ha : access u = .load w sg) :
    settled t = (settled s).setX rd (extendLoad w sg ((settled s).load (base + imm) (widthBytes w))) := by
  obtain rfl := Host.Outcome.next.inj ((runTick_done hq ..).symm.trans h)
  rw [memFault_commit (congrArg Access.width ha), Option.map_eq_none_iff] at hm
  exact settled_commit_load ha hm

theorem settled_executeStore {u : Uop} {base data imm : Word} {w : Width} {s t : State} (hq : Quiet s)
    (h : executeStore u base data imm s = .next t) (hm : memFault t = none) (ha : access u = .store w) :
    settled t = (settled s).store (base + imm) (widthBytes w) data := by
  obtain rfl := Host.Outcome.next.inj ((runTick_done hq ..).symm.trans h)
  rw [memFault_commit (congrArg Access.width ha), Option.map_eq_none_iff] at hm
  exact settled_commit_store ha hm

/-- A branch, FENCE or an Unimplemented instruction: nothing of it settles. -/
theorem settled_exec_silent {i : Instr} {s t : State} (hrun : s.halted = none) (h : exec i s = .next t)
    (ht : t.halted = none) (ha : access i.uop = .none) (hw : writesRd i.uop = false) : settled t = settled s := by
  obtain ⟨ex, rfl, hx⟩ := exec_inv h
  obtain ⟨hold, hcommit⟩ := tickWith_running hrun ht
  rw [hcommit]
  cases ex with
  | idle => exact hx.elim
  | done e redirect diag =>
    obtain ⟨-, huop, -⟩ := hx
    exact settled_commit_silent (huop ▸ ha) (huop ▸ hw)
  | raised err => simp [oldestFault_raised] at hold

/-- On operands that are settled, each instruction does what its rule says. -/
theorem exec_refines_seqExec {i : Instr} {pc : Word} {s t : State} (hready : Ready i pc s)
    (hx : ∀ r ∈ sources i, (settled s).x r = s.x r) (h : exec i s = .next t) (ht : t.halted = none)
    (hm : memFault t = none) : settled t = seqExec pc i (settled s) := by
  have hq := hready.quiet
  obtain rfl := executePc_of_ready hready
  cases i
  case lui | auipc =>
    refine (settled_executeAlu hq h rfl rfl).trans ?_
    simp [seqExec, aluResult]
  case addi | slti | sltiu | xori | ori | andi | slli | srli | srai | add | sub | sll | slt | sltu | xor | srl | sra | or |
      and =>
    simp only [sources, List.forall_mem_cons] at hx
    refine (settled_executeAlu hq h rfl rfl).trans ?_
    simp [seqExec, hx, aluResult, shiftAmount_eq, signedLt, unsignedLt, boolWord_decide]
  case jal | jalr => exact settled_executeJump hq h ht rfl rfl
  case lb | lh | lw | lbu | lhu =>
    simp only [sources, List.forall_mem_cons] at hx
    refine (settled_executeLoad hq h hm rfl).trans ?_
    simp [seqExec, hx, extendLoad, widthBytes]
  case sb | sh | sw =>
    simp only [sources, List.forall_mem_cons] at hx
    refine (settled_executeStore hq h hm rfl).trans ?_
    simp [seqExec, hx, widthBytes]
  all_goals exact settled_exec_silent hq.running h ht rfl rfl

/-- The next fetch behind a tick after which the engine still runs: from the target of a taken transfer, else from PC + 4. -/
theorem step_running_pc {s t : State} {d : DELatch} (hrun : s.halted = none) (hd : s.de = some d)
    (hs : step s = .next t) (ht : t.halted = none) :
    t.pc = (seqTarget d.pc d.dec { regs := s.regs, dmem := s.dmem }).getD (s.pc + 4#32) := by
  obtain ⟨ex, rfl, hold, ⟨hd', -⟩ | ⟨d', hd', -, hx⟩⟩ := step_running hrun hs ht
  · simp [hd] at hd'
  · obtain rfl : d = d' := Option.some.inj (hd.symm.trans hd')
    cases ex with
    | idle => exact hx.elim
    | done e redirect diag =>
      obtain ⟨-, -, -, -, -, rfl, -⟩ := hx
      simpa only [executePc, hd] using (commit_advances hrun e _ diag).pc
    | raised err => simp [oldestFault_raised] at hold

/-- A tick without an instruction in Execute: what stood in EM and MW goes on, and nothing new settles. -/
theorem step_running_bubble {s t : State} (hrun : s.halted = none) (hd : s.de = none) (hs : step s = .next t)
    (ht : t.halted = none) : settled t = settled s ∧ t.pc = s.pc + 4#32 := by
  obtain ⟨ex, rfl, -, ⟨-, rfl⟩ | ⟨d, hd', -⟩⟩ := step_running hrun hs ht
  · exact ⟨settled_bubble (commit_em ..), rfl⟩
  · simp [hd] at hd'

/-- The simulation step: hazard-freedom says that the operands that are read are the settled ones. -/
theorem settled_step_of_hazardFree {s t : State} {d : DELatch} (hrun : s.halted = none) (hd : s.de = some d)
    (hfree : hazardFree s d.dec = true) (hs : step s = .next t) (ht : t.halted = none) (hm : memFault t = none) :
    settled t = seqExec d.pc d.dec (settled s) :=
  exec_refines_seqExec ⟨quiet_of_step_running hrun hs ht, hd⟩ (fun _ => settled_x_of_hazardFree hfree)
    ((step_of_de hd).symm.trans hs) ht hm

/-! A run (R200). -/

theorem executed_succ {s t : State} (hs : step s = .next t) (n : Nat) :
    executed (n + 1) s = (s.de.map fun d => (d.pc, d.dec)).toList ++ executed n t := by
  cases hd : s.de <;> simp [executed, hs, hd]

/-- In every tick of a run but perhaps the last, no stage but Execute could have failed. -/
theorem RunsTo.quiet {n : Nat} {s t : State} (h : RunsTo (n + 1) s t) : Quiet s := by
  obtain ⟨s', hs, hr⟩ := runsTo_succ.1 h
  exact quiet_of_step_running h.running hs hr.running

/-- The simulation over a run: from any state, the instructions executed in `n` ticks take the state to which EM and MW settle
before the run to the one to which they settle after it. The tick behind the run shows that no access in it fails. -/
theorem settled_of_hazardFreeRun {n : Nat} {s u : State} (hfree : HazardFreeRun n s) (hr : RunsTo (n + 1) s u) :
    ∃ t, RunsTo n s t ∧ step t = .next u ∧ settled t = seqRun (executed n s) (settled s) := by
  induction n generalizing s with
  | zero =>
    obtain ⟨t, ht, hu, -⟩ := runsTo_succ_last.1 hr
    obtain ⟨rfl, -⟩ := runsTo_zero.1 ht
    exact ⟨t, ht, hu, rfl⟩
  | succ n ih =>
    obtain ⟨s', hs, hr'⟩ := runsTo_succ.1 hr
    obtain ⟨hhead, htail⟩ := hfree
    obtain ⟨t, ht, hu, hsettled⟩ := ih (htail s' hs) hr'
    refine ⟨t, runsTo_succ.2 ⟨s', hs, ht⟩, hu, ?_⟩
    rw [hsettled, executed_succ hs]
    cases hd : s.de with
    | none =>
      rw [(step_running_bubble hr.running hd hs hr'.running).1]
      rfl
    | some d =>
      rw [settled_step_of_hazardFree hr.running hd (hhead d hd) hs hr'.running hr'.quiet.memAccess]
      rfl

end Sys2Proof.Machine

namespace Sys2Proof.Proofs

open Sys2Proof.Machine Sys2Proof.Stated

/-- Settles O23: the simulation step; the target of a transfer, too, is computed from settled operands. -/
theorem tickRefinesSequentialExecution : Obligations.TickRefinesSequentialExecution := by
  refine ⟨fun s t d hrun hd hfree hs ht hm => ⟨settled_step_of_hazardFree hrun hd hfree hs ht hm, ?_⟩,
    fun s t => step_running_bubble⟩
  have hx : ∀ r ∈ sources d.dec, (settled s).x r = s.x r := fun _ => settled_x_of_hazardFree hfree
  rw [step_running_pc hrun hd hs ht, seqTarget_congr (b := { regs := s.regs, dmem := s.dmem }) hx]

/-- Settles O24: the simulation over the run, from a state that is its own settled one, and the two ticks in which the settled
state arrives. -/
theorem hazardFreeRunsAreSequential : Obligations.HazardFreeRunsAreSequential := by
  intro n s t u hem hmw hfree ht hu
  obtain ⟨v, hv, hvt, hsettled⟩ := settled_of_hazardFreeRun hfree ht
  obtain ⟨t', ht', htu, hurun⟩ := runsTo_succ_last.1 hu
  obtain rfl := ht.unique ht'
  have hstart : settled s = { regs := s.regs, dmem := s.dmem } := by
    rw [settled_bubble hem, hmw, writeBack_none]
  rw [← hstart, ← hsettled]
  exact settledStateArrives v t u hv.2 hvt ht.2 htu hurun

/-- Settles O22: what a tick writes to the registers does not depend on DE, and what it hands on to MW neither; the third tick
is the one in which the settled registers arrive. -/
theorem resultsAreSeenThreeSlotsLater : Obligations.ResultsAreSeenThreeSlotsLater := by
  refine ⟨fun s s1 s2 t1 t2 d hrun hs1 hrun1 hs2 hrun2 ht1 hrunt1 ht2 hrunt2 => ?_,
    fun s s1 s2 s3 _ _ hrun1 hs2 hrun2 hs3 hrun3 => (settledStateArrives s1 s2 s3 hrun1 hs2 hrun2 hs3 hrun3).2⟩
  have hsettled : (settled s).regs = (settled { s with de := d }).regs := rfl
  obtain ⟨ex, rfl, -⟩ := step_running hrun hs1 hrun1
  obtain ⟨ex', rfl, -⟩ := step_running (s := { s with de := d }) hrun ht1 hrunt1
  refine ⟨rfl, ?_⟩
  rw [(settledStateArrives s _ s2 hrun hs1 hrun1 hs2 hrun2).2, hsettled]
  exact (settledStateArrives { s with de := d } _ t2 hrun ht1 hrunt1 ht2 hrunt2).2.symm

end Sys2Proof.Proofs
end

section
/-! PROOFS. The end of a run (`70_reset_and_hazards.md` section 3): the one tick that halts, and the convention of R196. -/

namespace Sys2Proof.Machine

open Sys2Proof.Stated

/-! Runs: what they keep, and where they end. -/

theorem RunsTo.tick {n : Nat} {s t : State} (h : RunsTo n s t) : t.tick = s.tick + n := by
  induction n generalizing s with
  | zero => rw [(runsTo_zero.1 h).1, Nat.add_zero]
  | succ n ih =>
    obtain ⟨s', hs, hr⟩ := runsTo_succ.1 h
    obtain ⟨ex, rfl, -⟩ := step_inv hs
    rw [ih hr, tickWith_tick h.running]
    omega

/-- Fetches read the same words throughout a run (R58). -/
theorem RunsTo.iMemRead {n : Nat} {s t : State} (h : RunsTo n s t) (a : Word) : iMemRead t a = iMemRead s a := by
  induction n generalizing s with
  | zero => rw [(runsTo_zero.1 h).1]
  | succ n ih =>
    obtain ⟨s', hs, hr⟩ := runsTo_succ.1 h
    obtain ⟨ex, rfl, -⟩ := step_inv hs
    rw [ih hr]
    simp only [Machine.iMemRead, tickWith_imem, tickWith_params]

/-- The tick between two states of a run. -/
theorem RunsTo.step_next {n : Nat} {s t u : State} (ht : RunsTo n s t) (hu : RunsTo (n + 1) s u) :
    step t = .next u := by
  obtain ⟨t', ht', htu, -⟩ := runsTo_succ_last.1 hu
  rwa [ht.unique ht']

theorem RunsTo.exists_of_le {n m : Nat} {s t : State} (h : RunsTo m s t) (hnm : n ≤ m) : ∃ v, RunsTo n s v := by
  induction m, hnm using Nat.le_induction generalizing t with
  | base => exact ⟨t, h⟩
  | succ m _ ih =>
    obtain ⟨t', ht', -⟩ := runsTo_succ_last.1 h
    exact ih ht'

theorem run_add {n : Nat} {s t : State} (h : Host.Core.run Sys2Proof.core n s = .next t) (m : Nat) :
    Host.Core.run Sys2Proof.core (n + m) s = Host.Core.run Sys2Proof.core m t := by
  induction n generalizing s with
  | zero =>
    obtain rfl : s = t := Host.Outcome.next.inj h
    rw [Nat.zero_add]
  | succ n ih =>
    obtain ⟨ex, hs⟩ := Machine.step_next s
    rw [run_succ_eq hs] at h
    rw [Nat.add_right_comm, run_succ_eq hs, ih h]

theorem run_halted {s : State} (h : s.halted ≠ none) (m : Nat) : Host.Core.run Sys2Proof.core m s = .next s := by
  induction m with
  | zero => rfl
  | succ m ih => rw [run_succ_eq (step_halted h), ih]

theorem HaltsAfter.run {n : Nat} {s e : State} (h : HaltsAfter n s e) :
    Host.Core.run Sys2Proof.core (n + 1) s = .next e := by
  obtain ⟨t, ⟨ht, -⟩, hs, -⟩ := h
  rw [run_add ht, run_succ_eq hs]
  rfl

theorem HaltsAfter.halted {n : Nat} {s e : State} (h : HaltsAfter n s e) : e.halted ≠ none := by
  obtain ⟨_, -, -, he⟩ := h
  exact he

/-- A run that goes on for `n + 1` ticks is not halted by the tick behind `n`. -/
theorem HaltsAfter.le {n m : Nat} {s e f : State} (he : HaltsAfter n s e) (hf : HaltsAfter m s f) : m ≤ n := by
  by_contra hlt
  obtain ⟨t, ht, -⟩ := hf
  obtain ⟨v, hv, hrun⟩ := ht.exists_of_le (Nat.lt_of_not_le hlt)
  obtain rfl : e = v := Host.Outcome.next.inj (he.run.symm.trans hv)
  exact he.halted hrun

theorem HaltsAfter.unique {n m : Nat} {s e f : State} (he : HaltsAfter n s e) (hf : HaltsAfter m s f) :
    m = n ∧ f = e := by
  obtain rfl : m = n := Nat.le_antisymm (he.le hf) (hf.le he)
  exact ⟨rfl, Host.Outcome.next.inj (hf.run.symm.trans he.run)⟩

/-- The tick that halts a running engine is FatalCommit, which writes its own number into the record. -/
theorem step_halts_record {t e : State} (hrun : t.halted = none) (hs : step t = .next e) (he : e.halted ≠ none) :
    e.tick = t.tick + 1 ∧ ∃ h, e.halted = some h ∧ h.tick = t.tick + 1 := by
  obtain ⟨ex, rfl, -⟩ := step_inv hs
  rcases tickWith_cases t ex with ⟨hh, -⟩ | ⟨-, -, ht⟩ | ⟨-, f, -, ht⟩
  · exact absurd hrun hh
  · rw [ht] at he
    exact absurd hrun he
  · rw [ht]
    exact ⟨rfl, _, rfl, rfl⟩

theorem shutdown_halted (s : State) : (shutdown s).halted ≠ none := by
  cases h : s.halted with
  | none => simp [shutdown_running h]
  | some r => simp [shutdown, h]

/-! A NOP (R196). -/

/-- The word 0x00000013, decoded: ADDI x0, x0, 0. -/
def nop : Instr := .addi 0#5 0#5 0#32

theorem decode_nop : decode 0x00000013#32 = .ok nop := rfl

/-- A NOP stands in EM. -/
def NopInMem (s : State) : Prop := ∃ e, s.em = some e ∧ e.uop = .addi ∧ e.rd = 0#5 ∧ e.noop = false

theorem NopInMem.memFault {s : State} (h : NopInMem s) : memFault s = none := by
  obtain ⟨e, he, huop, -⟩ := h
  rw [memFault_access he, huop]
  rfl

theorem NopInMem.settled_eq {s : State} (h : NopInMem s) :
    settled s = { regs := writeBack s.regs s.mw, dmem := s.dmem } := by
  obtain ⟨e, he, huop, hrd, hnoop⟩ := h
  rw [settled_result he (by rw [huop]; rfl) (by rw [huop]; rfl) hnoop, hrd, writeReg_zero]

/-- A NOP in Execute goes on to EM, and nothing of it settles. -/
theorem step_nop {pc : Word} {s : State} (h : Ready nop pc s) :
    ∃ t, step s = .next t ∧ Advances s t (s.pc + 4#32) ∧ NopInMem t ∧ settled t = settled s := by
  obtain ⟨haddi, -⟩ := Proofs.immediateInstructionsCompute
  obtain ⟨t, e, ht, hadv, -, he, -, huop, hrd, -, hnoop, -, hsettled⟩ := (haddi 0#5 0#5).2 0#32 pc s h
  exact ⟨t, (step_of_de h.inExecute).trans ht, hadv, ⟨e, he, huop, hrd, hnoop⟩, hsettled⟩

/-! The convention (R196). -/

theorem fd_of_fetched {n : Nat} {s t u : State} {w : Word} (ht : RunsTo n s t) (hu : RunsTo (n + 1) s u)
    (hw : iMemRead s t.pc = .ok w) : u.fd = some { pc := t.pc, word := w } := by
  obtain ⟨ex, rfl, -⟩ := step_running ht.2 (ht.step_next hu) hu.2
  exact fdNext_of_iMemRead ((ht.iMemRead _).trans hw)

theorem de_of_fetched {n : Nat} {s t u v : State} {w : Word} {i : Instr} (ht : RunsTo n s t) (hu : RunsTo (n + 1) s u)
    (hv : RunsTo (n + 2) s v) (hw : iMemRead s t.pc = .ok w) (hd : decode w = .ok i) :
    v.de = some { pc := t.pc, dec := i } := by
  obtain ⟨ex, rfl, -⟩ := step_running hu.2 (hu.step_next hv) hv.2
  exact deNext_of_decode (fd_of_fetched ht hu hw) hd

/-- The four fetches, seen from the two last ones: after `n + 2` ticks the first NOP is in Execute, after `n + 3` ticks the
second one is, with the third one in Decode and the word 0x00000000 to be fetched. -/
theorem ConventionalEnd.fetched_nops {s : State} {k n : Nat} (h : ConventionalEnd s k n) :
    ∃ t u, RunsTo (n + 2) s t ∧ RunsTo (n + 3) s u ∧ t.de = some { pc := wordAddress (k - 3), dec := nop } ∧
      u.de = some { pc := wordAddress (k - 3 + 1), dec := nop } ∧
      u.fd = some { pc := wordAddress (k - 3 + 2), word := 0x00000013#32 } ∧ u.pc = wordAddress k := by
  have hk := h.room
  have hword : ∀ j, j < 3 → iMemRead s (wordAddress (k - 3 + j)) = .ok 0x00000013#32 :=
    fun j hj => h.nops _ (by omega) (by omega)
  obtain ⟨t0, h0, hpc0⟩ := h.fetched 0 (by omega)
  obtain ⟨t1, h1, hpc1⟩ := h.fetched 1 (by omega)
  obtain ⟨t2, h2, hpc2⟩ := h.fetched 2 (by omega)
  obtain ⟨t3, h3, hpc3⟩ := h.fetched 3 (by omega)
  rw [Nat.sub_add_cancel hk] at hpc3
  refine ⟨t2, t3, h2, h3, hpc0 ▸ de_of_fetched h0 h1 h2 ?_ decode_nop, hpc1 ▸ de_of_fetched h1 h2 h3 ?_ decode_nop,
    hpc2 ▸ fd_of_fetched h2 h3 ?_, hpc3⟩
  · exact hpc0 ▸ hword 0 (by omega)
  · exact hpc1 ▸ hword 1 (by omega)
  · exact hpc2 ▸ hword 2 (by omega)

/-- The fourth fetch succeeds, so the word 0x00000000 comes to Decode with a NOP in each of the next two stages; what settles
is what settled before the first of them was executed. -/
theorem ConventionalEnd.reaches_decode {s : State} {k n : Nat} (h : ConventionalEnd s k n) :
    ∃ t v, RunsTo (n + 2) s t ∧ RunsTo (n + 4) s v ∧ v.fd = some { pc := wordAddress k, word := 0x00000000#32 } ∧
      v.de = some { pc := wordAddress (k - 3 + 2), dec := nop } ∧ NopInMem v ∧ settled v = settled t := by
  obtain ⟨t, u, ht, hu, htde, hude, hufd, hupc⟩ := h.fetched_nops
  have htu := ht.step_next hu
  obtain ⟨u', htu', -, humem, husettled⟩ := step_nop ⟨quiet_of_step_running ht.2 htu hu.2, htde⟩
  obtain rfl : u' = u := Host.Outcome.next.inj (htu'.symm.trans htu)
  have hword : iMemRead u' u'.pc = .ok 0x00000000#32 := by rw [hu.iMemRead, hupc, h.last]
  have hquiet : Quiet u' :=
    { running := hu.2
      memAccess := humem.memFault
      decode := by simp only [decodeFault, hufd, decode_nop]
      fetch := by simp only [fetchFault, hword] }
  obtain ⟨v, huv, hadv, hvmem, hvsettled⟩ := step_nop ⟨hquiet, hude⟩
  exact ⟨t, v, ht, runsTo_succ_last.2 ⟨u', hu, huv, hadv.running⟩,
    hupc ▸ hadv.fd.trans (fdNext_of_iMemRead hword), hadv.de.trans (deNext_of_decode hufd decode_nop), hvmem,
    hvsettled.trans husettled⟩

/-! A straight-line run (R196). -/

theorem wordAddress_succ (j : Nat) : wordAddress (j + 1) = wordAddress j + 4#32 := by
  rw [wordAddress, wordAddress, Nat.mul_succ, BitVec.ofNat_add]

/-- As long as no transfer is taken, every tick fetches the next word. -/
theorem pc_of_straightLine {s t : State} {j : Nat} (hpc : s.pc = wordAddress 0) (hr : RunsTo j s t)
    (hstraight : ∀ i v d, i < j → RunsTo i s v → v.de = some d →
      seqTarget d.pc d.dec { regs := v.regs, dmem := v.dmem } = none) :
    t.pc = wordAddress j := by
  induction j generalizing t with
  | zero =>
    obtain ⟨rfl, -⟩ := runsTo_zero.1 hr
    exact hpc
  | succ j ih =>
    obtain ⟨v, hv, hvt, ht⟩ := runsTo_succ_last.1 hr
    rw [wordAddress_succ, ← ih hv fun i w d hi => hstraight i w d (by omega)]
    cases hd : v.de with
    | none => exact (step_running_bubble hv.2 hd hvt ht).2
    | some d => rw [step_running_pc hv.2 hd hvt ht, hstraight j v d (by omega) hv hd, Option.getD_none]

end Sys2Proof.Machine

namespace Sys2Proof.Proofs

open Sys2Proof.Machine Sys2Proof.Stated

/-- Settles O50: the halting tick is FatalCommit, a halted engine's ticks are no change, and a run that goes on is no run that
has halted. -/
theorem endStateIsTheHaltingTicks : Obligations.EndStateIsTheHaltingTicks := by
  refine ⟨fun n s e he => ?halts, fun n s e he => ?shutDown, fun s e he => ?final⟩
  case halts =>
    have ⟨t, ht, hs, hhalted⟩ := he
    obtain ⟨htick, hrecord⟩ := step_halts_record ht.2 hs hhalted
    rw [ht.tick] at htick hrecord
    exact ⟨htick, hrecord, fun m => (run_add he.run m).trans (run_halted hhalted m), fun m f hf => he.unique hf⟩
  case shutDown =>
    obtain ⟨t, ht, rfl⟩ := he
    rw [shutdown_running ht.2, ht.tick]
    exact ⟨rfl, rfl⟩
  case final =>
    have hhalted : e.halted ≠ none := by
      obtain ⟨n, hn | ⟨t, -, rfl⟩⟩ := he
      · exact hn.halted
      · exact shutdown_halted t
    exact ⟨hhalted, run_halted hhalted⟩

/-- Settles O51: with NOPs in Execute and MemAccess, Decode's rejection of the word is the tick's first error, and Writeback
commits the last of what had to settle. -/
theorem conventionalProgramsEnd : Obligations.ConventionalProgramsEnd := by
  intro s k n hend
  obtain ⟨t, v, ht, hv, hfd, hde, hmem, hsettled⟩ := hend.reaches_decode
  have hexec : executeFault v = none := by simp only [executeFault, hde, nop, seqTarget]
  obtain ⟨e, hve, hhalts⟩ := decodeErrorHalts v _ (.invalidOpcode 0#7) hv.2 hfd rfl hmem.memFault hexec
  have hrecord := hhalts.record
  rw [hv.tick] at hrecord
  have hafter : HaltsAfter (n + 4) s e := ⟨v, hv, hve, by simp [hrecord]⟩
  refine ⟨e, hafter, ⟨n, hend, hafter, hrecord⟩, hrecord, fun u hu => ?_⟩
  obtain rfl := hu.unique ht
  rw [← hsettled, hhalts.regs, hhalts.dmem]
  exact ⟨by rw [hmem.settled_eq], (settled_dmem v).symm⟩

/-- Settles O52: the straight-line run fetches word j in tick j + 1, so its last four fetches are those of the convention. -/
theorem straightLineProgramsHaltInTickKPlusTwo : Obligations.StraightLineProgramsHaltInTickKPlusTwo := by
  intro p path image dmemInit imemFill s u k hlaunch hk hrange hnops hlast hu hstraight
  obtain ⟨-, bytes, -, hs⟩ := launch_next hlaunch
  have hpc : s.pc = wordAddress 0 := by rw [hs]; rfl
  have htick : s.tick = 0 := by rw [hs]; rfl
  obtain ⟨n, rfl⟩ := Nat.exists_eq_add_of_le' hk
  have hend : ConventionalEnd s (n + 3) n :=
    { room := hk
      range := hrange
      nops := hnops
      last := hlast
      fetched := fun j hj => by
        obtain ⟨t, ht⟩ := hu.exists_of_le (show n + j ≤ n + 3 by omega)
        exact ⟨t, ht, pc_of_straightLine hpc ht fun i v d hi => hstraight i v d (by omega)⟩ }
  obtain ⟨e, hafter, hconv, -⟩ := conventionalProgramsEnd _ _ _ hend
  refine ⟨e, hafter, hconv, ?_⟩
  rw [(endStateIsTheHaltingTicks.1 _ _ _ hafter).1, htick, Nat.zero_add]

end Sys2Proof.Proofs
end

section
/-! PROOFS. The decoder and the encoder (`30_encoding.md`): what resolving a word can answer, row of the opcode map by row, and
what follows for the round trips, the errors and the bits that are not tested. -/

namespace Sys2Proof

open Sys2Proof.Stated

/-! Decoding what was encoded (R62, R63, R66). -/

theorem fitsUpper_eq {imm : Word} (h : fitsUpper imm = true) : imm.extractLsb' 12 20 ++ 0#12 = imm := by
  rw [← eq_of_beq h, BitVec.extractLsb'_append_extractLsb'_eq_extractLsb' (show 12 = 0 + 12 from rfl),
    BitVec.extractLsb'_eq_self]

/-- The rows of AMO (R82), with `aq` and `rl` 0. -/
theorem decode_encode_amo {i : Instr} (h : i.opcode = 0x2F#7) : decode (encode i) = .ok i := by
  cases i
  case lrW | scW | amoswapW | amoaddW | amoxorW | amoandW | amoorW | amominW | amomaxW | amominuW | amomaxuW =>
    simp [encode, decode_of_amo, decodeAmo]
  all_goals cases h

/-- The round trip, by the rows of the opcode map. -/
theorem decode_encode {i : Instr} (h : i.wf = true) : decode (encode i) = .ok i := by
  cases i
  case lui | auipc => simp [encode, decode, fitsUpper_eq h]
  case jal => exact decode_jal _ h
  case jalr => simp [encode, decode, decodeJalr, fits12_eq h]
  case beq | bne | blt | bge | bltu | bgeu => exact decode_encode_branch rfl h
  case lb | lh | lw | lbu | lhu => exact decode_encode_load rfl h
  case sb | sh | sw => exact decode_encode_store rfl h
  case addi | slti | sltiu | xori | ori | andi | slli | srli | srai => exact decode_encode_opImm rfl h
  case fence => simp [encode, decode_of_miscMem, decodeMiscMem, fits12_eq h]
  case ecall | ebreak => exact decode_encode_system rfl h
  case lrW | scW | amoswapW | amoaddW | amoxorW | amoandW | amoorW | amominW | amomaxW | amominuW | amomaxuW =>
    exact decode_encode_amo rfl
  all_goals exact decode_encode_op rfl

/-! Assembled immediates are in the range of their format (R63, R65). -/

theorem fits12_immI (w : Word) : fits12 (immI w) = true := fits12_signExtend _

theorem fits12_immS (w : Word) : fits12 (immS w) = true := fits12_signExtend _

theorem fits13_immB (w : Word) : fits13 (immB w) = true := by
  rw [fits13, immB_field_0, immB, extractLsb'_signExtend _ (by decide) (by decide), BitVec.extractLsb'_eq_self]
  simp

theorem fits21_immJ (w : Word) : fits21 (immJ w) = true := by
  rw [fits21, immJ_field_0, immJ, extractLsb'_signExtend _ (by decide) (by decide), BitVec.extractLsb'_eq_self]
  simp

theorem fitsUpper_immU (w : Word) : fitsUpper (immU w) = true := by
  rw [fitsUpper, immU, BitVec.extractLsb'_append_eq_right]
  simp

/-- The bits above the shift amount are the word's funct7. -/
theorem fitsShift_immI {w : Word} {kind : BitVec 7} (h : funct7Of w = kind) : fitsShift kind (immI w) = true := by
  have h7 : (immI w).extractLsb' 5 7 = funct7Of w := by
    rw [← encodeI_fields w, funct7Of_encodeI, encodeI_fields]
  rw [fitsShift, fits12_immI, h7, h]
  simp

/-! What resolving a word of a known opcode can answer (R72 to R83), said once for each row of the opcode map. -/

/-- An instruction of the word's opcode whose immediate is in range and whose encoding is the word, but for `aq` and `rl` of an
AMO word; or the rejection that names the word's fields. -/
inductive Resolves (w : Word) : Except DecodeError Instr → Prop where
  | row {i : Instr} (hopcode : opcodeOf w = i.opcode) (hwf : i.wf = true)
      (hencode : encode i = if i.opcode = 0x2F#7 then w &&& 0xF9FFFFFF#32 else w) : Resolves w (.ok i)
  | rejected : Resolves w (invalidFunct w)

/-! The rows without a further selector (R78, R79). -/

theorem lui_resolves {w : Word} (h : opcodeOf w = 0x37#7) : Resolves w (.ok (.lui (rdOf w) (immU w))) := by
  have hencode := encodeU_fields w
  rw [h] at hencode
  exact .row h (fitsUpper_immU w) hencode

theorem auipc_resolves {w : Word} (h : opcodeOf w = 0x17#7) : Resolves w (.ok (.auipc (rdOf w) (immU w))) := by
  have hencode := encodeU_fields w
  rw [h] at hencode
  exact .row h (fitsUpper_immU w) hencode

theorem jal_resolves {w : Word} (h : opcodeOf w = 0x6F#7) : Resolves w (.ok (.jal (rdOf w) (immJ w))) := by
  have hencode := encodeJ_fields w
  rw [h] at hencode
  exact .row h (fits21_immJ w) hencode

/-! The rows that resolve by funct3, and funct7, funct5 or funct12 where the row has one. -/

theorem decodeLoad_resolves {w : Word} (h : opcodeOf w = 0x03#7) : Resolves w (decodeLoad w) := by
  have hencode := encodeI_fields w
  unfold decodeLoad
  split
  case h_6 => exact .rejected
  all_goals
    next h3 =>
    rw [h, h3] at hencode
    exact .row h (fits12_immI w) hencode

theorem decodeMiscMem_resolves {w : Word} (h : opcodeOf w = 0x0F#7) : Resolves w (decodeMiscMem w) := by
  have hencode := encodeI_fields w
  unfold decodeMiscMem
  split
  next h3 =>
    rw [h, h3] at hencode
    exact .row h (fits12_immI w) hencode
  next => exact .rejected

/-- Only the shifts test funct7, which is then the upper part of their immediate (R73). -/
theorem decodeOpImm_resolves {w : Word} (h : opcodeOf w = 0x13#7) : Resolves w (decodeOpImm w) := by
  have hencode := encodeI_fields w
  unfold decodeOpImm
  split
  case h_7 h3 =>
    rw [h, h3] at hencode
    split
    next h7 => exact .row h (fitsShift_immI h7) hencode
    next => exact .rejected
  case h_8 h3 =>
    rw [h, h3] at hencode
    split
    next h7 => exact .row h (fitsShift_immI h7) hencode
    next h7 => exact .row h (fitsShift_immI h7) hencode
    next => exact .rejected
  case h_9 => exact .rejected
  all_goals
    next h3 =>
    rw [h, h3] at hencode
    exact .row h (fits12_immI w) hencode

theorem decodeStore_resolves {w : Word} (h : opcodeOf w = 0x23#7) : Resolves w (decodeStore w) := by
  have hencode := encodeS_fields w
  unfold decodeStore
  split
  case h_4 => exact .rejected
  all_goals
    next h3 =>
    rw [h, h3] at hencode
    exact .row h (fits12_immS w) hencode

theorem decodeAmo_resolves {w : Word} (h : opcodeOf w = 0x2F#7) : Resolves w (decodeAmo w) := by
  have hencode := encodeR_fields_amo w
  unfold decodeAmo
  split
  case h_12 => exact .rejected
  all_goals
    next h3 h5 =>
    rw [h, h3, h5] at hencode
    exact .row h rfl hencode

theorem decodeOp_resolves {w : Word} (h : opcodeOf w = 0x33#7) : Resolves w (decodeOp w) := by
  have hencode := encodeR_fields w
  unfold decodeOp
  split
  case h_19 => exact .rejected
  all_goals
    next h7 h3 =>
    rw [h, h3, h7] at hencode
    exact .row h rfl hencode

theorem decodeBranch_resolves {w : Word} (h : opcodeOf w = 0x63#7) : Resolves w (decodeBranch w) := by
  have hencode := encodeB_fields w
  unfold decodeBranch
  split
  case h_7 => exact .rejected
  all_goals
    next h3 =>
    rw [h, h3] at hencode
    exact .row h (fits13_immB w) hencode

theorem decodeJalr_resolves {w : Word} (h : opcodeOf w = 0x67#7) : Resolves w (decodeJalr w) := by
  have hencode := encodeI_fields w
  unfold decodeJalr
  split
  next h3 =>
    rw [h, h3] at hencode
    exact .row h (fits12_immI w) hencode
  next => exact .rejected

/-- SYSTEM's immediate is tested in full (R81). -/
theorem decodeSystem_resolves {w : Word} (h : opcodeOf w = 0x73#7) : Resolves w (decodeSystem w) := by
  have hencode := encodeI_fields w
  unfold decodeSystem
  split
  case h_3 => exact .rejected
  all_goals
    next h3 h12 =>
    rw [h, h3] at hencode
    refine .row h ?_ hencode
    rw [immI_eq_funct12, h12]
    rfl

/-- What decoding a word can answer: a word of a known opcode is resolved, any other is rejected by its opcode (R69). -/
theorem decode_cases (w : Word) :
    (opcodeOf w ∈ knownOpcodes ∧ Resolves w (decode w)) ∨
    (opcodeOf w ∉ knownOpcodes ∧ decode w = .error (.invalidOpcode (opcodeOf w))) := by
  unfold decode
  split
  case h_1 h => exact .inl ⟨h ▸ by decide, decodeLoad_resolves h⟩
  case h_2 h => exact .inl ⟨h ▸ by decide, decodeMiscMem_resolves h⟩
  case h_3 h => exact .inl ⟨h ▸ by decide, decodeOpImm_resolves h⟩
  case h_4 h => exact .inl ⟨h ▸ by decide, auipc_resolves h⟩
  case h_5 h => exact .inl ⟨h ▸ by decide, decodeStore_resolves h⟩
  case h_6 h => exact .inl ⟨h ▸ by decide, decodeAmo_resolves h⟩
  case h_7 h => exact .inl ⟨h ▸ by decide, decodeOp_resolves h⟩
  case h_8 h => exact .inl ⟨h ▸ by decide, lui_resolves h⟩
  case h_9 h => exact .inl ⟨h ▸ by decide, decodeBranch_resolves h⟩
  case h_10 h => exact .inl ⟨h ▸ by decide, decodeJalr_resolves h⟩
  case h_11 h => exact .inl ⟨h ▸ by decide, jal_resolves h⟩
  case h_12 h => exact .inl ⟨h ▸ by decide, decodeSystem_resolves h⟩
  case h_13 => exact .inr ⟨by simp_all [knownOpcodes], rfl⟩

theorem decode_ok {w : Word} {i : Instr} (h : decode w = .ok i) :
    opcodeOf w = i.opcode ∧ i.wf = true ∧ encode i = if i.opcode = 0x2F#7 then w &&& 0xF9FFFFFF#32 else w := by
  obtain ⟨-, hr⟩ | ⟨-, he⟩ := decode_cases w
  · rw [h] at hr
    obtain ⟨hopcode, hwf, hencode⟩ := hr
    exact ⟨hopcode, hwf, hencode⟩
  · simp [h] at he

theorem decode_invalidOpcode_iff (w : Word) (c : BitVec 7) :
    decode w = .error (.invalidOpcode c) ↔ c = opcodeOf w ∧ opcodeOf w ∉ knownOpcodes := by
  obtain ⟨hknown, hr⟩ | ⟨hunknown, he⟩ := decode_cases w
  · refine iff_of_false (fun h => ?_) fun h => h.2 hknown
    rw [h] at hr
    cases hr
  · simp [he, hunknown, eq_comm]

theorem decode_invalidFunct {w : Word} {c : BitVec 7} {f3 : BitVec 3} {f7 : BitVec 7}
    (h : decode w = .error (.invalidFunct c f3 f7)) :
    c = opcodeOf w ∧ f3 = funct3Of w ∧ f7 = funct7Of w ∧ opcodeOf w ∈ knownOpcodes := by
  obtain ⟨hknown, hr⟩ | ⟨-, he⟩ := decode_cases w
  · rw [h] at hr
    cases hr
    exact ⟨rfl, rfl, rfl, hknown⟩
  · simp [h] at he

/-! The bits that are not tested (R87). -/

/-- The fields under a mask are those of the masked word. -/
theorem extractLsb'_of_mask {w m c : Word} {s l : Nat} (h : w &&& m = c) (hm : m.extractLsb' s l = BitVec.allOnes l) :
    w.extractLsb' s l = c.extractLsb' s l := by
  rw [← h, extractLsb'_and_mask w hm]

theorem decode_fence_of_mask {w : Word} (h : w &&& 0x0000707F#32 = 0x0000000F#32) :
    decode w = .ok (.fence (rdOf w) (rs1Of w) (immI w)) := by
  have hopcode : opcodeOf w = 0x0F#7 := extractLsb'_of_mask h (by decide)
  have h3 : funct3Of w = 0#3 := extractLsb'_of_mask h (by decide)
  simp only [decode_of_miscMem hopcode, decodeMiscMem, h3]

theorem decode_ecall_of_mask {w : Word} (h : w &&& 0xFFF0707F#32 = 0x00000073#32) :
    decode w = .ok (.ecall (rdOf w) (rs1Of w) (immI w)) := by
  have hopcode : opcodeOf w = 0x73#7 := extractLsb'_of_mask h (by decide)
  have h3 : funct3Of w = 0#3 := extractLsb'_of_mask h (by decide)
  have h12 : funct12Of w = 0x000#12 := extractLsb'_of_mask h (by decide)
  simp only [decode_of_system hopcode, decodeSystem, h3, h12]

theorem decode_ebreak_of_mask {w : Word} (h : w &&& 0xFFF0707F#32 = 0x00100073#32) :
    decode w = .ok (.ebreak (rdOf w) (rs1Of w) (immI w)) := by
  have hopcode : opcodeOf w = 0x73#7 := extractLsb'_of_mask h (by decide)
  have h3 : funct3Of w = 0#3 := extractLsb'_of_mask h (by decide)
  have h12 : funct12Of w = 0x001#12 := extractLsb'_of_mask h (by decide)
  simp only [decode_of_system hopcode, decodeSystem, h3, h12]

theorem decode_lrW_of_mask {w : Word} (h : w &&& 0xF800707F#32 = 0x1000202F#32) :
    decode w = .ok (.lrW (rdOf w) (rs1Of w) (rs2Of w)) := by
  have hopcode : opcodeOf w = 0x2F#7 := extractLsb'_of_mask h (by decide)
  have h3 : funct3Of w = 2#3 := extractLsb'_of_mask h (by decide)
  have h5 : funct5Of w = 0x02#5 := extractLsb'_of_mask h (by decide)
  simp only [decode_of_amo hopcode, decodeAmo, h3, h5]

/-- Flipping bits that a mask clears. -/
theorem xor_and_of_disjoint (w : Word) {b m : Word} (h : b &&& m = 0#32) : (w ^^^ b) &&& m = w &&& m := by
  ext i hi
  have hbit : (b &&& m)[i] = false := by simp [h]
  rw [BitVec.getElem_and, Bool.and_eq_false_iff] at hbit
  obtain hb | hm := hbit
  · simp [hb]
  · simp [hm]

/-- AMO words that agree but for `aq` and `rl` decode alike, since an instruction is decoded from any word that is its encoding
but for them. -/
theorem decode_amo_xor {w b : Word} {i : Instr} (hw : opcodeOf w = 0x2F#7) (h : decode w = .ok i)
    (hb : b &&& 0xF9FFFFFF#32 = 0#32) : decode (w ^^^ b) = .ok i := by
  obtain ⟨hopcode, -, hencode⟩ := decode_ok h
  have hi : i.opcode = 0x2F#7 := hopcode.symm.trans hw
  rw [if_pos hi] at hencode
  exact decode_amo_of_mask hi ((xor_and_of_disjoint w hb).trans hencode.symm)

end Sys2Proof

namespace Sys2Proof.Proofs

/-- Settles O1: the rows of the opcode map, one by one. -/
theorem decodeOfEncodeIsTheInstruction : Obligations.DecodeOfEncodeIsTheInstruction :=
  fun _ => decode_encode

/-- Settles O2: a word that decodes is resolved, and every row assembles an immediate of its format. -/
theorem decodedInstructionsAreWellFormed : Obligations.DecodedInstructionsAreWellFormed := by
  intro w i h
  obtain ⟨-, hwf, -⟩ := decode_ok h
  exact hwf

/-- Settles O3: a word that decodes is resolved, and every row's word is the encoding of its own fields. -/
theorem encodeOfDecodeIsTheWord : Obligations.EncodeOfDecodeIsTheWord := by
  intro w i h
  obtain ⟨-, -, hencode⟩ := decode_ok h
  exact hencode

/-- Settles O4: a word of a known opcode is resolved or its funct fields are rejected, never its opcode. -/
theorem unknownOpcodesAreInvalidOpcode : Obligations.UnknownOpcodesAreInvalidOpcode :=
  decode_invalidOpcode_iff

/-- Settles O5: the rejection is that of a word of a known opcode, and every row names the word's fields in it. -/
theorem invalidFunctCarriesTheWordsFields : Obligations.InvalidFunctCarriesTheWordsFields := by
  intro w c f3 f7 h
  obtain ⟨rfl, h3, h7, hknown⟩ := decode_invalidFunct h
  exact ⟨rfl, h3, h7, hknown⟩

/-- Settles O6: each mask holds every field that the row tests; an AMO word is decoded by its encoding but for `aq` and `rl`. -/
theorem untestedBitsDoNotChangeTheMicroOp : Obligations.UntestedBitsDoNotChangeTheMicroOp := by
  refine ⟨fun _ h => ⟨_, decode_fence_of_mask h, rfl⟩, fun _ h => ⟨_, decode_ecall_of_mask h, rfl⟩,
    fun _ h => ⟨_, decode_ebreak_of_mask h, rfl⟩, fun _ h => ⟨_, decode_lrW_of_mask h, rfl⟩, fun w i hw h => ?amo⟩
  have hopcode : opcodeOf w = 0x2F#7 := extractLsb'_of_mask hw (by decide)
  exact ⟨decode_amo_xor hopcode h (by decide), decode_amo_xor hopcode h (by decide)⟩

end Sys2Proof.Proofs
end

section
/-! PROOFS. The invariant of the core (`10_state.md`, `20_memory.md`, `40_pipeline.md`): what each stage hands on keeps it, and
so do both phases that end a tick. -/

namespace Sys2Proof.Machine

/-! MemAccess (R45, R48, R104). -/

/-- A store that commits passed its check, so all of its bytes exist. -/
theorem storeThisTick_inRange {s : State} {a n : Nat} {v : Word} (h : storeThisTick s = some (a, n, v)) :
    a + n ≤ s.params.dmemBytes := by
  unfold storeThisTick at h
  split at h
  next => cases h
  next hf =>
    split at h
    next e w hp =>
      cases h
      simp only [memFault, hp, Option.map_eq_none_iff] at hf
      exact (checkAccess_none.1 hf).2
    all_goals cases h

theorem Memory.below_commitStore {s : State} (h : s.dmem.below s.params.dmemBytes = true) :
    (commitStore s).below s.params.dmemBytes = true := by
  unfold commitStore
  split
  next => exact h
  next a n v hs => exact Memory.below_writeLE h a n v (storeThisTick_inRange hs)

/-- What MemAccess hands on: a payload that writes no register carries rd = 0. -/
theorem Inv.mwNext_rd {s : State} (h : Inv s) {m : MWLatch} (hm : mwNext s = some m) :
    wordAligned m.pc = true ∧ (m.we = false → m.rd = 0) := by
  cases he : s.em with
  | none => simp [mwNext_bubble he] at hm
  | some e =>
    obtain ⟨hpc, hnoop, hrd⟩ := h.em e he
    cases hf : memFault s with
    | some f => simp [mwNext_fault hf] at hm
    | none =>
      simp only [mwNext, hf, pendingAccess, he] at hm
      revert hm
      cases access e.uop with
      | load w signed =>
        rintro ⟨⟩
        exact ⟨hpc, nofun⟩
      | store w =>
        rintro ⟨⟩
        exact ⟨hpc, fun _ => rfl⟩
      | none =>
        rintro ⟨⟩
        refine ⟨hpc, fun hwe => hrd ?_⟩
        rcases Bool.and_eq_false_iff.1 hwe with hw | hn
        · exact hw
        · rw [Bool.not_eq_false', hnoop] at hn
          exact (unimplemented_silent hn).2

/-! Fetch and Decode (R101, R102). -/

theorem Inv.fdNext_aligned {s : State} (h : Inv s) {f : FDLatch} (hf : fdNext s = some f) : wordAligned f.pc = true := by
  unfold fdNext at hf
  split at hf
  next =>
    obtain rfl := Option.some.inj hf
    exact h.pc_aligned
  next => cases hf

theorem Inv.deNext_wf {s : State} (h : Inv s) {d : DELatch} (hd : deNext s = some d) :
    wordAligned d.pc = true ∧ d.dec.wf = true := by
  unfold deNext at hd
  split at hd
  next => cases hd
  next f hf =>
    split at hd
    next i hi =>
      obtain rfl := Option.some.inj hd
      obtain ⟨-, hwf, -⟩ := decode_ok hi
      exact ⟨h.fd f hf, hwf⟩
    next => cases hd

/-! Execute (R103, R106, R176). -/

/-- What the invariant asks of what Execute hands on. -/
structure OutputInv (s : State) (ex : ExOutput) : Prop where
  em : ∀ e, emNext ex = some e →
    wordAligned e.pc = true ∧ e.noop = unimplemented e.uop ∧ (writesRd e.uop = false → e.rd = 0)
  redirect : ∀ target, redirectThisTick ex = some target → wordAligned target = true
  diags : ∀ d ∈ newDiags s ex, unimplemented d.uop = true ∧ d.tick = s.tick + 1

theorem outputInv_idle (s : State) : OutputInv s .idle where
  em := by simp
  redirect := by simp
  diags := by simp

theorem Executes.outputInv {i : Instr} {s : State} {ex : ExOutput} (hx : Executes i s ex)
    (hpc : wordAligned (executePc s) = true) : OutputInv s ex := by
  cases ex with
  | idle => exact hx.elim
  | raised err => exact { em := by simp, redirect := by simp, diags := by simp }
  | done e redirect diag =>
    obtain ⟨hepc, huop, hnoop, hrd, rfl, -, haligned⟩ := hx
    refine { em := ?em, redirect := haligned, diags := ?diags }
    case em =>
      rintro _ ⟨⟩
      exact ⟨hepc ▸ hpc, huop ▸ hnoop, huop ▸ hrd⟩
    case diags => cases hu : unimplemented i.uop <;> simp [hu]

theorem Inv.executePc_aligned {s : State} (h : Inv s) : wordAligned (executePc s) = true := by
  unfold executePc
  split
  next d hd => exact (h.de d hd).1
  next => exact h.pc_aligned

/-- The tick that a step runs, with an output of Execute that satisfies the invariant. -/
theorem Inv.step_output {s t : State} (h : Inv s) (hs : step s = .next t) : ∃ ex, t = tickWith ex s ∧ OutputInv s ex := by
  obtain ⟨ex, ht, ⟨-, rfl⟩ | ⟨d, -, hx⟩⟩ := step_inv hs
  · exact ⟨.idle, ht, outputInv_idle s⟩
  · exact ⟨ex, ht, hx.outputInv h.executePc_aligned⟩

/-! The two phases that end a tick (R107, R109). -/

theorem mem_fatalDiags {s : State} {ex : ExOutput} {d : Diagnostic} (h : d ∈ fatalDiags s ex) :
    d ∈ s.diags ++ newDiags s ex := by
  unfold fatalDiags at h
  split at h
  next => exact List.mem_append_left _ h
  next heq =>
    split at h
    next => rwa [heq]
    next => exact List.mem_append_left _ h

/-- Old and new diagnostics after a tick. -/
theorem Inv.diags_tick {s : State} (h : Inv s) {ex : ExOutput} (hex : OutputInv s ex) {d : Diagnostic}
    (hd : d ∈ s.diags ++ newDiags s ex) : unimplemented d.uop = true ∧ 1 ≤ d.tick ∧ d.tick ≤ s.tick + 1 := by
  rcases List.mem_append.1 hd with hold | hnew
  · obtain ⟨huop, hone, htick⟩ := h.diags d hold
    exact ⟨huop, hone, by omega⟩
  · obtain ⟨huop, htick⟩ := hex.diags d hnew
    exact ⟨huop, by omega, by omega⟩

theorem inv_commit {s : State} (h : Inv s) (hrun : s.halted = none) {ex : ExOutput} (hex : OutputInv s ex) :
    Inv (commit s ex) where
  params := h.params
  imem_wf := h.imem_wf
  imem_range := h.imem_range
  dmem_wf := Memory.wf_commitStore h.dmem_wf
  dmem_range := Memory.below_commitStore h.dmem_range
  x0 := (writeBack_slot_zero s.regs s.mw).trans h.x0
  pc_aligned := pcNext_aligned h.pc_aligned hex.redirect
  fd := fun _ => h.fdNext_aligned
  de := fun _ => h.deNext_wf
  em := hex.em
  mw := fun _ => h.mwNext_rd
  halted := by simp [hrun]
  diags := fun _ => h.diags_tick hex

theorem inv_fatalCommit {s : State} (h : Inv s) {ex : ExOutput} (hex : OutputInv s ex) (f : Fatal) :
    Inv (fatalCommit s ex f) where
  params := h.params
  imem_wf := h.imem_wf
  imem_range := h.imem_range
  dmem_wf := Memory.wf_commitStore h.dmem_wf
  dmem_range := Memory.below_commitStore (s := s) h.dmem_range
  x0 := (writeBack_slot_zero s.regs s.mw).trans h.x0
  pc_aligned := h.pc_aligned
  fd := by simp
  de := by simp
  em := by simp
  mw := by simp
  halted := by rintro _ ⟨⟩; exact ⟨rfl, rfl, rfl, rfl, rfl⟩
  diags := fun _ hd => h.diags_tick hex (mem_fatalDiags hd)

end Sys2Proof.Machine

namespace Sys2Proof.Proofs

open Sys2Proof.Machine

/-- Settles O17: a tick is no change, the commit phase or FatalCommit, and what the stages hand on keeps the invariant. -/
theorem everyTickKeepsInvariant : Obligations.EveryTickKeepsInvariant := by
  intro s t h hs
  obtain ⟨ex, rfl, hex⟩ := h.step_output hs
  rcases tickWith_cases s ex with ⟨-, ht⟩ | ⟨hrun, -, ht⟩ | ⟨-, f, -, ht⟩
  · rwa [ht]
  · rw [ht]
    exact inv_commit h hrun hex
  · rw [ht]
    exact inv_fatalCommit h hex f

end Sys2Proof.Proofs
end
